-- ==== Sys2Proof/Word.lean ====
section
/-!
DEFINITION. The word types of DTL-FHC and the shape of one host bus access (R11, R12, R110).
-/

namespace Sys2Proof

/-- A 32-bit register or command word (R31, R110). -/
abbrev Word := BitVec 32

/-- One byte lane of a memory window. -/
abbrev Byte := BitVec 8

/-- A soft sample: an 8-bit two's-complement value, negative meaning bit 1 (R13, R87). -/
abbrev Sample := BitVec 8

/-- A bit string: element 0 comes first in time (R12). -/
abbrev Bits := List Bool

/-- One access of the host on the block's port (R110 (a)): a byte address, an access size in bytes, and
the value written (`none` for a read). -/
structure BusAccess where
  addr : BitVec 16
  size : Nat
  data : Option Word
  deriving DecidableEq, Repr

end Sys2Proof
end

