-- ==== Sys2Proof/Config.lean ====
section
/-!
DEFINITION. The construction parameters of an instance (R7), the code table with its codec (R9), and the one
free value of the model. The parameters are plain data, so that a state can hold them: every statement about
all states is then a statement about all parameter sets (log 3).
-/

namespace Sys2Proof

/-- A Boolean circuit over the bits of its input string. The spec leaves a code's `Encode` and `Decode` to the
parameters, as total functions on strings of fixed length (R9, I2). Every such function is a tuple of circuits, so
holding the codec as circuits leaves every codec open and keeps the parameters plain data (DESIGN CHOICE, log 4;
`encode_universal` and `decode_universal` of Laws/Codec.lean prove that none is lost). -/
inductive BitExpr where
  /-- a constant bit -/
  | const (b : Bool)
  /-- bit `i` of the input string -/
  | input (i : Nat)
  | not (e : BitExpr)
  | xor (e f : BitExpr)
  | and (e f : BitExpr)
  deriving DecidableEq, Repr

/-- One code of `CODES` (R9): its id, `k` information bits, `n` coded bits, `Encode` as one circuit per coded bit
over the `k` information bits, and `Decode` as one circuit for `ok` and one per information bit over the `8 n` bits
of the samples (bit `b` of sample `i` is input `8 i + b`). -/
structure Code where
  id : BitVec 4
  k : Nat
  n : Nat
  enc : List BitExpr
  decOk : BitExpr
  decInfo : List BitExpr
  deriving DecidableEq, Repr

/-- The construction parameters of R7. `HS` and `HB` are derived (R7), `W_MOD`, `W_FEC`, `W_CRC`, `PMAX_BITS` and
`HB_MAX` are fixed. -/
structure Params where
  /-- `FEC_EN`: the link kind (R4) -/
  fecEn : Bool
  /-- `NC`: payload carriers per OFDM symbol -/
  nc : Nat
  /-- `HC`: header subcarriers per header OFDM symbol -/
  hc : Nat
  wPlen : Nat
  wSeq : Nat
  wFlen : Nat
  wCwid : Nat
  wOff : Nat
  wShort : Nat
  /-- `SCR_SEED` -/
  scrSeed : BitVec 7
  /-- `CODES`: the partial map from code id 1..15 to a code, as a list without two entries of one id -/
  codes : List Code
  /-- `TXQ_CAP`, in bits -/
  txqCap : Nat
  /-- `RXQ_CAP`, in bits -/
  rxqCap : Nat
  /-- `CWREP_CAP`, in entries -/
  cwrepCap : Nat
  initMod : BitVec 4
  initFec : BitVec 4
  initFlen : BitVec 16
  initMaxEmpty : BitVec 16
  deriving DecidableEq, Repr

namespace Config

/-- `W_MOD` and `W_FEC` (R7): fixed 4. -/
def wMod : Nat := 4
/-- `W_CRC` (R7): fixed 8. -/
def wCrc : Nat := 8
/-- `PMAX_BITS` (R7): the size of the payload windows in bits or samples. -/
def pmaxBits : Nat := 32768
/-- `HB_MAX` (R7): the size of the header windows in bits or samples. -/
def hbMax : Nat := 256

/-- FREE VALUE: what a `w`-bit register field holds when a rule puts into it the number `v ≥ 2 ^ w`. The spec states
no result there (a level register of a queue with 2^32 or more entries, R48; the 16-bit `nbits` of a report of
65536 bits, R58). It has no body: nothing can be proved of it (DESIGN CHOICE, log 5). -/
opaque unfit : (w v : Nat) → BitVec w

/-- Input bit `8 i + 7`: the sign of sample `i`, the bit it decides as (R13). -/
def signOf (i : Nat) : BitExpr := .input (8 * i + 7)

/-- The hard decision of sample `i` agrees with the bit that `e` computes from the hard decisions. -/
def agrees (i : Nat) (e : BitExpr) : BitExpr := .not (.xor (signOf i) e)

/-- Toy code 1 of 95_test_vectors.md: `k = 4`, `n = 8`, `Encode(x) = x ++ not x`. -/
def toyCode1 : Code where
  id := 1
  k := 4
  n := 8
  enc := [.input 0, .input 1, .input 2, .input 3,
          .not (.input 0), .not (.input 1), .not (.input 2), .not (.input 3)]
  decOk := .and (.and (agrees 4 (.not (signOf 0))) (agrees 5 (.not (signOf 1))))
                (.and (agrees 6 (.not (signOf 2))) (agrees 7 (.not (signOf 3))))
  decInfo := [signOf 0, signOf 1, signOf 2, signOf 3]

/-- Toy code 2 of 95_test_vectors.md: `k = 6`, `n = 10`,
`Encode(x) = x ++ [x0 ⊕ x1, x2 ⊕ x3, x4 ⊕ x5, x0 ⊕ x2 ⊕ x4]`. -/
def toyCode2 : Code where
  id := 2
  k := 6
  n := 10
  enc := [.input 0, .input 1, .input 2, .input 3, .input 4, .input 5,
          .xor (.input 0) (.input 1), .xor (.input 2) (.input 3), .xor (.input 4) (.input 5),
          .xor (.input 0) (.xor (.input 2) (.input 4))]
  decOk := .and (.and (agrees 6 (.xor (signOf 0) (signOf 1))) (agrees 7 (.xor (signOf 2) (signOf 3))))
                (.and (agrees 8 (.xor (signOf 4) (signOf 5)))
                      (agrees 9 (.xor (signOf 0) (.xor (signOf 2) (signOf 4)))))
  decInfo := [signOf 0, signOf 1, signOf 2, signOf 3, signOf 4, signOf 5]

/-- Configuration F of 95_test_vectors.md section 2 (an FEC link). The parameters of `State.reset`
(DESIGN CHOICE, log 3). -/
def configF : Params where
  fecEn := true
  nc := 4
  hc := 48
  wPlen := 12
  wSeq := 12
  wFlen := 8
  wCwid := 8
  wOff := 14
  wShort := 14
  scrSeed := 0x7F
  codes := [toyCode1, toyCode2]
  txqCap := 65536
  rxqCap := 65536
  cwrepCap := 256
  initMod := 2
  initFec := 1
  initFlen := 1
  initMaxEmpty := 0xFFFF

/-- Configuration N of 95_test_vectors.md section 2 (a no-FEC link). -/
def configN : Params := { configF with fecEn := false, initFec := 0 }

end Config

end Sys2Proof
end

