-- ==== Sys2Proof/Syntax.lean ====
section
/-!
DEFINITION. The instructions of DTL-FHC: one constructor for each row of spec/opcode_table.json (R110, R113).
-/

namespace Sys2Proof

/-- An instruction (R110): nine commands, written as a word to CMD, and the two bus accesses. -/
inductive Instr where
  /-- `NOP` (R250) -/
  | nop
  /-- `SOFT_RESET` (R251) -/
  | softReset
  /-- `TX_PUSH DATA, CNT` (R181) -/
  | txPush (data : BitVec 8) (cnt : BitVec 4)
  /-- `TX_BUILD` (R182) -/
  | txBuild
  /-- `HDR_BUILD` (R151) -/
  | hdrBuild
  /-- `HDR_PARSE` (R152) -/
  | hdrParse
  /-- `RX_FRAME` (R218) -/
  | rxFrame
  /-- `RX_POP CNT` (R219) -/
  | rxPop (cnt : BitVec 4)
  /-- `CWREP_POP` (R220) -/
  | cwrepPop
  /-- `RD a` with an access size in bytes (R252) -/
  | rd (addr : BitVec 16) (size : Nat)
  /-- `WR a, v` with an access size in bytes (R253) -/
  | wr (addr : BitVec 16) (value : Word) (size : Nat)
  deriving DecidableEq, Repr

end Sys2Proof
end

