-- ==== Sys2Proof/WellFormed.lean ====
section
/-!
DEFINITION. Well-formed instructions. Every operand field has the width its encoding gives it by its type, so one
check is left: a bus write that IS a command (a 32-bit write of a command word to CMD, R118) is written as that
command, so that each host access has one well-formed instruction (log 8). An ill-formed write still has a meaning.
-/

namespace Sys2Proof

/-- The byte address of CMD (R47, R81). -/
def cmdAddr : BitVec 16 := 0x030

/-- A row of the opcode map (R113): a word belongs to it when its bits under `mask` are `pattern`. -/
structure OpRow where
  mask : Word
  pattern : Word
  deriving DecidableEq, Repr

/-- The word lies in the row. -/
def OpRow.has (r : OpRow) (w : Word) : Bool := w &&& r.mask == r.pattern

/-- The opcode map of R113, in its order: opcode and reserved bits of each command. -/
def opcodeMap : List OpRow :=
  [ ⟨0xFFFFFFFF, 0x00000000⟩,   -- NOP
    ⟨0xFFFFFFFF, 0x00000001⟩,   -- SOFT_RESET
    ⟨0xFFF000FF, 0x00000010⟩,   -- TX_PUSH
    ⟨0xFFFFFFFF, 0x00000011⟩,   -- TX_BUILD
    ⟨0xFFFFFFFF, 0x00000020⟩,   -- HDR_BUILD
    ⟨0xFFFFFFFF, 0x00000021⟩,   -- HDR_PARSE
    ⟨0xFFFFFFFF, 0x00000030⟩,   -- RX_FRAME
    ⟨0xFFF0FFFF, 0x00000031⟩,   -- RX_POP
    ⟨0xFFFFFFFF, 0x00000032⟩ ]  -- CWREP_POP

/-- The word is a command (R114: "exactly one row of rule R113 or illegal"). -/
def isCommandWord (w : Word) : Bool := opcodeMap.any (·.has w)

/-- The check of an instruction: a write that is a command's own access is not written as `wr`. -/
def Instr.wellFormed : Instr → Bool
  | .nop => true
  | .softReset => true
  | .txPush _ _ => true
  | .txBuild => true
  | .hdrBuild => true
  | .hdrParse => true
  | .rxFrame => true
  | .rxPop _ => true
  | .cwrepPop => true
  | .rd _ _ => true
  | .wr addr value size => !(addr == cmdAddr && size == 4 && isCommandWord value)

end Sys2Proof
end

