-- ==== Sys2Proof/Decode.lean ====
section
/-!
DEFINITION. Decoding of command words and host accesses, total, rejecting by name (R110 to R116, R256), and the
encoder (R113, R118).
-/

namespace Sys2Proof

/-- Why a word written to CMD is no command (R114). -/
inductive DecodeError where
  /-- the opcode `w[7:0]` is not in the map of R113 (R115) -/
  | reservedOpcode
  /-- a reserved bit of the opcode's row is set (R111, R114) -/
  | reservedBits
  deriving DecidableEq, Repr

/-- `w[7:0] = OP` (R110). -/
def opField (w : Word) : BitVec 8 := w.extractLsb' 0 8
/-- `w[15:8] = DATA` (R111). -/
def dataField (w : Word) : BitVec 8 := w.extractLsb' 8 8
/-- `w[19:16] = CNT` (R111). -/
def cntField (w : Word) : BitVec 4 := w.extractLsb' 16 4

/-- The instruction of a word whose reserved bits must be zero. -/
def unlessReserved (reserved : Bool) (i : Instr) : Except DecodeError Instr :=
  if reserved then .error .reservedBits else .ok i

/-- The command of a word written to CMD (R113, R256): `OP` selects the row, then the row's reserved bits must be 0. -/
def decodeCommand (w : Word) : Except DecodeError Instr :=
  let above19 := w.extractLsb' 20 12 != 0
  let above7 := w.extractLsb' 8 24 != 0
  match (opField w).toNat with
  | 0x00 => unlessReserved above7 .nop
  | 0x01 => unlessReserved above7 .softReset
  | 0x10 => unlessReserved above19 (.txPush (dataField w) (cntField w))
  | 0x11 => unlessReserved above7 .txBuild
  | 0x20 => unlessReserved above7 .hdrBuild
  | 0x21 => unlessReserved above7 .hdrParse
  | 0x30 => unlessReserved above7 .rxFrame
  | 0x31 => unlessReserved (above19 || dataField w != 0) (.rxPop (cntField w))
  | 0x32 => unlessReserved above7 .cwrepPop
  | _ => .error .reservedOpcode

/-- The instruction of a host access (R110): a 32-bit write of a command word to CMD is that command (R118); every
other access is the `rd` or `wr` it is (a write of an illegal word to CMD among them, R114). -/
def decodeAccess (t : BusAccess) : Instr :=
  match t.data with
  | none => .rd t.addr t.size
  | some v =>
    if t.addr = cmdAddr ∧ t.size = 4 then
      match decodeCommand v with
      | .ok i => i
      | .error _ => .wr t.addr v t.size
    else .wr t.addr v t.size

/-- The access that writes the word `w` to CMD (R110 (b)). -/
def commandAccess (w : Word) : BusAccess := ⟨cmdAddr, 4, some w⟩

/-- The host access that an instruction is (R110, R118): a command is the 32-bit write to CMD of its word,
`(cnt << 16) | (data << 8) | OP`. -/
def encode : Instr → BusAccess
  | .rd addr size => ⟨addr, size, none⟩
  | .wr addr value size => ⟨addr, size, some value⟩
  | .nop => commandAccess 0x00000000
  | .softReset => commandAccess 0x00000001
  | .txPush data cnt => commandAccess ((cnt.setWidth 32 <<< 16) ||| (data.setWidth 32 <<< 8) ||| 0x10)
  | .txBuild => commandAccess 0x00000011
  | .hdrBuild => commandAccess 0x00000020
  | .hdrParse => commandAccess 0x00000021
  | .rxFrame => commandAccess 0x00000030
  | .rxPop cnt => commandAccess ((cnt.setWidth 32 <<< 16) ||| 0x31)
  | .cwrepPop => commandAccess 0x00000032

/-- The decoder on an instruction's bits as spec/opcode_table.json numbers them: a command is exactly one 32-bit word
(R116), so no other length decodes. A RD or WR has no word there (the table gives those rows no bits), so no word
decodes to one. -/
def decodeTableWord (nbits w : Nat) : Option Instr :=
  if nbits = 32 ∧ w < 2 ^ 32 then
    match decodeCommand (BitVec.ofNat 32 w) with
    | .ok i => some i
    | .error _ => none
  else none

end Sys2Proof
end

