-- ==== Sys2Proof/Machine/Bits.lean ====
section
/-!
DEFINITION. The pseudocode primitives on bit strings and samples (R11, R12, R13, R14).
-/

namespace Sys2Proof.Machine

/-- `ceil_div(a, b)` for `b ≥ 1` (R11). -/
def ceilDiv (a b : Nat) : Nat := (a + b - 1) / b

/-- `bin_W(v)`: the `W`-bit string of `v`, most significant bit first (R12). -/
def bin (w v : Nat) : Bits := (List.range w).map fun i => v.testBit (w - 1 - i)

/-- `val(s)`: the value of `s` read most significant bit first (R12). -/
def val (s : Bits) : Nat := s.foldl (fun a b => 2 * a + b.toNat) 0

/-- `zeros(m)` (R12). -/
def zeros (m : Nat) : Bits := List.replicate m false

/-- The first `m` elements of `s` followed by as many zeros as make the length `m`. -/
def fitLen (m : Nat) (s : Bits) : Bits := s.take m ++ zeros (m - s.length)

/-- `hard(x)`: 1 if the sample is negative (R13). -/
def hard (x : Sample) : Bool := decide (x.toInt < 0)

/-- `soft_ideal` (R9): `+127` for 0 and `−127` for 1. -/
def softIdeal (b : Bool) : Sample := if b then BitVec.ofInt 8 (-127) else BitVec.ofInt 8 127

/-- The number `v` in a field of `w` bits; a number that does not fit is a free value (log 5). -/
def field (w v : Nat) : BitVec w := if v < 2 ^ w then BitVec.ofNat w v else Config.unfit w v

/-- `(x + 1) mod 2^W` of a counter held in a 16-bit register (R51). -/
def incMod (w : Nat) (x : BitVec 16) : BitVec 16 := BitVec.ofNat 16 ((x.toNat + 1) % 2 ^ w)

end Sys2Proof.Machine
end

