-- ==== Sys2Proof/Machine/State.lean ====
section
/-!
DEFINITION. The state of one DTL-FHC instance (R30), the reasons a step can stop, and the reset state (R300).
-/

namespace Sys2Proof.Machine

/-- The causes of R271. -/
inductive Cause where
  | cmdIllegal
  | cmdUnsupported
  | cmdArg
  | cfgReject
  | txqOvf
  | rxqOvf
  | hdrCrc
  | hdrNovalid
  | hdrBadfield
  | cwFail
  | cwLost
  | bus
  deriving DecidableEq, Repr

/-- Why the machine stops. No cause of R271 is one of these: a cause is recorded and the block continues (R270). -/
inductive Fault where
  /-- Raised by `State.construct`, never by a step: the construction parameters are malformed and "the block has no
  reset state and refuses to exist" (R8). Safe. -/
  | malformedConfiguration
  /-- Raised by TX_BUILD in a state whose MCS names no modulation, or where neither the remnant nor MCS names a code of
  `CODES` for the frame. R38 and R50 keep every run out of such a state and the spec gives the build no effect there
  (log 6). Safe. -/
  | undefinedScheme
  deriving DecidableEq, Repr

/-- Why an instruction has no meaning. Every instruction of the opcode table has one. -/
inductive Refusal where
  /-- Raised by an arm of `exec` for an instruction not modelled yet (there is none). Safe. -/
  | notModelled (mnemonic : String)
  deriving DecidableEq, Repr

/-- The names of the header fields, in the order of R141. -/
inductive HdrField where
  | plen
  | seq
  | mod
  | fec
  | flen
  | cwid
  | off
  | short
  | emod
  | efec
  deriving DecidableEq, Repr

/-- A header field set, as its registers hold it (R53, R55). -/
structure Header where
  plen : BitVec 16
  flen : BitVec 16
  seq : BitVec 16
  mod : BitVec 4
  fec : BitVec 4
  emod : BitVec 4
  efec : BitVec 4
  cwid : BitVec 16
  off : BitVec 16
  short : BitVec 16
  deriving DecidableEq, Repr

/-- Every field 0: the reset value of TXH and RXH (R300). -/
def Header.zero : Header := ⟨0, 0, 0, 0, 0, 0, 0, 0, 0, 0⟩

/-- The Tx remnant (R50): the not yet sent tail `bits` of codeword `id` of code `fec`, after `off` bits. -/
structure Remnant where
  id : BitVec 16
  fec : BitVec 4
  bits : Bits
  off : Nat
  deriving DecidableEq, Repr

/-- The Rx partial (R56): the first samples `y` of codeword `id` of code `fec`, and its shortening count. -/
structure Partial where
  id : BitVec 16
  fec : BitVec 4
  y : List Sample
  short : Nat
  deriving DecidableEq, Repr

/-- The status of a codeword report (R58): 0, 1, 2, 3 in this order. -/
inductive ReportStatus where
  | ok
  | failDropped
  | failFlagged
  | lost
  deriving DecidableEq, Repr

/-- A codeword report (R58). -/
structure Report where
  id : BitVec 16
  status : ReportStatus
  nbits : BitVec 16
  deriving DecidableEq, Repr

/-- The state of one instance (R30). Registers computed from other state (ID, CAPS, STATUS, the level registers) are
read by `regValue`, not held. `params`, `bus` and `rdata` are the model's own fields (log 3, log 1, log 2). -/
structure State where
  /-- the construction parameters (R7); no step changes them -/
  params : Params
  /-- `CTRL.SCR_EN` (R35) -/
  scrEn : Bool
  /-- `CTRL.FAIL_FLAG` (R35) -/
  failFlag : Bool
  /-- `MCS.MOD` (R36) -/
  mcsMod : BitVec 4
  /-- `MCS.FEC` (R36) -/
  mcsFec : BitVec 4
  /-- `FLEN.L` (R39) -/
  flen : BitVec 16
  /-- `ECHO.EMOD` (R40) -/
  echoMod : BitVec 4
  /-- `ECHO.EFEC` (R40) -/
  echoFec : BitVec 4
  /-- `MAXEMPTY` (R41) -/
  maxEmpty : BitVec 16
  /-- `FLOOR` (R42) -/
  floor : BitVec 16
  /-- `IE` (R43) -/
  ie : Word
  /-- `ERR` (R45) -/
  err : Word
  /-- `CAUSE` (R46) -/
  cause : BitVec 8
  /-- the Tx bit queue (R49) -/
  txq : Bits
  /-- the Tx remnant (R50) -/
  rem : Option Remnant
  /-- the next frame sequence number (R51) -/
  frameNo : BitVec 16
  /-- the id of the next encoded codeword (R51) -/
  nextCwId : BitVec 16
  /-- consecutive empty builds (R52) -/
  emptyCount : BitVec 16
  /-- the Tx header field set (R53) -/
  txh : Header
  /-- `TX_PBITS` (R54) -/
  txPbits : BitVec 16
  /-- the Rx header field set (R55) -/
  rxh : Header
  /-- `hdrValid` (R55) -/
  hdrValid : Bool
  /-- the Rx partial (R56) -/
  part : Option Partial
  /-- the Rx output bit queue (R57) -/
  rxq : Bits
  /-- the codeword report queue (R58) -/
  rep : List Report
  /-- `RXOUT` (R59) -/
  rxout : Word
  /-- `CWREP` (R60) -/
  cwrep : Word
  /-- `CWREP_NB` (R60) -/
  cwrepNb : Word
  /-- the four windows HDR_OUT, HDR_IN, PAYLOAD_OUT, RX_SOFT, as bytes of the host address space (R61, R81, R86, R87) -/
  mem : List Host.Cell
  /-- the host's accesses not yet taken, oldest first (R92; log 1) -/
  bus : List BusAccess
  /-- the value the last RD returned (R252; log 2) -/
  rdata : Word
  deriving DecidableEq, Repr

/-- `ResetState(params)` (R300), with no host access pending. -/
def State.resetWith (p : Params) : State where
  params := p
  scrEn := false
  failFlag := false
  mcsMod := p.initMod
  mcsFec := p.initFec
  flen := p.initFlen
  echoMod := 0
  echoFec := 0
  maxEmpty := p.initMaxEmpty
  floor := 1
  ie := 0
  err := 0
  cause := 0
  txq := []
  rem := none
  frameNo := 0
  nextCwId := 0
  emptyCount := 0
  txh := Header.zero
  txPbits := 0
  rxh := Header.zero
  hdrValid := false
  part := none
  rxq := []
  rep := []
  rxout := 0
  cwrep := 0
  cwrepNb := 0
  mem := []
  bus := []
  rdata := 0

/-- The machine right after construction (R300). The spec leaves the parameters open; this is configuration F of
95_test_vectors.md (DESIGN CHOICE, log 3). -/
def State.reset : State := State.resetWith Config.configF

end Sys2Proof.Machine
end

