-- ==== Sys2Proof/Machine/Ops.lean ====
section
/-!
DEFINITION. The named operations over memory, the recording of a cause with its clearing, and the taking of the host's
next access (R61, R82, R86, R87, R92, R255, R270 to R273).
-/

namespace Sys2Proof.Machine

/-! ## The windows as one memory of bytes

The four windows lie in the host address space (R81). Byte lane `i` of the word at `a` (its bits `8 i + 7 .. 8 i`) is
the cell of address `a + i`. For the sample windows that is R87; for the bit windows the lanes inside a word are the
model's own, since no access narrower than a word exists (R82, log 7). -/

/-- The memory: cells of strictly rising addresses, none holding what an unlisted address reads as. -/
abbrev Memory := List Host.Cell

/-- What an unlisted address reads as: every window element is 0 at reset (R61, R300). -/
def unlisted : Byte := 0

/-- The canonical form. -/
abbrev Memory.wf (m : Memory) : Prop :=
  m.Pairwise (fun c d => c.1 < d.1) ∧ ∀ c ∈ m, c.2 ≠ unlisted

/-- The byte at an address. -/
def readByte : Memory → Nat → Byte
  | [], _ => unlisted
  | (x, b) :: m, a => if x = a then b else readByte m a

/-- The cell of an address, if the byte is to be listed. -/
def cell (a : Nat) (b : Byte) : Memory := if b = unlisted then [] else [(a, b)]

/-- Store a byte. -/
def writeByte : Memory → Nat → Byte → Memory
  | [], a, b => cell a b
  | (x, c) :: m, a, b =>
    if a < x then cell a b ++ (x, c) :: m
    else if a = x then cell a b ++ m
    else (x, c) :: writeByte m a b

/-- The 32-bit word at `a` (R86, R87). -/
def readWord (m : Memory) (a : Nat) : Word :=
  readByte m (a + 3) ++ readByte m (a + 2) ++ readByte m (a + 1) ++ readByte m a

/-- Store a 32-bit word at `a`: its four lanes (R87, R254). -/
def writeWord (m : Memory) (a : Nat) (v : Word) : Memory :=
  writeByte (writeByte (writeByte (writeByte m a (v.extractLsb' 0 8)) (a + 1) (v.extractLsb' 8 8))
    (a + 2) (v.extractLsb' 16 8)) (a + 3) (v.extractLsb' 24 8)

/-- The cells of consecutive bytes from `a` on. -/
def cellsFrom : Nat → List Byte → Memory
  | _, [] => []
  | a, b :: bs => cell a b ++ cellsFrom (a + 1) bs

/-- Replace the whole window of `len` bytes at `base`: the given bytes, then zeros. -/
def replaceWindow (m : Memory) (base len : Nat) (bytes : List Byte) : Memory :=
  m.filter (fun c => decide (c.1 < base)) ++ cellsFrom base (bytes.take len) ++
    m.filter (fun c => decide (base + len ≤ c.1))

/-- Base address of HDR_OUT (R81). -/
def hdrOutBase : Nat := 0x100
/-- Base address of HDR_IN (R81). -/
def hdrInBase : Nat := 0x200
/-- Base address of PAYLOAD_OUT (R81). -/
def payloadOutBase : Nat := 0x1000
/-- Base address of RX_SOFT (R81). -/
def rxSoftBase : Nat := 0x8000

/-- The word of (at most) 32 stream bits, the earliest in bit 31, missing bits 0 (R86). -/
def bitsWord (s : Bits) : Word := BitVec.ofNat 32 (val (fitLen 32 s))

/-- The four lanes of a word, lowest first. -/
def lanes (v : Word) : List Byte :=
  [v.extractLsb' 0 8, v.extractLsb' 8 8, v.extractLsb' 16 8, v.extractLsb' 24 8]

/-- The bytes of a bit window that holds `s` from bit 0 on (R86): `fuel` words at most. -/
def bitWindowBytes : Nat → Bits → List Byte
  | 0, _ => []
  | _ + 1, [] => []
  | fuel + 1, b :: s => lanes (bitsWord ((b :: s).take 32)) ++ bitWindowBytes fuel ((b :: s).drop 32)

/-- Write `s` to the bit window at `base` of `size` bits, and 0 to its bits beyond `s` (R151, R182). -/
def writeBits (m : Memory) (base size : Nat) (s : Bits) : Memory :=
  replaceWindow m base (size / 8) (bitWindowBytes (size / 32) s)

/-- Bit `j` of the bit window at `base` (R86). -/
def readBit (m : Memory) (base j : Nat) : Bool := (readWord m (base + 4 * (j / 32))).getLsbD (31 - j % 32)

/-- Sample `j` of the sample window at `base` (R87). -/
def readSample (m : Memory) (base j : Nat) : Sample := readByte m (base + j)

/-- Samples `0 .. count − 1` of the sample window at `base`. -/
def readSamples (m : Memory) (base count : Nat) : List Sample := (List.range count).map (readSample m base)

/-! ## Recording a cause -/

/-- The code of a cause (R271). -/
def causeCode : Cause → Nat
  | .cmdIllegal => 1
  | .cmdUnsupported => 2
  | .cmdArg => 3
  | .cfgReject => 4
  | .txqOvf => 5
  | .rxqOvf => 6
  | .hdrCrc => 7
  | .hdrNovalid => 8
  | .hdrBadfield => 9
  | .cwFail => 10
  | .cwLost => 11
  | .bus => 12

/-- `raise c` (R272): `ERR[c] <- 1`, `CAUSE <- c`, and the block continues. This is all an exception does here: no
state is saved, no mode changes, nothing is entered (R270, R278). As the last act of a command whose state it is given
unchanged, it is `refuse c` (R273). -/
def raise (c : Cause) (s : State) : State :=
  { s with err := s.err ||| ((1 : Word) <<< causeCode c), cause := BitVec.ofNat 8 (causeCode c) }

/-- `for c in causes: raise c`, in order (R218, R277). -/
def raiseAll (cs : List Cause) (s : State) : State := cs.foldl (fun t c => raise c t) s

/-- The implemented bits of ERR: 1..12 (R45). -/
def errMask : Word := 0x00001FFE

/-- The "return" from a cause (R279): write-one-to-clear of ERR; CAUSE is not changed (R255). -/
def clearErr (v : Word) (s : State) : State := { s with err := s.err &&& ~~~(v &&& errMask) }

/-! ## The host port -/

/-- The host's next access, and the state with it taken from the port; `none` when the host has issued none
(R92, R286; log 1). -/
def takeAccess (s : State) : Option (BusAccess × State) :=
  match s.bus with
  | [] => none
  | t :: rest => some (t, { s with bus := rest })

end Sys2Proof.Machine
end

