-- ==== Sys2Proof/Machine/Control.lean ====
section
/-!
DEFINITION. The control commands NOP and SOFT_RESET (R250, R251).
-/

namespace Sys2Proof.Machine

/-- NOP (R250). -/
def execNop (s : State) : Host.Outcome State Fault Refusal := .next s

/-- SOFT_RESET (R251, R300, R301): every piece of the block's state returns to its reset value; the parameters stay.
What the host has issued and read is the host's and stays too (log 11). -/
def execSoftReset (s : State) : Host.Outcome State Fault Refusal :=
  .next { State.resetWith s.params with bus := s.bus, rdata := s.rdata }

end Sys2Proof.Machine
end

