-- ==== Sys2Proof/Machine/Flags.lean ====
section
/-!
DEFINITION. The status bits, computed from state (R44, R190, R275).
-/

namespace Sys2Proof.Machine

/-- `STATUS.STOP = (MAXEMPTY ≠ 0xFFFF) ∧ (emptyCount > MAXEMPTY)` (R44, R190). -/
def stopSignal (s : State) : Bool := s.maxEmpty != 0xFFFF && decide (s.maxEmpty.toNat < s.emptyCount.toNat)

/-- `STATUS.REM_PEND` (R44). -/
def remPend (s : State) : Bool := s.rem.isSome

/-- `STATUS.RXPART_PEND` (R44). -/
def rxPartPend (s : State) : Bool := s.part.isSome

/-- The interrupt line (R275): the OR of the enabled causes 1..12, or STOP where `IE[16]` enables it. -/
def irqLine (s : State) : Bool := (s.err &&& s.ie &&& errMask) != 0 || (stopSignal s && s.ie.getLsbD 16)

/-- STATUS (R44): bit 0 STOP, 1 REM_PEND, 2 RXPART_PEND, 3 HDR_VALID, 4 IRQ, the rest 0. -/
def statusWord (s : State) : Word :=
  (0 : BitVec 27) ++ BitVec.ofBool (irqLine s) ++ BitVec.ofBool s.hdrValid ++ BitVec.ofBool (rxPartPend s) ++
    BitVec.ofBool (remPend s) ++ BitVec.ofBool (stopSignal s)

/-- A build is empty when, at its start, the queue holds fewer than FLOOR bits (R190). -/
def buildIsEmpty (s : State) : Bool := decide (s.txq.length < s.floor.toNat)

/-- `emptyCount` after a build (R190): saturating count of empty builds, 0 after any other. -/
def nextEmptyCount (s : State) : BitVec 16 :=
  if buildIsEmpty s then BitVec.ofNat 16 (min (s.emptyCount.toNat + 1) 0xFFFF) else 0

end Sys2Proof.Machine
end

