-- ==== Sys2Proof/Machine/Codec.lean ====
section
/-!
DEFINITION. The codec of a code: `Encode` and `Decode` as total functions (R9), from the parameters' circuits (log 4).
-/

namespace Sys2Proof.Machine

/-- The bit a circuit computes from its input string (an input beyond the string reads 0). -/
def evalExpr (x : Bits) : BitExpr → Bool
  | .const b => b
  | .input i => x.getD i false
  | .not e => !evalExpr x e
  | .xor e f => evalExpr x e ^^ evalExpr x f
  | .and e f => evalExpr x e && evalExpr x f

/-- The bits of a sample string, sample by sample, bit 0 first: the input of the decoding circuits. -/
def sampleBits (y : List Sample) : Bits := y.flatMap fun v => (List.range 8).map v.getLsbD

/-- `Encode_c : bits(k) → bits(n)` (R9). -/
def encodeWord (c : Code) (x : Bits) : Bits := fitLen c.n (c.enc.map (evalExpr x))

/-- `Decode_c : samples(n) → (ok, info : bits(k))` (R9). -/
def decodeWord (c : Code) (y : List Sample) : Bool × Bits :=
  let x := sampleBits y
  (evalExpr x c.decOk, fitLen c.k (c.decInfo.map (evalExpr x)))

/-- All bit strings of length `m`. -/
def allBits : Nat → List Bits
  | 0 => [[]]
  | m + 1 => (allBits m).flatMap fun x => [false :: x, true :: x]

/-- The codec contract (R9): for every `x`, noiseless decoding of `Encode(x)` returns `(1, x)`. -/
def codecContract (c : Code) : Bool :=
  (allBits c.k).all fun x => decodeWord c ((encodeWord c x).map softIdeal) == (true, x)

end Sys2Proof.Machine
end

