-- ==== Sys2Proof/Machine/Params.lean ====
section
/-!
DEFINITION. What the construction parameters determine: header length, code table, header layout, legality of
register values (R7 to R10, R34, R38, R39, R141), and construction itself (R8, R300).
-/

namespace Sys2Proof.Machine

/-- `HS`: header OFDM symbols (R4, R7). -/
def headerSymbols (p : Params) : Nat := if p.fecEn then 2 else 1

/-- `HB = HC × HS`: the header length in bits (R7, R140). -/
def headerLen (p : Params) : Nat := p.hc * headerSymbols p

/-- `bps(m)`, the bits per symbol of a modulation id (R10; the counts are the spec's general knowledge, log 12);
`none` for an id that names no scheme. -/
def bps? (m : BitVec 4) : Option Nat :=
  match m.toNat with
  | 1 => some 1
  | 2 => some 2
  | 3 => some 3
  | 4 => some 4
  | _ => none

/-- `CODES(id)` (R7, R9): `none` outside its domain. -/
def code? (p : Params) (id : BitVec 4) : Option Code := p.codes.find? fun c => c.id == id

/-- `Layout(FEC_EN)`: the header fields of the link kind, in order, with their widths (R141). -/
def layout (p : Params) : List (HdrField × Nat) :=
  [(.plen, p.wPlen), (.seq, p.wSeq), (.mod, Config.wMod), (.fec, Config.wMod), (.flen, p.wFlen)] ++
  if p.fecEn then
    [(.cwid, p.wCwid), (.off, p.wOff), (.short, p.wShort), (.emod, Config.wMod), (.efec, Config.wMod)]
  else []

/-- The sum of the layout's field widths (R8, R141). -/
def layoutWidth (p : Params) : Nat := ((layout p).map (·.2)).sum

/-- A value of MCS is legal (R38). -/
def legalMcs (p : Params) (mod fec : BitVec 4) : Bool :=
  (bps? mod).isSome && if p.fecEn then (code? p fec).isSome else fec == 0

/-- A value of FLEN is legal (R39). -/
def legalFlen (p : Params) (l : BitVec 16) : Bool :=
  decide (1 ≤ l.toNat) && decide (l.toNat ≤ 2 ^ p.wFlen - 1) && decide (l.toNat * p.nc ≤ 2 ^ p.wPlen - 1) &&
    decide (l.toNat * p.nc * 4 ≤ Config.pmaxBits)

/-- A code satisfies R9: its sizes, and the codec contract. -/
def legalCode (p : Params) (c : Code) : Bool :=
  decide (1 ≤ c.k) && decide (c.k ≤ c.n) && decide (c.n ≤ 2 ^ p.wOff) && decide (c.k ≤ 2 ^ p.wShort) && codecContract c

/-- `CODES` is a partial map from ids 1..15 (R7). -/
def legalIds (ids : List (BitVec 4)) : Bool := ids.all (· != 0) && decide ids.Nodup

/-- A width of 1..16 (R7, R8). -/
def legalWidth (w : Nat) : Bool := decide (1 ≤ w) && decide (w ≤ 16)

/-- The parameter set is well-formed: the conditions of R8, with the domains that R7 gives the parameters (log 9). -/
def paramsWf (p : Params) : Bool :=
  decide (1 ≤ p.nc) && decide (p.nc ≤ 8192) && decide (1 ≤ p.hc) && decide (p.hc ≤ 128) &&
  decide (headerLen p ≤ Config.hbMax) && decide (Config.wCrc + layoutWidth p ≤ headerLen p) &&
  legalWidth p.wPlen && legalWidth p.wSeq && legalWidth p.wFlen &&
  legalWidth p.wCwid && legalWidth p.wOff && legalWidth p.wShort &&
  p.scrSeed != 0 && decide (8 ≤ p.txqCap) && decide (8 ≤ p.rxqCap) && decide (1 ≤ p.cwrepCap) &&
  legalIds (p.codes.map (·.id)) && (!p.fecEn || p.codes.all (legalCode p)) &&
  legalMcs p p.initMod p.initFec && legalFlen p p.initFlen

/-- Construction (R8, R300): a well-formed parameter set gives the reset state; for any other the block has no reset
state and refuses to exist. -/
def State.construct (p : Params) : Except Fault State :=
  if paramsWf p then .ok (State.resetWith p) else .error .malformedConfiguration

end Sys2Proof.Machine
end

