-- ==== Sys2Proof/Machine/Operands.lean ====
section
/-!
DEFINITION. The operand forms: the CNT and DATA fields of a command (R111, R112), and the address, size and target of a
bus access (R80 to R84).
-/

namespace Sys2Proof.Machine

/-- `CNT` is legal in 1..8 (R112). -/
def cntLegal (cnt : BitVec 4) : Bool := decide (1 ≤ cnt.toNat) && decide (cnt.toNat ≤ 8)

/-- `DATA[7], DATA[6], …, DATA[8 − CNT]` (R112, R181). -/
def pushBits (data : BitVec 8) (cnt : BitVec 4) : Bits := (bin 8 data.toNat).take cnt.toNat

/-- The registers of R81. -/
inductive Reg where
  | id | caps | ctrl | mcs | flen | echo | maxEmpty | floor | ie | status | err | cause | cmd
  | txqLevel | rxqLevel | cwrepLevel | frameNo | nextCw | emptyCnt | txPbits
  | txhLen | txhSeq | txhScheme | txhCw | txhOffsh
  | rxhLen | rxhSeq | rxhScheme | rxhCw | rxhOffsh
  | rxout | cwrep | cwrepNb
  deriving DecidableEq, Repr

/-- What a mapped address belongs to (R81). -/
inductive Place where
  | reg (r : Reg)
  | hdrOut
  | hdrIn
  | payloadOut
  | rxSoft
  deriving DecidableEq, Repr

/-- The access column of R81. -/
inductive Access where
  | ro
  | rw
  | rw1c
  | wo
  deriving DecidableEq, Repr

/-- The register rows of R81. -/
def regMap : List (Nat × Reg) :=
  [ (0x000, .id), (0x004, .caps), (0x008, .ctrl), (0x00C, .mcs), (0x010, .flen), (0x014, .echo),
    (0x018, .maxEmpty), (0x01C, .floor), (0x020, .ie), (0x024, .status), (0x028, .err), (0x02C, .cause),
    (0x030, .cmd), (0x034, .txqLevel), (0x038, .rxqLevel), (0x03C, .cwrepLevel), (0x040, .frameNo),
    (0x044, .nextCw), (0x048, .emptyCnt), (0x04C, .txPbits), (0x050, .txhLen), (0x054, .txhSeq),
    (0x058, .txhScheme), (0x05C, .txhCw), (0x060, .txhOffsh), (0x070, .rxhLen), (0x074, .rxhSeq),
    (0x078, .rxhScheme), (0x07C, .rxhCw), (0x080, .rxhOffsh), (0x084, .rxout), (0x088, .cwrep),
    (0x08C, .cwrepNb) ]

/-- The host space map (R81) for a word address; `none` where it is unmapped. -/
def place? (a : Nat) : Option Place :=
  match regMap.lookup a with
  | some r => some (.reg r)
  | none =>
    if 0x100 ≤ a ∧ a ≤ 0x11F then some .hdrOut
    else if 0x200 ≤ a ∧ a ≤ 0x2FF then some .hdrIn
    else if 0x1000 ≤ a ∧ a ≤ 0x1FFF then some .payloadOut
    else if 0x8000 ≤ a ∧ a ≤ 0xFFFF then some .rxSoft
    else none

/-- The access kind of a register (R81). -/
def regAccess : Reg → Access
  | .id => .ro
  | .caps => .ro
  | .ctrl => .rw
  | .mcs => .rw
  | .flen => .rw
  | .echo => .rw
  | .maxEmpty => .rw
  | .floor => .rw
  | .ie => .rw
  | .status => .ro
  | .err => .rw1c
  | .cause => .ro
  | .cmd => .wo
  | .txqLevel => .ro
  | .rxqLevel => .ro
  | .cwrepLevel => .ro
  | .frameNo => .ro
  | .nextCw => .ro
  | .emptyCnt => .ro
  | .txPbits => .ro
  | .txhLen => .rw
  | .txhSeq => .rw
  | .txhScheme => .rw
  | .txhCw => .rw
  | .txhOffsh => .rw
  | .rxhLen => .ro
  | .rxhSeq => .ro
  | .rxhScheme => .ro
  | .rxhCw => .ro
  | .rxhOffsh => .ro
  | .rxout => .ro
  | .cwrep => .ro
  | .cwrepNb => .ro

/-- The access kind of a place (R81). -/
def placeAccess : Place → Access
  | .reg r => regAccess r
  | .hdrOut => .ro
  | .hdrIn => .rw
  | .payloadOut => .ro
  | .rxSoft => .rw

/-- What an access reaches: `none` for a bad access (R82, R83: a size other than 4 bytes, an address that is not a
multiple of 4, an unmapped address). -/
def target? (a : BitVec 16) (size : Nat) : Option Place :=
  if size = 4 ∧ a.toNat % 4 = 0 then place? a.toNat else none

end Sys2Proof.Machine
end

