-- ==== Sys2Proof/Machine/Header.lean ====
section
/-!
DEFINITION. The frame header codec (R140 to R152): CRC, scrambler, header functions, and HDR_BUILD and HDR_PARSE.
-/

namespace Sys2Proof.Machine

/-- The value of a header field. -/
def Header.get (h : Header) : HdrField → Nat
  | .plen => h.plen.toNat
  | .seq => h.seq.toNat
  | .mod => h.mod.toNat
  | .fec => h.fec.toNat
  | .flen => h.flen.toNat
  | .cwid => h.cwid.toNat
  | .off => h.off.toNat
  | .short => h.short.toNat
  | .emod => h.emod.toNat
  | .efec => h.efec.toNat

/-- `f.name <- v` (R149). -/
def Header.set (h : Header) (f : HdrField) (v : Nat) : Header :=
  match f with
  | .plen => { h with plen := BitVec.ofNat 16 v }
  | .seq => { h with seq := BitVec.ofNat 16 v }
  | .mod => { h with mod := BitVec.ofNat 4 v }
  | .fec => { h with fec := BitVec.ofNat 4 v }
  | .flen => { h with flen := BitVec.ofNat 16 v }
  | .cwid => { h with cwid := BitVec.ofNat 16 v }
  | .off => { h with off := BitVec.ofNat 16 v }
  | .short => { h with short := BitVec.ofNat 16 v }
  | .emod => { h with emod := BitVec.ofNat 4 v }
  | .efec => { h with efec := BitVec.ofNat 4 v }

/-- One bit of `CRC8` (R144): generator `x^8 + x^2 + x + 1`, most significant bit first. -/
def crcStep (reg : BitVec 8) (b : Bool) : BitVec 8 :=
  if reg.getLsbD 7 ^^ b then (reg <<< 1) ^^^ 0x07 else reg <<< 1

/-- `CRC8(s)` (R144): initial value 0, no reflection, no final XOR. -/
def crc8 (s : Bits) : BitVec 8 := s.foldl crcStep 0

/-- `Scramble(seed, s)` (R146): the additive scrambler `x^7 + x^4 + 1` with its register at `r`. -/
def scramble : BitVec 7 → Bits → Bits
  | _, [] => []
  | r, b :: s =>
    let fb := r.getLsbD 6 ^^ r.getLsbD 3
    (b ^^ fb) :: scramble ((r <<< 1) ||| (BitVec.ofBool fb).setWidth 7) s

/-- The seed of a header (R147): `SCR_SEED` when `CTRL.SCR_EN = 1`, else 0. -/
def headerSeed (s : State) : BitVec 7 := if s.scrEn then s.params.scrSeed else 0

/-- The body of a header (R141, R148): the fields of the layout, then reserved zeros, `HB − 8` bits. -/
def headerBody (p : Params) (f : Header) : Bits :=
  let fields := (layout p).flatMap fun l => bin l.2 (f.get l.1)
  fields ++ zeros (headerLen p - Config.wCrc - fields.length)

/-- The header before scrambling: the body, then its CRC (R145). -/
def plainHeader (p : Params) (f : Header) : Bits :=
  headerBody p f ++ bin Config.wCrc (crc8 (headerBody p f)).toNat

/-- `HeaderBits(f)` (R148). -/
def headerBits (p : Params) (seed : BitVec 7) (f : Header) : Bits := scramble seed (plainHeader p f)

/-- Read the fields of a layout from the front of a bit string (R149). -/
def parseFields : List (HdrField × Nat) → Bits → Header → Header
  | [], _, h => h
  | (f, w) :: ls, d, h => parseFields ls (d.drop w) (h.set f (val (d.take w)))

/-- `HeaderParse(x)` (R149): `none` when the CRC check fails; fields outside the layout are 0. -/
def headerParse (p : Params) (seed : BitVec 7) (x : List Sample) : Option Header :=
  let d := scramble seed (x.map hard)
  let body := d.take (headerLen p - Config.wCrc)
  if val (d.drop (headerLen p - Config.wCrc)) = (crc8 body).toNat then some (parseFields (layout p) body Header.zero)
  else none

/-- Every field of the link's layout fits its width (R151). -/
def headerFits (p : Params) (f : Header) : Bool := (layout p).all fun l => decide (f.get l.1 < 2 ^ l.2)

/-- Write a header to HDR_OUT: its bits, and 0 from bit `HB` on (R151, R182). -/
def writeHdrOut (m : Memory) (h : Bits) : Memory := writeBits m hdrOutBase Config.hbMax h

/-- HDR_BUILD (R151). -/
def execHdrBuild (s : State) : Host.Outcome State Fault Refusal :=
  if headerFits s.params s.txh then
    .next { s with mem := writeHdrOut s.mem (headerBits s.params (headerSeed s) s.txh) }
  else .next (raise .cmdArg s)

/-- The received header samples `HDR_IN⟨0 .. HB−1⟩` (R152). -/
def hdrInSamples (s : State) : List Sample := readSamples s.mem hdrInBase (headerLen s.params)

/-- HDR_PARSE (R152). -/
def execHdrParse (s : State) : Host.Outcome State Fault Refusal :=
  match headerParse s.params (headerSeed s) (hdrInSamples s) with
  | none => .next (raise .hdrCrc { s with hdrValid := false })
  | some h => .next { s with rxh := h, hdrValid := true }

end Sys2Proof.Machine
end

