-- ==== Sys2Proof/Machine/FecRx.lean ====
section
/-!
DEFINITION. The FEC deframer, receive side (R210 to R221): RX_FRAME, RX_POP and CWREP_POP.
-/

namespace Sys2Proof.Machine

/-- The header range checks of R211: the bits per symbol and the code of the frame, or `none` when a check fails. -/
def rangeCheck (p : Params) (h : Header) : Option (Nat × Code) :=
  match bps? h.mod, code? p h.fec with
  | some b, some c =>
    if 1 ≤ h.flen.toNat ∧ h.plen.toNat ≤ h.flen.toNat * p.nc ∧ h.plen.toNat * b ≤ Config.pmaxBits ∧
        h.off.toNat < c.n ∧ h.short.toNat < c.k then some (b, c)
    else none
  | _, _ => none

/-- The results of a deframing before they are committed (R217): output bits, reports, causes, and the partial. -/
structure RxAcc where
  out : Bits
  reps : List Report
  causes : List Cause
  part : Option Partial
  deriving DecidableEq, Repr

/-- Decode a complete codeword with shortening `s` (R215): report and, by the policy, its data. -/
def decodeInto (failFlag : Bool) (c : Code) (id : BitVec 16) (y : List Sample) (s : Nat) (a : RxAcc) : RxAcc :=
  let r := decodeWord c y
  let data := r.2.take (c.k - s)
  if r.1 then { a with out := a.out ++ data, reps := a.reps ++ [⟨id, .ok, field 16 (c.k - s)⟩] }
  else if failFlag then
    { a with
      out := a.out ++ data
      reps := a.reps ++ [⟨id, .failFlagged, field 16 (c.k - s)⟩]
      causes := a.causes ++ [.cwFail] }
  else { a with reps := a.reps ++ [⟨id, .failDropped, 0⟩], causes := a.causes ++ [.cwFail] }

/-- Report a codeword lost (R216). -/
def reportLost (id : BitVec 16) (a : RxAcc) : RxAcc :=
  { a with reps := a.reps ++ [⟨id, .lost, 0⟩], causes := a.causes ++ [.cwLost] }

/-- The frame's first samples continue the partial (R212): same id, same code, and it ends where they begin. -/
def matchesPartial (h : Header) (q : Partial) : Bool :=
  q.id == h.cwid && q.fec == h.fec && decide (q.y.length = h.off.toNat)

/-- The leading codeword of a frame with `OFF > 0` (R212): `t` samples of it are here, `need` are missing. -/
def continueCodeword (failFlag : Bool) (c : Code) (h : Header) (y : List Sample) (a : RxAcc) : RxAcc :=
  let need := c.n - h.off.toNat
  let t := min need y.length
  let lostHere (a : RxAcc) : RxAcc := if t = need then reportLost h.cwid a else a
  match a.part with
  | none => lostHere a
  | some q =>
    if matchesPartial h q then
      let q' := { q with y := q.y ++ y.take t }
      if t = need then decodeInto failFlag c q'.id q'.y q'.short { a with part := none }
      else { a with part := some q' }
    else lostHere { (if q.id = h.cwid then a else reportLost q.id a) with part := none }

/-- The leading part of a frame with `OFF = 0` (R212): a pending partial is lost. -/
def dropPartial (a : RxAcc) : RxAcc :=
  match a.part with
  | none => a
  | some q => { reportLost q.id a with part := none }

/-- The starts and lengths of the new codewords from position `pos` on (R213): while at least `b` samples are left.
Each takes at least one sample, so `total` is fuel enough. With R182's loop and R189's `PLEN` this rule
denies R221 for codes with `n < b` (log 14): the model follows these three. -/
def codewordStarts (n b total : Nat) : Nat → Nat → List (Nat × Nat)
  | 0, _ => []
  | fuel + 1, pos =>
    if b ≤ total - pos then
      (pos, min n (total - pos)) :: codewordStarts n b total fuel (pos + min n (total - pos))
    else []

/-- The new codewords of a frame (R213, R214): the last one that begins takes the header's `SHORT`. -/
def newCodewords (p : Params) (failFlag : Bool) (c : Code) (h : Header) (y : List Sample) :
    List (Nat × Nat) → BitVec 16 → RxAcc → RxAcc
  | [], _, a => a
  | (q, ln) :: rest, id, a =>
    let s := if rest.isEmpty then h.short.toNat else 0
    let ys := (y.drop q).take ln
    newCodewords p failFlag c h y rest (incMod p.wCwid id)
      (if ln = c.n then decodeInto failFlag c id ys s a
       else { a with part := some { id := id, fec := h.fec, y := ys, short := s } })

/-- The samples of the frame: `RX_SOFT⟨0 .. PLEN × bps − 1⟩` (R210). -/
def frameSamples (s : State) (b : Nat) : List Sample := readSamples s.mem rxSoftBase (s.rxh.plen.toNat * b)

/-- Everything RX_FRAME computes from the header, the samples and the partial (R212 to R216, R218). -/
def deframe (s : State) (b : Nat) (c : Code) : RxAcc :=
  let h := s.rxh
  let y := frameSamples s b
  let a : RxAcc := { out := [], reps := [], causes := [], part := s.part }
  if 0 < h.off.toNat then
    let pos := min (c.n - h.off.toNat) y.length
    newCodewords s.params s.failFlag c h y (codewordStarts c.n b y.length y.length pos)
      (incMod s.params.wCwid h.cwid) (continueCodeword s.failFlag c h y a)
  else
    newCodewords s.params s.failFlag c h y (codewordStarts c.n b y.length y.length 0) h.cwid (dropPartial a)

/-- Commit the results, all or nothing (R217, R218): the causes are raised in the order of their reports (R277). -/
def commitFrame (s : State) (a : RxAcc) : State :=
  if s.params.rxqCap < s.rxq.length + a.out.length ∨ s.params.cwrepCap < s.rep.length + a.reps.length then
    raise .rxqOvf s
  else
    raiseAll a.causes
      { s with rxq := s.rxq ++ a.out, rep := s.rep ++ a.reps, part := a.part, hdrValid := false }

/-- RX_FRAME (R218). -/
def execRxFrame (s : State) : Host.Outcome State Fault Refusal :=
  if !s.params.fecEn then .next (raise .cmdUnsupported s)
  else if !s.hdrValid then .next (raise .hdrNovalid s)
  else
    match rangeCheck s.params s.rxh with
    | none => .next (raise .hdrBadfield { s with hdrValid := false })
    | some (b, c) => .next (commitFrame s (deframe s b c))

/-- The value of RXOUT for the popped bits `g` (R59, R219): left-aligned in `[7:0]`, their number in `[11:8]`. -/
def rxoutWord (g : Bits) : Word := BitVec.ofNat 32 (val (fitLen 8 g) + g.length * 256)

/-- RX_POP (R219). -/
def execRxPop (cnt : BitVec 4) (s : State) : Host.Outcome State Fault Refusal :=
  if !s.params.fecEn then .next (raise .cmdUnsupported s)
  else if !cntLegal cnt then .next (raise .cmdArg s)
  else .next { s with rxout := rxoutWord (s.rxq.take cnt.toNat), rxq := s.rxq.drop cnt.toNat }

/-- The code of a report status (R58). -/
def statusCode : ReportStatus → BitVec 2
  | .ok => 0
  | .failDropped => 1
  | .failFlagged => 2
  | .lost => 3

/-- The value of CWREP for a popped report (R60, R220): id, status, VALID. -/
def cwrepWord (e : Report) : Word := (1 : BitVec 13) ++ (0 : BitVec 1) ++ statusCode e.status ++ e.id

/-- CWREP_POP (R220). -/
def execCwrepPop (s : State) : Host.Outcome State Fault Refusal :=
  if !s.params.fecEn then .next (raise .cmdUnsupported s)
  else
    match s.rep with
    | [] => .next { s with cwrep := 0, cwrepNb := 0 }
    | e :: rest => .next { s with cwrep := cwrepWord e, cwrepNb := e.nbits.setWidth 32, rep := rest }

end Sys2Proof.Machine
end

