-- ==== Sys2Proof/Machine/FecTx.lean ====
section
/-!
DEFINITION. The FEC frame buffer, transmit side (R180 to R191): TX_PUSH and TX_BUILD.
-/

namespace Sys2Proof.Machine

/-- TX_PUSH (R181). -/
def execTxPush (data : BitVec 8) (cnt : BitVec 4) (s : State) : Host.Outcome State Fault Refusal :=
  if !s.params.fecEn then .next (raise .cmdUnsupported s)
  else if !cntLegal cnt then .next (raise .cmdArg s)
  else if s.params.txqCap < s.txq.length + cnt.toNat then .next (raise .txqOvf s)
  else .next { s with txq := s.txq ++ pushBits data cnt }

/-- What a build has placed so far: the payload bits `out`, and the Tx state it has changed. -/
structure BuildAcc where
  out : Bits
  txq : Bits
  nextCwId : BitVec 16
  rem : Option Remnant
  short : Nat
  deriving DecidableEq, Repr

/-- `a` after the remnant's part of a frame of `cap` bits (R185). -/
def placeRemnant (cap : Nat) (a : BuildAcc) : BuildAcc :=
  match a.rem with
  | none => a
  | some r =>
    let t := min r.bits.length cap
    let left := r.bits.drop t
    { a with
      out := r.bits.take t
      rem := if left.isEmpty then none else some { r with bits := left, off := r.off + t } }

/-- `a` after one new codeword of code `c` in a frame of `cap` bits (R186, and the split of R182). -/
def placeCodeword (p : Params) (c : Code) (cap : Nat) (a : BuildAcc) : BuildAcc :=
  let s := c.k - a.txq.length
  let cw := encodeWord c (a.txq.take c.k ++ zeros s)
  let space := cap - a.out.length
  { out := a.out ++ cw.take space
    txq := a.txq.drop c.k
    nextCwId := incMod p.wCwid a.nextCwId
    rem := if c.n ≤ space then a.rem
           else some { id := a.nextCwId, fec := c.id, bits := cw.drop space, off := space }
    short := s }

/-- The loop of R182 with the begin rule R187: new codewords while at least `b` bits of capacity are left and the
queue is not empty. Each codeword takes at least one bit of the queue, so its length is fuel enough. Where `n < b` the
loop may encode more than the `ceil_div(C, b)` codewords that R182's corner case bounds it by: the model follows the
pseudocode (DESIGN CHOICE, log 15). -/
def placeCodewords (p : Params) (c : Code) (b cap : Nat) : Nat → BuildAcc → BuildAcc
  | 0, a => a
  | fuel + 1, a =>
    if b ≤ cap - a.out.length ∧ 0 < a.txq.length then placeCodewords p c b cap fuel (placeCodeword p c cap a) else a

/-- The code id of the frame (R184, R188): the remnant's, else `MCS.FEC`. -/
def frameCode (s : State) : BitVec 4 :=
  match s.rem with
  | some r => r.fec
  | none => s.mcsFec

/-- `CWID` and `OFF` of the frame's leading codeword (R184). -/
def leadingCodeword (s : State) : BitVec 16 × Nat :=
  match s.rem with
  | some r => (r.id, r.off)
  | none => (s.nextCwId, 0)

/-- Frame capacity `C = L × NC × bps(MOD)` (R183). -/
def frameCapacity (s : State) (b : Nat) : Nat := s.flen.toNat * s.params.nc * b

/-- The payload of a build and the Tx state after it (R182, R185 to R188): the remnant first; new codewords only when
no remnant is left and the frame's code is `MCS.FEC`. -/
def buildPayload (s : State) (b : Nat) (c : Code) : BuildAcc :=
  let cap := frameCapacity s b
  let a := placeRemnant cap { out := [], txq := s.txq, nextCwId := s.nextCwId, rem := s.rem, short := 0 }
  if a.rem = none ∧ frameCode s = s.mcsFec then placeCodewords s.params c b cap s.txq.length a else a

/-- The header field set of a build (R141, R182). -/
def buildHeader (s : State) (b : Nat) (a : BuildAcc) : Header where
  plen := BitVec.ofNat 16 (ceilDiv a.out.length b)
  flen := s.flen
  seq := s.frameNo
  mod := s.mcsMod
  fec := frameCode s
  emod := s.echoMod
  efec := s.echoFec
  cwid := (leadingCodeword s).1
  off := BitVec.ofNat 16 (leadingCodeword s).2
  short := BitVec.ofNat 16 a.short

/-- The payload as sent: the codeword bits and zero fill up to `P × bps` bits (R189). -/
def payloadBits (b : Nat) (out : Bits) : Bits := fitLen (ceilDiv out.length b * b) out

/-- The frame of TX_BUILD for the modulation's `b` bits per symbol and the frame's code (R182). -/
def buildFrame (s : State) (b : Nat) (c : Code) : State :=
  let a := buildPayload s b c
  let h := buildHeader s b a
  { s with
    txh := h
    mem := writeBits (writeHdrOut s.mem (headerBits s.params (headerSeed s) h)) payloadOutBase Config.pmaxBits
      (payloadBits b a.out)
    txPbits := BitVec.ofNat 16 (ceilDiv a.out.length b * b)
    txq := a.txq
    rem := a.rem
    nextCwId := a.nextCwId
    frameNo := incMod s.params.wSeq s.frameNo
    emptyCount := nextEmptyCount s }

/-- TX_BUILD (R182). Where MCS names no modulation, or no code is named for the frame, the state is one that no run
reaches (R38, R50), and the model stops (log 6). -/
def execTxBuild (s : State) : Host.Outcome State Fault Refusal :=
  if !s.params.fecEn then .next (raise .cmdUnsupported s)
  else
    match bps? s.mcsMod, code? s.params (frameCode s) with
    | some b, some c => .next (buildFrame s b c)
    | _, _ => .fault .undefinedScheme

end Sys2Proof.Machine
end

