-- ==== Sys2Proof/Machine/HostBus.lean ====
section
/-!
DEFINITION. The host's bus accesses RD and WR (R252 to R256): register values, write effects, command dispatch.
-/

namespace Sys2Proof.Machine

/-- CAPS (R34): `[0]` FEC_EN, `[2:1]` HS, `[11:3]` HB, `[25:12]` NC. -/
def capsWord (p : Params) : Word :=
  (0 : BitVec 6) ++ BitVec.ofNat 14 p.nc ++ BitVec.ofNat 9 (headerLen p) ++ BitVec.ofNat 2 (headerSymbols p) ++
    BitVec.ofBool p.fecEn

/-- The `_LEN` register of a header field set: `[15:0]` PLEN, `[31:16]` FLEN (R53, R55). -/
def headerLenWord (h : Header) : Word := h.flen ++ h.plen
/-- The `_SCHEME` register: `[3:0]` MOD, `[7:4]` FEC, `[11:8]` EMOD, `[15:12]` EFEC (R53, R55). -/
def headerSchemeWord (h : Header) : Word := (0 : BitVec 16) ++ h.efec ++ h.emod ++ h.fec ++ h.mod
/-- The `_OFFSH` register: `[15:0]` OFF, `[31:16]` SHORT (R53, R55). -/
def headerOffshWord (h : Header) : Word := h.short ++ h.off

/-- `Reg(a)`: the value a read of a register returns, reserved bits 0 (R33 to R60, R84, R85, R252). -/
def regValue (s : State) : Reg → Word
  | .id => 0x44544C01
  | .caps => capsWord s.params
  | .ctrl => (0 : BitVec 30) ++ BitVec.ofBool s.failFlag ++ BitVec.ofBool s.scrEn
  | .mcs => (0 : BitVec 24) ++ s.mcsFec ++ s.mcsMod
  | .flen => s.flen.setWidth 32
  | .echo => (0 : BitVec 24) ++ s.echoFec ++ s.echoMod
  | .maxEmpty => s.maxEmpty.setWidth 32
  | .floor => s.floor.setWidth 32
  | .ie => s.ie
  | .status => statusWord s
  | .err => s.err
  | .cause => s.cause.setWidth 32
  | .cmd => 0
  | .txqLevel => field 32 s.txq.length
  | .rxqLevel => field 32 s.rxq.length
  | .cwrepLevel => field 32 s.rep.length
  | .frameNo => s.frameNo.setWidth 32
  | .nextCw => s.nextCwId.setWidth 32
  | .emptyCnt => s.emptyCount.setWidth 32
  | .txPbits => s.txPbits.setWidth 32
  | .txhLen => headerLenWord s.txh
  | .txhSeq => s.txh.seq.setWidth 32
  | .txhScheme => headerSchemeWord s.txh
  | .txhCw => s.txh.cwid.setWidth 32
  | .txhOffsh => headerOffshWord s.txh
  | .rxhLen => headerLenWord s.rxh
  | .rxhSeq => s.rxh.seq.setWidth 32
  | .rxhScheme => headerSchemeWord s.rxh
  | .rxhCw => s.rxh.cwid.setWidth 32
  | .rxhOffsh => headerOffshWord s.rxh
  | .rxout => s.rxout
  | .cwrep => s.cwrep
  | .cwrepNb => s.cwrepNb

/-- The value a read of a mapped address returns: a register's value, or the word of a window (R86, R87). -/
def readValue (s : State) (pl : Place) (a : BitVec 16) : Word :=
  match pl with
  | .reg r => regValue s r
  | .hdrOut => readWord s.mem a.toNat
  | .hdrIn => readWord s.mem a.toNat
  | .payloadOut => readWord s.mem a.toNat
  | .rxSoft => readWord s.mem a.toNat

/-- RD (R252): a bad access raises BUS and returns 0. -/
def execRd (a : BitVec 16) (size : Nat) (s : State) : Host.Outcome State Fault Refusal :=
  match target? a size with
  | none => .next (raise .bus { s with rdata := 0 })
  | some pl => .next { s with rdata := readValue s pl a }

/-- `Dispatch(w)` (R256): a word that is no command raises CMD_ILLEGAL; a command is executed. -/
def dispatchCommand (w : Word) (s : State) : Host.Outcome State Fault Refusal :=
  match decodeCommand w with
  | .error _ => .next (raise .cmdIllegal s)
  | .ok .nop => execNop s
  | .ok .softReset => execSoftReset s
  | .ok (.txPush data cnt) => execTxPush data cnt s
  | .ok .txBuild => execTxBuild s
  | .ok .hdrBuild => execHdrBuild s
  | .ok .hdrParse => execHdrParse s
  | .ok .rxFrame => execRxFrame s
  | .ok (.rxPop cnt) => execRxPop cnt s
  | .ok .cwrepPop => execCwrepPop s
  -- `decodeCommand` answers no bus access
  | .ok (.rd _ _) => .next (raise .cmdIllegal s)
  | .ok (.wr _ _ _) => .next (raise .cmdIllegal s)

/-- The implemented bits of IE: 1..12 and 16 (R43). -/
def ieMask : Word := 0x00011FFE

/-- `WriteEffect(a, v)` on a register (R254); reserved bits of `v` are ignored (R85), a read-only register keeps its
value and raises BUS (R84). -/
def writeReg (r : Reg) (v : Word) (s : State) : Host.Outcome State Fault Refusal :=
  match r with
  | .ctrl => .next { s with scrEn := v.getLsbD 0, failFlag := v.getLsbD 1 }
  | .mcs =>
    if legalMcs s.params (v.extractLsb' 0 4) (v.extractLsb' 4 4) then
      .next { s with mcsMod := v.extractLsb' 0 4, mcsFec := v.extractLsb' 4 4 }
    else .next (raise .cfgReject s)
  | .flen =>
    if legalFlen s.params (v.extractLsb' 0 16) then .next { s with flen := v.extractLsb' 0 16 }
    else .next (raise .cfgReject s)
  | .echo => .next { s with echoMod := v.extractLsb' 0 4, echoFec := v.extractLsb' 4 4 }
  | .maxEmpty => .next { s with maxEmpty := v.extractLsb' 0 16 }
  | .floor => .next { s with floor := v.extractLsb' 0 16 }
  | .ie => .next { s with ie := v &&& ieMask }
  | .err => .next (clearErr v s)
  | .cmd => dispatchCommand v s
  | .txhLen => .next { s with txh := { s.txh with plen := v.extractLsb' 0 16, flen := v.extractLsb' 16 16 } }
  | .txhSeq => .next { s with txh := { s.txh with seq := v.extractLsb' 0 16 } }
  | .txhScheme =>
    .next { s with
      txh := { s.txh with
        mod := v.extractLsb' 0 4
        fec := v.extractLsb' 4 4
        emod := v.extractLsb' 8 4
        efec := v.extractLsb' 12 4 } }
  | .txhCw => .next { s with txh := { s.txh with cwid := v.extractLsb' 0 16 } }
  | .txhOffsh => .next { s with txh := { s.txh with off := v.extractLsb' 0 16, short := v.extractLsb' 16 16 } }
  | .id => .next (raise .bus s)
  | .caps => .next (raise .bus s)
  | .status => .next (raise .bus s)
  | .cause => .next (raise .bus s)
  | .txqLevel => .next (raise .bus s)
  | .rxqLevel => .next (raise .bus s)
  | .cwrepLevel => .next (raise .bus s)
  | .frameNo => .next (raise .bus s)
  | .nextCw => .next (raise .bus s)
  | .emptyCnt => .next (raise .bus s)
  | .txPbits => .next (raise .bus s)
  | .rxhLen => .next (raise .bus s)
  | .rxhSeq => .next (raise .bus s)
  | .rxhScheme => .next (raise .bus s)
  | .rxhCw => .next (raise .bus s)
  | .rxhOffsh => .next (raise .bus s)
  | .rxout => .next (raise .bus s)
  | .cwrep => .next (raise .bus s)
  | .cwrepNb => .next (raise .bus s)

/-- `WriteEffect(a, v)` on a mapped address that is not read-only (R254). -/
def writePlace (pl : Place) (a : BitVec 16) (v : Word) (s : State) : Host.Outcome State Fault Refusal :=
  match pl with
  | .reg r => writeReg r v s
  | .hdrIn => .next { s with mem := writeWord s.mem a.toNat v }
  | .rxSoft => .next { s with mem := writeWord s.mem a.toNat v }
  | .hdrOut => .next (raise .bus s)
  | .payloadOut => .next (raise .bus s)

/-- WR (R253): a bad access, and a write to a read-only place, raise BUS and change nothing (R82 to R84). -/
def execWr (a : BitVec 16) (v : Word) (size : Nat) (s : State) : Host.Outcome State Fault Refusal :=
  match target? a size with
  | none => .next (raise .bus s)
  | some pl => if placeAccess pl = .ro then .next (raise .bus s) else writePlace pl a v s

end Sys2Proof.Machine
end

