-- ==== Sys2Proof/Machine/Dispatch.lean ====
section
/-!
DEFINITION. One arm per instruction: the call of its meaning.
-/

namespace Sys2Proof.Machine

def exec (i : Instr) (s : State) : Host.Outcome State Fault Refusal :=
  match i with
  | .nop => Sys2Proof.Machine.execNop s
  | .softReset => Sys2Proof.Machine.execSoftReset s
  | .txPush data cnt => Sys2Proof.Machine.execTxPush data cnt s
  | .txBuild => Sys2Proof.Machine.execTxBuild s
  | .hdrBuild => Sys2Proof.Machine.execHdrBuild s
  | .hdrParse => Sys2Proof.Machine.execHdrParse s
  | .rxFrame => Sys2Proof.Machine.execRxFrame s
  | .rxPop cnt => Sys2Proof.Machine.execRxPop cnt s
  | .cwrepPop => Sys2Proof.Machine.execCwrepPop s
  | .rd addr size => Sys2Proof.Machine.execRd addr size s
  | .wr addr value size => Sys2Proof.Machine.execWr addr value size s

end Sys2Proof.Machine
end

