-- ==== Sys2Proof/Machine/Step.lean ====
section
/-!
DEFINITION. One step: the host's oldest pending access is taken and run to completion (R3, R92); with none pending
the block does nothing (R286; log 1).
-/

namespace Sys2Proof.Machine

/-- One step. -/
def step (s : State) : Host.Outcome State Fault Refusal :=
  match takeAccess s with
  | none => .next s
  | some (t, s') => exec (decodeAccess t) s'

/-- The state in which the host's next access is the write of the given command word to CMD (log 1). -/
def State.withFetchWord (s : State) (_nbits w : Nat) : State :=
  { s with bus := commandAccess (BitVec.ofNat 32 w) :: s.bus }

end Sys2Proof.Machine
end

