-- ==== Sys2Proof/Safety.lean ====
section
/-!
DEFINITION. What counts as a good state, and the words the statements use: what a rule says of the state, written
beside the machine and not through its meanings.
-/

namespace Sys2Proof.Machine

/-! ## Good states -/

/-- The remnant is as R50 says: a nonempty tail of a codeword of a code of `CODES`, after at least one bit. -/
def remnantOk (p : Params) (r : Remnant) : Bool :=
  match code? p r.fec with
  | none => false
  | some c =>
    decide (1 ≤ r.bits.length) && decide (1 ≤ r.off) && decide (r.off + r.bits.length = c.n) &&
      decide (r.id.toNat < 2 ^ p.wCwid)

/-- The partial is as R56 says: `1..n−1` samples of a code of `CODES`, and a shortening count of `0..k−1`. -/
def partialOk (p : Params) (q : Partial) : Bool :=
  match code? p q.fec with
  | none => false
  | some c =>
    decide (1 ≤ q.y.length) && decide (q.y.length < c.n) && decide (q.short < c.k) && decide (q.id.toNat < 2 ^ p.wCwid)

/-- A report's id has `W_CWID` bits, and a report of no appended bit counts none (R58). -/
def reportOk (p : Params) (e : Report) : Bool :=
  decide (e.id.toNat < 2 ^ p.wCwid) && (e.status == .ok || e.status == .failFlagged || e.nbits == 0)

/-- The byte address lies in one of the four windows (R81). -/
def inWindow (a : Nat) : Bool :=
  (decide (0x100 ≤ a) && decide (a ≤ 0x11F)) || (decide (0x200 ≤ a) && decide (a ≤ 0x2FF)) ||
    (decide (0x1000 ≤ a) && decide (a ≤ 0x1FFF)) || (decide (0x8000 ≤ a) && decide (a ≤ 0xFFFF))

/-- A field set fits the layout of the link, and its fields outside the layout are 0 (R55, R149). -/
def headerInLayout (p : Params) (h : Header) : Bool :=
  headerFits p h &&
    (p.fecEn || (h.cwid == 0 && h.off == 0 && h.short == 0 && h.emod == 0 && h.efec == 0))

/-- On a no-FEC link the frame buffer and deframer hold nothing: their commands do nothing (R4, R117). -/
def idleWithoutFec (s : State) : Bool :=
  s.params.fecEn ||
    (s.txq.isEmpty && s.rem.isNone && s.frameNo == 0 && s.nextCwId == 0 && s.emptyCount == 0 && s.txPbits == 0 &&
      s.part.isNone && s.rxq.isEmpty && s.rep.isEmpty && s.rxout == 0 && s.cwrep == 0 && s.cwrepNb == 0)

/-- A good state: what the rules of 10_state.md say of the state's values, in every state a run reaches. -/
structure Inv (s : State) : Prop where
  /-- R8 -/
  params : paramsWf s.params = true
  /-- R38 -/
  mcs : legalMcs s.params s.mcsMod s.mcsFec = true
  /-- R39 -/
  flen : legalFlen s.params s.flen = true
  /-- R43: the reserved bits of IE are 0 -/
  ie : s.ie &&& ~~~(0x00011FFE : Word) = 0
  /-- R45: the reserved bits of ERR are 0 -/
  err : s.err &&& ~~~(0x00001FFE : Word) = 0
  /-- R271: codes 13..255 are never recorded -/
  cause : s.cause.toNat ≤ 12
  /-- R49 -/
  txq : s.txq.length ≤ s.params.txqCap
  /-- R50 -/
  rem : s.rem.all (remnantOk s.params) = true
  /-- R51 -/
  frameNo : s.frameNo.toNat < 2 ^ s.params.wSeq
  /-- R51 -/
  nextCwId : s.nextCwId.toNat < 2 ^ s.params.wCwid
  /-- R54, R183 -/
  txPbits : s.txPbits.toNat ≤ 32768
  /-- R55 -/
  rxh : headerInLayout s.params s.rxh = true
  /-- R56 -/
  part : s.part.all (partialOk s.params) = true
  /-- R57 -/
  rxq : s.rxq.length ≤ s.params.rxqCap
  /-- R58 -/
  rep : s.rep.length ≤ s.params.cwrepCap
  /-- R58 -/
  reports : s.rep.all (reportOk s.params) = true
  /-- R59: `RXOUT[31:12] = 0` -/
  rxout : s.rxout &&& (0xFFFFF000 : Word) = 0
  /-- R60: `CWREP[31:20] = 0` and `CWREP[18] = 0` -/
  cwrep : s.cwrep &&& (0xFFF40000 : Word) = 0
  /-- R60: `CWREP_NB[31:16] = 0` -/
  cwrepNb : s.cwrepNb &&& (0xFFFF0000 : Word) = 0
  /-- the memory is in its canonical form -/
  memory : Memory.wf s.mem
  /-- R61, R81: only the four windows hold anything -/
  windows : s.mem.all (fun c => inWindow c.1) = true
  /-- R117 -/
  noFec : idleWithoutFec s = true

/-- The output windows are 0 beyond the header (R151) and beyond the valid payload bits (R54, R182). -/
def OutputTailsZero (s : State) : Prop :=
  (∀ j, headerLen s.params ≤ j → j < 256 → readBit s.mem hdrOutBase j = false) ∧
    (∀ j, s.txPbits.toNat ≤ j → j < 32768 → readBit s.mem payloadOutBase j = false)

/-! ## Words of the rules -/

/-- `raise c` by its code (R272): the ERR bit and CAUSE, nothing else. -/
def recorded (c : Nat) (s : State) : State :=
  { s with err := s.err ||| BitVec.twoPow 32 c, cause := BitVec.ofNat 8 c }

/-- The bytes of two memories are the same at every address where `P` holds. -/
def SameBytes (P : Nat → Prop) (m m' : Memory) : Prop := ∀ a, P a → readByte m' a = readByte m a

/-- The address lies in HDR_OUT (R81). -/
def InHdrOut (a : Nat) : Prop := 0x100 ≤ a ∧ a ≤ 0x11F
/-- The address lies in HDR_IN (R81). -/
def InHdrIn (a : Nat) : Prop := 0x200 ≤ a ∧ a ≤ 0x2FF
/-- The address lies in PAYLOAD_OUT (R81). -/
def InPayloadOut (a : Nat) : Prop := 0x1000 ≤ a ∧ a ≤ 0x1FFF
/-- The address lies in RX_SOFT (R81). -/
def InRxSoft (a : Nat) : Prop := 0x8000 ≤ a ∧ a ≤ 0xFFFF

/-- `RXH`, `OFF`, … of a field set restricted to the layout of the link: the other fields 0 (R149, R153). -/
def restrictToLayout (p : Params) (h : Header) : Header :=
  if p.fecEn then h else { h with cwid := 0, off := 0, short := 0, emod := 0, efec := 0 }

/-- The checks of R211, in its order, for a frame of code `c`. -/
def RangeOk (p : Params) (h : Header) (c : Code) : Prop :=
  (1 ≤ h.mod.toNat ∧ h.mod.toNat ≤ 4) ∧ code? p h.fec = some c ∧ 1 ≤ h.flen.toNat ∧
    h.plen.toNat ≤ h.flen.toNat * p.nc ∧ h.plen.toNat * h.mod.toNat ≤ 32768 ∧ h.off.toNat < c.n ∧ h.short.toNat < c.k

/-- The parameter set is as R7, R8 and R9 say, condition by condition. -/
def WellFormedParameters (p : Params) : Prop :=
  -- R7: the domains of the parameters
  (1 ≤ p.nc ∧ p.nc ≤ 8192) ∧ (1 ≤ p.hc ∧ p.hc ≤ 128) ∧ 8 ≤ p.txqCap ∧ 8 ≤ p.rxqCap ∧ 1 ≤ p.cwrepCap ∧
  (∀ c ∈ p.codes, c.id ≠ 0) ∧ (p.codes.map (·.id)).Nodup ∧
  -- R8: header length, widths, seed
  p.hc * (if p.fecEn then 2 else 1) ≤ 256 ∧
  8 + (p.wPlen + p.wSeq + 4 + 4 + p.wFlen + if p.fecEn then p.wCwid + p.wOff + p.wShort + 4 + 4 else 0) ≤
    p.hc * (if p.fecEn then 2 else 1) ∧
  (∀ w ∈ [p.wPlen, p.wSeq, p.wFlen, p.wCwid, p.wOff, p.wShort], 1 ≤ w ∧ w ≤ 16) ∧ p.scrSeed ≠ 0 ∧
  -- R8, R9: the codes of an FEC link
  (p.fecEn = true → ∀ c ∈ p.codes,
    1 ≤ c.k ∧ c.k ≤ c.n ∧ c.n ≤ 2 ^ p.wOff ∧ c.k ≤ 2 ^ p.wShort ∧
      ∀ x : Bits, x.length = c.k → decodeWord c ((encodeWord c x).map softIdeal) = (true, x)) ∧
  -- R8: the initial scheme and frame length
  (1 ≤ p.initMod.toNat ∧ p.initMod.toNat ≤ 4) ∧
  (if p.fecEn then ∃ c ∈ p.codes, c.id = p.initFec else p.initFec = 0) ∧
  (1 ≤ p.initFlen.toNat ∧ p.initFlen.toNat < 2 ^ p.wFlen ∧ p.initFlen.toNat * p.nc < 2 ^ p.wPlen ∧
    p.initFlen.toNat * p.nc * 4 ≤ 32768)

/-- The reset table of R300, row by row, for an instance with the parameters `p`. -/
def ResetValues (p : Params) (s : State) : Prop :=
  s.params = p ∧ s.scrEn = false ∧ s.failFlag = false ∧ s.mcsMod = p.initMod ∧ s.mcsFec = p.initFec ∧
  s.flen = p.initFlen ∧ s.echoMod = 0 ∧ s.echoFec = 0 ∧ s.maxEmpty = p.initMaxEmpty ∧ s.floor = 1 ∧ s.ie = 0 ∧
  s.err = 0 ∧ s.cause = 0 ∧ s.txq = [] ∧ s.rem = none ∧ s.frameNo = 0 ∧ s.nextCwId = 0 ∧ s.emptyCount = 0 ∧
  s.txh = Header.zero ∧ s.txPbits = 0 ∧ s.rxh = Header.zero ∧ s.hdrValid = false ∧ s.part = none ∧ s.rxq = [] ∧
  s.rep = [] ∧ s.rxout = 0 ∧ s.cwrep = 0 ∧ s.cwrepNb = 0 ∧ ∀ a, readByte s.mem a = 0

/-- The bits of the pending remnant, none without one (R50). -/
def remnantBits (s : State) : Bits :=
  match s.rem with
  | none => []
  | some r => r.bits

/-! ## What a received frame gives (R212 to R216, R277) -/

/-- Payload samples `pos .. pos + len − 1` of RX_SOFT (R210). -/
def rxSamples (s : State) (pos len : Nat) : List Sample :=
  (List.range len).map fun j => readByte s.mem (0x8000 + (pos + j))

/-- The bits and the report that one complete codeword gives (R215). -/
def codewordResult (s : State) (c : Code) (id : BitVec 16) (y : List Sample) (short : Nat) : Bits × Report :=
  let d := decodeWord c y
  let data := d.2.take (c.k - short)
  if d.1 then (data, ⟨id, .ok, field 16 (c.k - short)⟩)
  else if s.failFlag then (data, ⟨id, .failFlagged, field 16 (c.k - short)⟩)
  else ([], ⟨id, .failDropped, 0⟩)

/-- What the leading codeword of a frame of `total` samples gives (R212): bits, reports, and the partial left. -/
def leadingResult (s : State) (c : Code) (total : Nat) : Bits × List Report × Option Partial :=
  let h := s.rxh
  let need := c.n - h.off.toNat
  let lostHere : List Report := if need ≤ total then [⟨h.cwid, .lost, 0⟩] else []
  match s.part with
  | none => if h.off = 0 then ([], [], none) else ([], lostHere, none)
  | some q =>
    if h.off = 0 then ([], [⟨q.id, .lost, 0⟩], none)
    else if q.id = h.cwid ∧ q.fec = h.fec ∧ q.y.length = h.off.toNat then
      if need ≤ total then
        let r := codewordResult s c q.id (q.y ++ rxSamples s 0 need) q.short
        (r.1, [r.2], none)
      else ([], [], some { q with y := q.y ++ rxSamples s 0 total })
    else ([], (if q.id = h.cwid then [] else [⟨q.id, .lost, 0⟩]) ++ lostHere, none)

/-- The reports are appended, and CW_FAIL and CW_LOST recorded for the failed and lost codewords among them, the last
of them in CAUSE (R215, R216, R277). -/
def withReports (s : State) (reps : List Report) : State :=
  { s with
    rep := s.rep ++ reps
    err := s.err ||| (if reps.any (fun r => r.status == .failDropped || r.status == .failFlagged) then 0x400 else 0) |||
      (if reps.any (fun r => r.status == .lost) then 0x800 else 0)
    cause :=
      match (reps.filter fun r => r.status != .ok).getLast? with
      | none => s.cause
      | some r => if r.status = .lost then 11 else 10 }

/-- The configuration registers and parameters are the same. -/
def SameConfig (s s' : State) : Prop :=
  s.params = s'.params ∧ s.scrEn = s'.scrEn ∧ s.failFlag = s'.failFlag ∧ s.mcsMod = s'.mcsMod ∧ s.mcsFec = s'.mcsFec ∧
  s.flen = s'.flen ∧ s.echoMod = s'.echoMod ∧ s.echoFec = s'.echoFec ∧ s.maxEmpty = s'.maxEmpty ∧ s.floor = s'.floor ∧
  s.ie = s'.ie

/-- The Tx side (R284) is the same. -/
def SameTxSide (s s' : State) : Prop :=
  s.txq = s'.txq ∧ s.rem = s'.rem ∧ s.frameNo = s'.frameNo ∧ s.nextCwId = s'.nextCwId ∧ s.emptyCount = s'.emptyCount ∧
  s.txh = s'.txh ∧ s.txPbits = s'.txPbits ∧ SameBytes InHdrOut s.mem s'.mem ∧ SameBytes InPayloadOut s.mem s'.mem

/-- The Rx side (R284) is the same. -/
def SameRxSide (s s' : State) : Prop :=
  s.rxh = s'.rxh ∧ s.hdrValid = s'.hdrValid ∧ s.part = s'.part ∧ s.rxq = s'.rxq ∧ s.rep = s'.rep ∧
  s.rxout = s'.rxout ∧ s.cwrep = s'.cwrep ∧ s.cwrepNb = s'.cwrepNb ∧
  SameBytes InHdrIn s.mem s'.mem ∧ SameBytes InRxSoft s.mem s'.mem

/-- The instruction is a command of the Tx side (R284). -/
def isTxCommand : Instr → Bool
  | .nop => false
  | .softReset => false
  | .txPush _ _ => true
  | .txBuild => true
  | .hdrBuild => true
  | .hdrParse => false
  | .rxFrame => false
  | .rxPop _ => false
  | .cwrepPop => false
  | .rd _ _ => false
  | .wr _ _ _ => false

/-- The instruction is a command of the Rx side (R284). -/
def isRxCommand : Instr → Bool
  | .nop => false
  | .softReset => false
  | .txPush _ _ => false
  | .txBuild => false
  | .hdrBuild => false
  | .hdrParse => true
  | .rxFrame => true
  | .rxPop _ => true
  | .cwrepPop => true
  | .rd _ _ => false
  | .wr _ _ _ => false

/-- The address is a word address that R81 maps to nothing. -/
def UnmappedWord (a : Nat) : Prop :=
  (0x064 ≤ a ∧ a ≤ 0x06C) ∨ (0x090 ≤ a ∧ a ≤ 0x0FF) ∨ (0x120 ≤ a ∧ a ≤ 0x1FF) ∨ (0x300 ≤ a ∧ a ≤ 0xFFF) ∨
    (0x2000 ≤ a ∧ a ≤ 0x7FFF)

/-- The word address is read-only in R81. -/
def ReadOnlyWord (a : Nat) : Prop :=
  a = 0x000 ∨ a = 0x004 ∨ a = 0x024 ∨ a = 0x02C ∨ (0x034 ≤ a ∧ a ≤ 0x04C) ∨ (0x070 ≤ a ∧ a ≤ 0x08C) ∨
    InHdrOut a ∨ InPayloadOut a

/-! ## A link of two instances (R221) -/

/-- The header samples a noiseless line carries from the instance `T`: `±127` for HDR_OUT bits `0 .. HB−1`. -/
def lineHeader (T : State) : List Sample :=
  (List.range (headerLen T.params)).map fun j => softIdeal (readBit T.mem hdrOutBase j)

/-- The payload samples a noiseless line carries from `T`: `±127` for `PAYLOAD_OUT⟨0 .. TX_PBITS−1⟩`. -/
def linePayload (T : State) : List Sample :=
  (List.range T.txPbits.toNat).map fun j => softIdeal (readBit T.mem payloadOutBase j)

/-- The host has written the samples to HDR_IN. -/
def withHdrIn (R : State) (x : List Sample) : State := { R with mem := replaceWindow R.mem hdrInBase 0x100 x }

/-- The host has written the samples to RX_SOFT. -/
def withRxSoft (R : State) (y : List Sample) : State := { R with mem := replaceWindow R.mem rxSoftBase 0x8000 y }

/-- The state an outcome answers, if it is a next state. -/
def nextState (o : Host.Outcome State Fault Refusal) : Option State :=
  match o with
  | .next s => some s
  | .fault _ => none
  | .refused _ => none

/-- The frame that `T` built last is given to `R`: header samples, HDR_PARSE, payload samples, RX_FRAME (R210, R306). -/
def deliverFrame (T R : State) : Option State :=
  (nextState (exec .hdrParse (withHdrIn R (lineHeader T)))).bind fun R' =>
    nextState (exec .rxFrame (withRxSoft R' (linePayload T)))

/-- What the host of the transmitting instance does between and at the frame builds of a link. -/
inductive LinkEvent where
  | push (data : BitVec 8) (cnt : BitVec 4)
  | setMcs (v : Word)
  | setFlen (v : Word)
  | build
  deriving DecidableEq, Repr

/-- One event of the link: the transmitter's command or register write, and for a build the delivery of its frame. -/
def linkStep (e : LinkEvent) (l : State × State) : Option (State × State) :=
  match e with
  | .push data cnt => (nextState (exec (.txPush data cnt) l.1)).map fun T => (T, l.2)
  | .setMcs v => (nextState (exec (.wr 0x00C v 4) l.1)).map fun T => (T, l.2)
  | .setFlen v => (nextState (exec (.wr 0x010 v 4) l.1)).map fun T => (T, l.2)
  | .build => (nextState (exec .txBuild l.1)).bind fun T => (deliverFrame T l.2).map fun R => (T, R)

/-- A run of the link. -/
def linkRun : List LinkEvent → State × State → Option (State × State)
  | [], l => some l
  | e :: es, l => (linkStep e l).bind (linkRun es)

/-- A codeword of the code of the next frame (R188) has at least as many bits as a symbol of its modulation. -/
def frameFillsSymbols (T : State) : Bool :=
  match code? T.params (match T.rem with | some r => r.fec | none => T.mcsFec) with
  | none => true
  | some c => decide (T.mcsMod.toNat ≤ c.n)

/-- At every build of the run the codewords of the frame are no shorter than a symbol (`n ≥ bps`; log 14). -/
def linkFillsSymbols : List LinkEvent → State × State → Bool
  | [], _ => true
  | e :: es, l =>
    (e != .build || frameFillsSymbols l.1) &&
      match linkStep e l with
      | none => true
      | some l' => linkFillsSymbols es l'

/-- The bits the events push, in order (R181). -/
def pushedBits (es : List LinkEvent) : Bits :=
  es.flatMap fun e =>
    match e with
    | .push data cnt => (List.range cnt.toNat).map fun i => data.getLsbD (7 - i)
    | .setMcs _ => []
    | .setFlen _ => []
    | .build => []

end Sys2Proof.Machine
end

