-- ==== Sys2Proof/Certificates/Slice0/Obligations.lean ====
section
/-!
DEFINITION. The statements of this row, each a proposition about the machine for every parameter set a state can hold.
-/

open Sys2Proof Sys2Proof.Machine

/-! ## Encoding and the step -/

/-- Decoding the access of a well-formed instruction gives it back (R110, R113, R118), every operand at every value. -/
def Obligations.DecodeOfEncode : Prop :=
  ∀ i : Instr, i.wellFormed = true → decodeAccess (encode i) = i

/-- Every host access is the encoding of the one well-formed instruction it decodes to (R110, R114). -/
def Obligations.EncodeOfDecode : Prop :=
  ∀ t : BusAccess, (decodeAccess t).wellFormed = true ∧ encode (decodeAccess t) = t

/-- R114: "Decoding is total: every 32-bit word is either exactly one row of rule R113 or illegal", and an illegal word
raises CMD_ILLEGAL (code 1) and changes nothing else. -/
def Obligations.EveryWordIsOneCommandOrIllegal : Prop :=
  ∀ (w : Word) (s : State),
    ((∃ i, decodeCommand w = .ok i) ∧ (opcodeMap.filter (·.has w)).length = 1) ∨
      ((∃ e, decodeCommand w = .error e) ∧ (∀ r ∈ opcodeMap, r.has w = false) ∧
        exec (.wr 0x030 w 4) s = .next (recorded 1 s))

/-- Words written out in 95_test_vectors.md decode to the commands they stand for there, and the illegal ones to none; no
length but 32 bits decodes (R116). -/
def Obligations.SpecWordsDecode : Prop :=
  decodeTableWord 32 0x00000000 = some .nop ∧ decodeTableWord 32 0x00000001 = some .softReset ∧
  decodeTableWord 32 0x0006B410 = some (.txPush 0xB4 6) ∧ decodeTableWord 32 0x00000011 = some .txBuild ∧
  decodeTableWord 32 0x00000020 = some .hdrBuild ∧ decodeTableWord 32 0x00000021 = some .hdrParse ∧
  decodeTableWord 32 0x00000030 = some .rxFrame ∧ decodeTableWord 32 0x00080031 = some (.rxPop 8) ∧
  decodeTableWord 32 0x00000032 = some .cwrepPop ∧ decodeTableWord 32 0x00000002 = none ∧
  decodeTableWord 32 0x00000111 = none ∧ decodeTableWord 32 0x0100A510 = none ∧ decodeTableWord 32 0x00080131 = none ∧
  ∀ nbits w : Nat, nbits ≠ 32 → decodeTableWord nbits w = none

/-- A step takes the host's oldest access and runs the instruction it decodes to; with none pending it changes nothing
(R92, R286; the pending list is the model's, log 1). -/
def Obligations.StepRunsTheHostAccess : Prop :=
  (∀ (s : State) (i : Instr) (rest : List BusAccess), i.wellFormed = true → s.bus = encode i :: rest →
    step s = exec i { s with bus := rest }) ∧
  (∀ s : State, s.bus = [] → step s = .next s) ∧
  (∀ (s : State) (w : Nat) (i : Instr), decodeTableWord 32 w = some i → step (s.withFetchWord 32 w) = exec i s)

/-- A command mnemonic is shorthand for the write of its word to CMD (R118, R256): the two have one effect. -/
def Obligations.CommandIsItsWriteToCmd : Prop :=
  ∀ (w : Word) (i : Instr) (s : State), decodeCommand w = .ok i → exec (.wr 0x030 w 4) s = exec i s

/-! ## Construction, reset, and the invariant -/

/-- Construction succeeds exactly for the well-formed parameter sets of R7, R8, R9, and for any other the block has no
reset state (that R7's domains belong to the conditions is the model's reading, log 9). -/
def Obligations.ConstructionNeedsWellFormedParameters : Prop :=
  ∀ p : Params,
    (WellFormedParameters p → State.construct p = .ok (State.resetWith p)) ∧
      (¬WellFormedParameters p → State.construct p = .error .malformedConfiguration)

/-- R300: construction with a well-formed parameter set, and every SOFT_RESET, give the reset table; ID, CAPS, STATUS and
the level registers read as the table and its last sentence say. That SOFT_RESET keeps the host's pending accesses `bus`
and the value last read `rdata`, which are no state of the block, is the model's choice (log 11, with log 1 and log 2). -/
def Obligations.ConstructionAndSoftResetGiveTheResetTable : Prop :=
  ∀ p : Params, WellFormedParameters p →
    (∃ t, State.construct p = .ok t ∧ ResetValues p t) ∧
    (∀ s : State, s.params = p →
      ∃ t, exec .softReset s = .next t ∧ ResetValues p t ∧ t.bus = s.bus ∧ t.rdata = s.rdata) ∧
    ∀ t : State, ResetValues p t →
      exec (.rd 0x000 4) t = .next { t with rdata := 0x44544C01 } ∧
      exec (.rd 0x004 4) t = .next { t with
        rdata := BitVec.ofNat 32
          (p.fecEn.toNat + 2 * (if p.fecEn then 2 else 1) + 8 * (p.hc * if p.fecEn then 2 else 1) + 4096 * p.nc) } ∧
      exec (.rd 0x024 4) t = .next { t with rdata := 0 } ∧
      exec (.rd 0x034 4) t = .next { t with rdata := 0 } ∧
      exec (.rd 0x038 4) t = .next { t with rdata := 0 } ∧
      exec (.rd 0x03C 4) t = .next { t with rdata := 0 }

/-- Every constructed state is good, and its output windows HDR_OUT and PAYLOAD_OUT are 0 throughout (R61, R300). -/
def Obligations.ConstructedStatesAreGood : Prop :=
  ∀ (p : Params) (s : State), State.construct p = .ok s →
    Inv s ∧ OutputTailsZero s ∧ (∀ j, j < 256 → readBit s.mem 0x100 j = false) ∧
      ∀ j, j < 32768 → readBit s.mem 0x1000 j = false

/-- The model's reset state is good (its parameters are the model's choice, configuration F, log 3). -/
def Obligations.ResetStateIsGood : Prop := Inv State.reset

/-- Every step keeps the good states: register domains, reserved bits, queue bounds, remnant, partial, counters, and the
canonical memory (R38, R39, R43, R45, R49 to R60). -/
def Obligations.StepKeepsGoodStates : Prop :=
  ∀ s t : State, Inv s → step s = .next t → Inv t

/-- From a good state every access and every command completes: no error stops the block (R270), and the model's own
fault is never reached (log 6). -/
def Obligations.GoodStatesNeverStop : Prop :=
  ∀ s : State, Inv s → (∀ i : Instr, ∃ t, exec i s = .next t) ∧ ∃ t, step s = .next t

/-- Every step keeps HDR_OUT 0 beyond the header and PAYLOAD_OUT 0 beyond the valid payload bits (R151, R182, R252). -/
def Obligations.StepKeepsOutputTailsZero : Prop :=
  ∀ s t : State, Inv s → OutputTailsZero s → step s = .next t → OutputTailsZero t

/-- No step changes the construction parameters, a reset among them (R30, R301). -/
def Obligations.ParametersNeverChange : Prop :=
  ∀ s t : State, step s = .next t → t.params = s.params

/-! ## Control commands and the link kind -/

/-- R250: the word 0 is NOP, and NOP leaves every piece of state unchanged. -/
def Obligations.NopChangesNothing : Prop :=
  decodeCommand 0x00000000 = .ok .nop ∧ ∀ s : State, exec .nop s = .next s

/-- R117: on a no-FEC link the five FEC commands raise CMD_UNSUPPORTED (code 2) and do nothing else; NOP, SOFT_RESET,
HDR_BUILD and HDR_PARSE work on both link kinds (they complete without that cause). -/
def Obligations.FecCommandsNeedAnFecLink : Prop :=
  (∀ s : State, s.params.fecEn = false →
    (∀ data cnt, exec (.txPush data cnt) s = .next (recorded 2 s)) ∧ exec .txBuild s = .next (recorded 2 s) ∧
      exec .rxFrame s = .next (recorded 2 s) ∧ (∀ cnt, exec (.rxPop cnt) s = .next (recorded 2 s)) ∧
      exec .cwrepPop s = .next (recorded 2 s)) ∧
  ∀ s : State, ∀ i ∈ [Instr.nop, .softReset, .hdrBuild, .hdrParse],
    ∃ t, exec i s = .next t ∧ (t.err.getLsbD 2 = true → s.err.getLsbD 2 = true)

/-! ## Transmit side -/

/-- R181: TX_PUSH in full, its encoding, its refusals in their order and the bits it appends. -/
def Obligations.TxPushAppendsItsBits : Prop :=
  (∀ w : Word, w.extractLsb' 0 8 = 0x10#8 → w.extractLsb' 20 12 = 0#12 →
    decodeCommand w = .ok (.txPush (w.extractLsb' 8 8) (w.extractLsb' 16 4))) ∧
  ∀ (data : BitVec 8) (cnt : BitVec 4) (s : State),
    exec (.txPush data cnt) s = .next (
      if s.params.fecEn = false then recorded 2 s
      else if cnt.toNat < 1 ∨ 8 < cnt.toNat then recorded 3 s
      else if s.params.txqCap < s.txq.length + cnt.toNat then recorded 5 s
      else { s with txq := s.txq ++ (List.range cnt.toNat).map fun i => data.getLsbD (7 - i) })

/-- TX_BUILD completes on an FEC link; the header fields, the counters and TX_PBITS it leaves, HDR_OUT, and its frame
(R182, R183, R184, R189, R190). -/
def Obligations.TxBuildWritesHeaderAndCounters : Prop :=
  ∀ s : State, Inv s → s.params.fecEn = true →
    ∃ t, exec .txBuild s = .next t ∧
      t.frameNo.toNat = (s.frameNo.toNat + 1) % 2 ^ s.params.wSeq ∧
      t.emptyCount.toNat = (if s.txq.length < s.floor.toNat then min (s.emptyCount.toNat + 1) 0xFFFF else 0) ∧
      (t.txh.seq = s.frameNo ∧ t.txh.mod = s.mcsMod ∧ t.txh.flen = s.flen ∧ t.txh.emod = s.echoMod ∧
        t.txh.efec = s.echoFec) ∧
      (∀ r, s.rem = some r → t.txh.cwid = r.id ∧ t.txh.off.toNat = r.off ∧ t.txh.fec = r.fec) ∧
      (s.rem = none → t.txh.cwid = s.nextCwId ∧ t.txh.off = 0 ∧ t.txh.fec = s.mcsFec) ∧
      t.txh.plen.toNat ≤ s.flen.toNat * s.params.nc ∧
      t.txPbits.toNat = t.txh.plen.toNat * s.mcsMod.toNat ∧
      headerFits s.params t.txh = true ∧
      (∀ j, j < 256 → readBit t.mem 0x100 j = (headerBits s.params (headerSeed s) t.txh).getD j false) ∧
      (∀ j, t.txPbits.toNat ≤ j → j < 32768 → readBit t.mem 0x1000 j = false) ∧
      SameBytes (fun a => ¬InHdrOut a ∧ ¬InPayloadOut a) s.mem t.mem ∧
      t = { s with
        txh := t.txh, txPbits := t.txPbits, mem := t.mem, txq := t.txq, rem := t.rem, nextCwId := t.nextCwId,
        frameNo := t.frameNo, emptyCount := t.emptyCount }

/-- "the codewords' bits form one continuous stream cut into frames" (R180): the pending remnant followed by the new
codewords is what the frame carries followed by what stays pending; the new codewords are the encodings of the queue's
bits, the last one filled up with SHORT zeros; the payload is those bits and less than one symbol of zero fill
(R185, R186, R189). -/
def Obligations.TxBuildSendsTheCodewordStream : Prop :=
  ∀ s : State, Inv s → s.params.fecEn = true →
    ∃ t, exec .txBuild s = .next t ∧
      ∃ (c : Code) (infos : List Bits) (out : Bits),
        code? s.params t.txh.fec = some c ∧ (∀ x ∈ infos, x.length = c.k) ∧
        remnantBits s ++ infos.flatMap (encodeWord c) = out ++ remnantBits t ∧
        s.txq ++ zeros t.txh.short.toNat = infos.flatten ++ t.txq ∧
        (0 < t.txh.short.toNat → t.txq = []) ∧ t.txh.short.toNat < c.k ∧ (infos = [] → t.txh.short = 0) ∧
        t.nextCwId.toNat = (s.nextCwId.toNat + infos.length) % 2 ^ s.params.wCwid ∧
        out.length ≤ t.txPbits.toNat ∧ t.txPbits.toNat < out.length + s.mcsMod.toNat ∧
        ∀ j, j < 32768 → readBit t.mem 0x1000 j = out.getD j false

/-- A build stops short of the frame's capacity only when nothing is left that it may send: with a remnant pending
after it, or with bits queued that it was free to encode, every symbol of the frame carries payload (R185, R187). -/
def Obligations.TxBuildFillsTheFrame : Prop :=
  ∀ s t : State, Inv s → s.params.fecEn = true → exec .txBuild s = .next t →
    t.rem ≠ none ∨ (t.txq ≠ [] ∧ t.txh.fec = s.mcsFec) → t.txh.plen.toNat = s.flen.toNat * s.params.nc

/-- A code change waits for the remnant (R188): while a remnant of another code is pending the build sends remnant bits
only, under the remnant's code and the new modulation. -/
def Obligations.CodeChangeWaitsForTheRemnant : Prop :=
  ∀ (s : State) (r : Remnant), Inv s → s.params.fecEn = true → s.rem = some r → r.fec ≠ s.mcsFec →
    ∃ t, exec .txBuild s = .next t ∧ t.txq = s.txq ∧ t.nextCwId = s.nextCwId ∧ t.txh.fec = r.fec ∧
      t.txh.mod = s.mcsMod ∧ t.txh.short = 0 ∧
      remnantBits t = r.bits.drop (s.flen.toNat * s.params.nc * s.mcsMod.toNat)

/-- A build makes progress (R191): with anything to send, it encodes queued bits or shortens the remnant. -/
def Obligations.TxBuildMakesProgress : Prop :=
  ∀ s t : State, Inv s → s.params.fecEn = true → exec .txBuild s = .next t → (s.txq ≠ [] ∨ s.rem ≠ none) →
    t.txq.length < s.txq.length ∨ (t.txq = s.txq ∧ (remnantBits t).length < (remnantBits s).length)

/-- The queue and the remnant are fully sent after finitely many builds (R191), here as a run of steps whose host only
issues TX_BUILD, with a bound (the model's; the pending list that holds the builds is the model's, log 1). -/
def Obligations.TxQueueDrains : Prop :=
  ∀ s : State, Inv s → s.params.fecEn = true →
    ∃ n t, n ≤ s.txq.length * 65537 + (remnantBits s).length ∧
      Sys2Proof.core.run n { s with bus := List.replicate n (encode .txBuild) } = .next t ∧ t.txq = [] ∧ t.rem = none

/-! ## Header codec -/

/-- The header before scrambling, field by field (R141, R143, R145): fields most significant bit first in their order,
reserved zeros, and the CRC of everything before it as the last 8 bits. -/
def Obligations.HeaderFollowsTheLayout : Prop :=
  ∀ (p : Params) (f : Header), ∃ (body : Bits) (rsv : Nat),
    body = bin p.wPlen f.plen.toNat ++ bin p.wSeq f.seq.toNat ++ bin 4 f.mod.toNat ++ bin 4 f.fec.toNat ++
        bin p.wFlen f.flen.toNat ++
        (if p.fecEn then
          bin p.wCwid f.cwid.toNat ++ bin p.wOff f.off.toNat ++ bin p.wShort f.short.toNat ++ bin 4 f.emod.toNat ++
            bin 4 f.efec.toNat
        else []) ++ List.replicate rsv false ∧
      (paramsWf p = true → body.length + 8 = p.hc * if p.fecEn then 2 else 1) ∧
      ∀ seed, headerBits p seed f = scramble seed (body ++ bin 8 (crc8 body).toNat)

/-- R151: HDR_BUILD in full, with its word. A field of the link's layout that does not fit raises CMD_ARG (code 3) and changes nothing;
else HDR_OUT holds the header, 0 beyond it, and nothing else changes. -/
def Obligations.HdrBuildWritesTheHeader : Prop :=
  decodeCommand 0x00000020 = .ok .hdrBuild ∧ ∀ s : State, paramsWf s.params = true →
    let p := s.params
    let f := s.txh
    let fits := f.plen.toNat < 2 ^ p.wPlen ∧ f.seq.toNat < 2 ^ p.wSeq ∧ f.flen.toNat < 2 ^ p.wFlen ∧
      (p.fecEn = true → f.cwid.toNat < 2 ^ p.wCwid ∧ f.off.toNat < 2 ^ p.wOff ∧ f.short.toNat < 2 ^ p.wShort)
    (fits → ∃ m, exec .hdrBuild s = .next { s with mem := m } ∧
      (∀ j, j < headerLen p →
        some (readBit m 0x100 j) = (headerBits p (if s.scrEn then p.scrSeed else 0) f)[j]?) ∧
      (∀ j, headerLen p ≤ j → j < 256 → readBit m 0x100 j = false) ∧ SameBytes (fun a => ¬InHdrOut a) s.mem m) ∧
    (¬fits → exec .hdrBuild s = .next (recorded 3 s))

/-- HDR_PARSE in full, with its word (R145, R147, R149, R152): the CRC decides; on success RXH holds the fields read in the layout's
order and `hdrValid` is set, on failure `hdrValid` is cleared, HDR_CRC (code 7) recorded and RXH kept. -/
def Obligations.HdrParseChecksTheCrc : Prop :=
  decodeCommand 0x00000021 = .ok .hdrParse ∧ ∀ s : State, paramsWf s.params = true →
    let p := s.params
    let d := scramble (if s.scrEn then p.scrSeed else 0)
      ((List.range (headerLen p)).map fun j => decide ((readByte s.mem (0x200 + j)).toInt < 0))
    let body := d.take (headerLen p - 8)
    let at_ (pos w : Nat) : Nat := val ((d.drop pos).take w)
    let o1 := p.wPlen + p.wSeq
    let o2 := o1 + 8 + p.wFlen
    let o3 := o2 + p.wCwid + p.wOff
    (d.drop (headerLen p - 8) = bin 8 (crc8 body).toNat →
      ∃ h, exec .hdrParse s = .next { s with rxh := h, hdrValid := true } ∧
        h.plen.toNat = at_ 0 p.wPlen ∧ h.seq.toNat = at_ p.wPlen p.wSeq ∧ h.mod.toNat = at_ o1 4 ∧
        h.fec.toNat = at_ (o1 + 4) 4 ∧ h.flen.toNat = at_ (o1 + 8) p.wFlen ∧
        (p.fecEn = true → h.cwid.toNat = at_ o2 p.wCwid ∧ h.off.toNat = at_ (o2 + p.wCwid) p.wOff ∧
          h.short.toNat = at_ o3 p.wShort ∧ h.emod.toNat = at_ (o3 + p.wShort) 4 ∧
          h.efec.toNat = at_ (o3 + p.wShort + 4) 4) ∧
        (p.fecEn = false → h.cwid = 0 ∧ h.off = 0 ∧ h.short = 0 ∧ h.emod = 0 ∧ h.efec = 0)) ∧
    (d.drop (headerLen p - 8) ≠ bin 8 (crc8 body).toNat →
      exec .hdrParse s = .next (recorded 7 { s with hdrValid := false }))

/-- R153: for every field set that fits the layout, `HeaderParse` of the noiseless samples of `HeaderBits(f)` is `f`
restricted to the layout, for every seed (so for either `SCR_EN`). -/
def Obligations.HeaderRoundTrip : Prop :=
  ∀ (p : Params) (f : Header) (seed : BitVec 7), paramsWf p = true → headerFits p f = true →
    headerParse p seed ((headerBits p seed f).map softIdeal) = some (restrictToLayout p f)

/-- A header that one instance builds with HDR_BUILD is parsed back by another with the same parameters and `SCR_EN`,
over a noiseless line (R150 to R153). -/
def Obligations.BuiltHeaderIsParsedBack : Prop :=
  ∀ T T' R : State, paramsWf T.params = true → R.params = T.params → R.scrEn = T.scrEn →
    headerFits T.params T.txh = true → exec .hdrBuild T = .next T' →
    exec .hdrParse (withHdrIn R (lineHeader T')) =
      .next { withHdrIn R (lineHeader T') with rxh := restrictToLayout T.params T.txh, hdrValid := true }

/-- "The CRC detects every single-bit error and every error burst of length ≤ 8" (R154, general knowledge of the spec):
take a state whose header passes its check, and a memory that differs from it in the decisions of header samples
`j .. j+7` only, in at least one of them. HDR_PARSE then records HDR_CRC (code 7) and drops the frame. -/
def Obligations.HeaderBurstErrorsAreCaught : Prop :=
  ∀ (s t : State) (m : Memory) (j : Nat), Inv s → exec .hdrParse s = .next t → t.hdrValid = true →
    (∀ i, i < headerLen s.params → i < j ∨ j + 8 ≤ i → hard (readByte m (0x200 + i)) = hard (readByte s.mem (0x200 + i))) →
    (∃ i, i < headerLen s.params ∧ hard (readByte m (0x200 + i)) ≠ hard (readByte s.mem (0x200 + i))) →
    exec .hdrParse { s with mem := m } = .next (recorded 7 { s with mem := m, hdrValid := false })

/-- The scrambler undoes itself, and with seed 0 it is the identity (R146). -/
def Obligations.ScramblerUndoesItself : Prop :=
  (∀ (seed : BitVec 7) (s : Bits), scramble seed (scramble seed s) = s) ∧ ∀ s : Bits, scramble 0 s = s

/-! ## Receive side -/

/-- RX_FRAME without a valid header raises HDR_NOVALID (code 8) and changes nothing else (R218, R271). -/
def Obligations.RxFrameNeedsAValidHeader : Prop :=
  ∀ s : State, s.params.fecEn = true → s.hdrValid = false → exec .rxFrame s = .next (recorded 8 s)

/-- R211: when a header range check fails, RX_FRAME raises HDR_BADFIELD (code 9), clears `hdrValid` and changes nothing
else; when all pass it does not raise it. -/
def Obligations.BadHeaderFieldDropsTheFrame : Prop :=
  ∀ s : State, s.params.fecEn = true → s.hdrValid = true →
    ((∀ c, ¬RangeOk s.params s.rxh c) → exec .rxFrame s = .next (recorded 9 { s with hdrValid := false })) ∧
    ((∃ c, RangeOk s.params s.rxh c) → ∃ t, exec .rxFrame s = .next t ∧ t.err.getLsbD 9 = s.err.getLsbD 9)

/-- RX_FRAME completes on a valid header with room in both queues (R212 to R218): it appends bits and reports, the bits
being those the reports count (a count of 65536 is a free value, log 5); `ERR` gains CW_FAIL and CW_LOST exactly for the failed and lost codewords of the reports,
and `CAUSE` is that of the last of them (R277); nothing else changes but the partial and `hdrValid`. -/
def Obligations.RxFrameCompletesWithRoom : Prop :=
  ∀ (s : State) (c : Code), Inv s → s.params.fecEn = true → s.hdrValid = true → RangeOk s.params s.rxh c →
    s.rxq.length + (s.rxh.plen.toNat * s.rxh.mod.toNat + c.n) ≤ s.params.rxqCap →
    s.rep.length + (s.rxh.plen.toNat * s.rxh.mod.toNat + 2) ≤ s.params.cwrepCap →
    ∃ (out : Bits) (reps : List Report) (q : Option Partial) (e : Word) (ca : BitVec 8),
      exec .rxFrame s = .next { s with
        rxq := s.rxq ++ out, rep := s.rep ++ reps, part := q, hdrValid := false, err := e, cause := ca } ∧
      (c.k < 65536 → out.length = (reps.map fun r => r.nbits.toNat).sum) ∧
      (∀ r ∈ reps, r.status = .failDropped ∨ r.status = .lost → r.nbits = 0) ∧
      e = s.err ||| (if reps.any (fun r => r.status == .failDropped || r.status == .failFlagged) then 0x400 else 0) |||
          (if reps.any (fun r => r.status == .lost) then 0x800 else 0) ∧
      ca = (match (reps.filter fun r => r.status != .ok).getLast? with
        | none => s.cause
        | some r => if r.status = .lost then 11 else 10)

/-- All or nothing (R217, R309): let a frame succeed where the queues are larger. Where its results fit the instance's
own queues RX_FRAME gives the same; where they do not it raises RXQ_OVF (code 6) and changes nothing else. -/
def Obligations.RxFrameIsAllOrNothing : Prop :=
  ∀ (s t : State) (c : Code) (capQ capR : Nat), s.params.fecEn = true → s.hdrValid = true →
    RangeOk s.params s.rxh c →
    exec .rxFrame { s with params := { s.params with rxqCap := capQ, cwrepCap := capR } } = .next t →
    t.hdrValid = false →
    (t.rxq.length ≤ s.params.rxqCap ∧ t.rep.length ≤ s.params.cwrepCap →
      exec .rxFrame s = .next { t with params := s.params }) ∧
    (s.params.rxqCap < t.rxq.length ∨ s.params.cwrepCap < t.rep.length →
      exec .rxFrame s = .next (recorded 6 s))

/-- A frame that is one whole codeword (R213, R214, R215): the decoded bits less the header's SHORT, and the report, by
the decoder's verdict and the failure policy (a count of 65536 is a free value, log 5). -/
def Obligations.WholeCodewordIsDecodedByThePolicy : Prop :=
  ∀ (s : State) (c : Code), s.params.fecEn = true → s.hdrValid = true → RangeOk s.params s.rxh c →
    s.rxh.off = 0 → s.part = none → 1 ≤ c.k → c.k ≤ c.n →
    s.rxh.plen.toNat * s.rxh.mod.toNat = c.n →
    s.rxq.length + c.k ≤ s.params.rxqCap → s.rep.length + 1 ≤ s.params.cwrepCap →
    let y := (List.range c.n).map fun j => readByte s.mem (0x8000 + j)
    let kept := c.k - s.rxh.short.toNat
    let data := (decodeWord c y).2.take kept
    ∃ nb : BitVec 16, (kept < 65536 → nb.toNat = kept) ∧
    ((decodeWord c y).1 = true →
      exec .rxFrame s = .next { s with
        rxq := s.rxq ++ data
        rep := s.rep ++ [⟨s.rxh.cwid, .ok, nb⟩]
        hdrValid := false }) ∧
    ((decodeWord c y).1 = false → s.failFlag = false →
      exec .rxFrame s = .next (recorded 10 { s with
        rep := s.rep ++ [⟨s.rxh.cwid, .failDropped, 0⟩]
        hdrValid := false })) ∧
    ((decodeWord c y).1 = false → s.failFlag = true →
      exec .rxFrame s = .next (recorded 10 { s with
        rxq := s.rxq ++ data
        rep := s.rep ++ [⟨s.rxh.cwid, .failFlagged, nb⟩]
        hdrValid := false }))

/-- A frame whose first samples continue the partial (R212): too few of them only extend it; exactly the missing ones
complete the codeword, which is decoded with the shortening it was given in the frame it began in (R214), by the
decoder's verdict and the failure policy (R215; a count of 65536 is a free value, log 5). -/
def Obligations.ContinuationExtendsOrCompletesThePartial : Prop :=
  ∀ (s : State) (c : Code) (q : Partial), Inv s → s.params.fecEn = true → s.hdrValid = true →
    RangeOk s.params s.rxh c → s.part = some q → q.id = s.rxh.cwid → q.fec = s.rxh.fec →
    q.y.length = s.rxh.off.toNat →
    s.rxq.length + c.k ≤ s.params.rxqCap → s.rep.length + 1 ≤ s.params.cwrepCap →
    let total := s.rxh.plen.toNat * s.rxh.mod.toNat
    let y := q.y ++ (List.range total).map fun j => readByte s.mem (0x8000 + j)
    let kept := c.k - q.short
    let data := (decodeWord c y).2.take kept
    (total < c.n - s.rxh.off.toNat →
      exec .rxFrame s = .next { s with part := some { q with y := y }, hdrValid := false }) ∧
    (total = c.n - s.rxh.off.toNat → ∃ nb : BitVec 16, (kept < 65536 → nb.toNat = kept) ∧
      ((decodeWord c y).1 = true →
        exec .rxFrame s = .next { s with
          rxq := s.rxq ++ data
          rep := s.rep ++ [⟨q.id, .ok, nb⟩]
          part := none
          hdrValid := false }) ∧
      ((decodeWord c y).1 = false → s.failFlag = false →
        exec .rxFrame s = .next (recorded 10 { s with
          rep := s.rep ++ [⟨q.id, .failDropped, 0⟩]
          part := none
          hdrValid := false })) ∧
      ((decodeWord c y).1 = false → s.failFlag = true →
        exec .rxFrame s = .next (recorded 10 { s with
          rxq := s.rxq ++ data
          rep := s.rep ++ [⟨q.id, .failFlagged, nb⟩]
          part := none
          hdrValid := false })))

/-- Lost codewords (R212, R216), each reported and CW_LOST (code 11) raised. OFF = 0: a pending partial is lost, and the
frame then gives what it gives after that loss. OFF > 0 and no partial: the codeword is lost in the frame that holds its
end, and a frame without its end leaves no trace. OFF > 0 and a partial that does not match: a partial of another id is
lost, one of the same id is dropped without a report of its own, and the codeword itself is lost where its end is here. -/
def Obligations.LostCodewordsAreReported : Prop :=
  ∀ (s : State) (c : Code), s.params.fecEn = true → s.hdrValid = true → RangeOk s.params s.rxh c →
    s.rxq.length ≤ s.params.rxqCap →
    let total := s.rxh.plen.toNat * s.rxh.mod.toNat
    let need := c.n - s.rxh.off.toNat
    let room (m : Nat) : Prop := s.rep.length + m ≤ s.params.cwrepCap
    let dropped : State := { s with part := none, hdrValid := false }
    let lost (ids : List (BitVec 16)) : State :=
      recorded 11 { dropped with rep := s.rep ++ ids.map fun id => ⟨id, .lost, 0⟩ }
    (∀ q, s.part = some q → s.rxh.off = 0 →
      (s.rxh.plen = 0 → room 1 → exec .rxFrame s = .next (lost [q.id])) ∧
      ∀ t, exec .rxFrame (recorded 11 { s with part := none, rep := s.rep ++ [⟨q.id, .lost, 0⟩] }) = .next t →
        t.hdrValid = false → exec .rxFrame s = .next t) ∧
    (s.part = none → 0 < s.rxh.off.toNat →
      (total = need → room 1 → exec .rxFrame s = .next (lost [s.rxh.cwid])) ∧
      (total < need → room 0 → exec .rxFrame s = .next dropped)) ∧
    ∀ q, s.part = some q → 0 < s.rxh.off.toNat →
      ¬(q.id = s.rxh.cwid ∧ q.fec = s.rxh.fec ∧ q.y.length = s.rxh.off.toNat) →
      (q.id ≠ s.rxh.cwid → total < need → room 1 → exec .rxFrame s = .next (lost [q.id])) ∧
      (q.id ≠ s.rxh.cwid → total = need → room 2 → exec .rxFrame s = .next (lost [q.id, s.rxh.cwid])) ∧
      (q.id = s.rxh.cwid → total < need → room 0 → exec .rxFrame s = .next dropped) ∧
      (q.id = s.rxh.cwid → total = need → room 1 → exec .rxFrame s = .next (lost [s.rxh.cwid]))

/-- R219: RX_POP in full, its encoding, its refusals in their order and the bits it takes into RXOUT. -/
def Obligations.RxPopTakesBitsIntoRxout : Prop :=
  (∀ w : Word, w.extractLsb' 0 8 = 0x31#8 → w.extractLsb' 8 8 = 0#8 → w.extractLsb' 20 12 = 0#12 →
    decodeCommand w = .ok (.rxPop (w.extractLsb' 16 4))) ∧
  ∀ (cnt : BitVec 4) (s : State),
    let m := min cnt.toNat s.rxq.length
    exec (.rxPop cnt) s = .next (
      if s.params.fecEn = false then recorded 2 s
      else if cnt.toNat < 1 ∨ 8 < cnt.toNat then recorded 3 s
      else { s with
        rxq := s.rxq.drop m
        rxout := BitVec.ofNat 32
          (((List.range m).map fun j => (s.rxq.getD j false).toNat * 2 ^ (7 - j)).sum + m * 2 ^ 8) })

/-- R220: CWREP_POP in full, with its word: the oldest report into CWREP and CWREP_NB, or 0 in both when there is none. -/
def Obligations.CwrepPopTakesTheOldestReport : Prop :=
  decodeCommand 0x00000032 = .ok .cwrepPop ∧ ∀ s : State,
    exec .cwrepPop s = .next (
      if s.params.fecEn = false then recorded 2 s
      else match s.rep with
        | [] => { s with cwrep := 0, cwrepNb := 0 }
        | e :: rest => { s with
            rep := rest
            cwrep := e.id.setWidth 32 |||
              ((match e.status with | .ok => 0 | .failDropped => 1 | .failFlagged => 2 | .lost => 3) <<< 16) |||
              BitVec.twoPow 32 19
            cwrepNb := e.nbits.setWidth 32 })

/-! ## Host accesses -/

/-- A 32-bit read of each register returns its value, reserved bits 0, and changes nothing (R33 to R43, R45 to R48, R51
to R55, R59, R60, R252): CAPS the constants of a well-formed parameter set (R34), STATUS its five bits (R44, R275), CMD
0 (R84), and a level register the length of its queue, where that fits 32 bits (log 5). -/
def Obligations.RegisterReadsReturnTheirFields : Prop :=
  ∀ s : State,
    let stop : Bool := decide (s.maxEmpty ≠ 0xFFFF ∧ s.maxEmpty.toNat < s.emptyCount.toNat)
    let irq : Bool := ((List.range 13).any fun c => decide (1 ≤ c) && s.err.getLsbD c && s.ie.getLsbD c) ||
      (stop && s.ie.getLsbD 16)
    (∀ av ∈ ([
      (0x000, 0x44544C01), (0x008, s.scrEn.toNat + 2 * s.failFlag.toNat), (0x00C, s.mcsMod.toNat + 16 * s.mcsFec.toNat),
      (0x010, s.flen.toNat), (0x014, s.echoMod.toNat + 16 * s.echoFec.toNat), (0x018, s.maxEmpty.toNat),
      (0x01C, s.floor.toNat), (0x020, s.ie.toNat),
      (0x024, stop.toNat + 2 * s.rem.isSome.toNat + 4 * s.part.isSome.toNat + 8 * s.hdrValid.toNat + 16 * irq.toNat),
      (0x028, s.err.toNat), (0x02C, s.cause.toNat), (0x030, 0),
      (0x040, s.frameNo.toNat), (0x044, s.nextCwId.toNat), (0x048, s.emptyCount.toNat), (0x04C, s.txPbits.toNat),
      (0x050, s.txh.plen.toNat + 65536 * s.txh.flen.toNat), (0x054, s.txh.seq.toNat),
      (0x058, s.txh.mod.toNat + 16 * s.txh.fec.toNat + 256 * s.txh.emod.toNat + 4096 * s.txh.efec.toNat),
      (0x05C, s.txh.cwid.toNat), (0x060, s.txh.off.toNat + 65536 * s.txh.short.toNat),
      (0x070, s.rxh.plen.toNat + 65536 * s.rxh.flen.toNat), (0x074, s.rxh.seq.toNat),
      (0x078, s.rxh.mod.toNat + 16 * s.rxh.fec.toNat + 256 * s.rxh.emod.toNat + 4096 * s.rxh.efec.toNat),
      (0x07C, s.rxh.cwid.toNat), (0x080, s.rxh.off.toNat + 65536 * s.rxh.short.toNat), (0x084, s.rxout.toNat),
      (0x088, s.cwrep.toNat), (0x08C, s.cwrepNb.toNat)] : List (Nat × Nat)),
      exec (.rd (BitVec.ofNat 16 av.1) 4) s = .next { s with rdata := BitVec.ofNat 32 av.2 }) ∧
    (paramsWf s.params = true →
      exec (.rd 0x004 4) s = .next { s with
        rdata := BitVec.ofNat 32 (s.params.fecEn.toNat + 2 * (if s.params.fecEn then 2 else 1) +
          8 * (s.params.hc * if s.params.fecEn then 2 else 1) + 4096 * s.params.nc) }) ∧
    ∀ al ∈ ([(0x034, s.txq.length), (0x038, s.rxq.length), (0x03C, s.rep.length)] : List (Nat × Nat)),
      ∃ v : Word, exec (.rd (BitVec.ofNat 16 al.1) 4) s = .next { s with rdata := v } ∧
        (al.2 < 2 ^ 32 → v.toNat = al.2)

/-- R44: the bits of STATUS, each computed from the state, with the interrupt line of R275; after reset all are 0. -/
def Obligations.StatusBitsFollowTheState : Prop :=
  (∀ s : State, ∃ v : Word, exec (.rd 0x024 4) s = .next { s with rdata := v } ∧
    let stop := decide (s.maxEmpty ≠ 0xFFFF ∧ s.maxEmpty.toNat < s.emptyCount.toNat)
    v.getLsbD 0 = stop ∧ v.getLsbD 1 = decide (s.rem ≠ none) ∧ v.getLsbD 2 = decide (s.part ≠ none) ∧
      v.getLsbD 3 = s.hdrValid ∧
      (v.getLsbD 4 = true ↔
        (∃ c, 1 ≤ c ∧ c ≤ 12 ∧ s.err.getLsbD c = true ∧ s.ie.getLsbD c = true) ∨
          (stop = true ∧ s.ie.getLsbD 16 = true)) ∧
      ∀ j, 5 ≤ j → v.getLsbD j = false) ∧
  ∀ p : Params, exec (.rd 0x024 4) (State.resetWith p) = .next { State.resetWith p with rdata := 0 }

/-- A 32-bit read of a window word returns its 32 stream bits, the earliest in bit 31, or its four samples, the earliest
in the lowest byte, and changes nothing (R86, R87, R89). -/
def Obligations.WindowReadsReturnBitsAndSamples : Prop :=
  ∀ s : State,
    (∀ q, q < 8 → ∃ v, exec (.rd (BitVec.ofNat 16 (0x100 + 4 * q)) 4) s = .next { s with rdata := v } ∧
      ∀ r, r < 32 → v.getLsbD (31 - r) = readBit s.mem 0x100 (32 * q + r)) ∧
    (∀ q, q < 1024 → ∃ v, exec (.rd (BitVec.ofNat 16 (0x1000 + 4 * q)) 4) s = .next { s with rdata := v } ∧
      ∀ r, r < 32 → v.getLsbD (31 - r) = readBit s.mem 0x1000 (32 * q + r)) ∧
    (∀ q, q < 64 → ∃ v, exec (.rd (BitVec.ofNat 16 (0x200 + 4 * q)) 4) s = .next { s with rdata := v } ∧
      ∀ r, r < 4 → v.extractLsb' (8 * r) 8 = readSample s.mem 0x200 (4 * q + r)) ∧
    (∀ q, q < 8192 → ∃ v, exec (.rd (BitVec.ofNat 16 (0x8000 + 4 * q)) 4) s = .next { s with rdata := v } ∧
      ∀ r, r < 4 → v.extractLsb' (8 * r) 8 = readSample s.mem 0x8000 (4 * q + r))

/-- A 32-bit write to a sample window stores its four samples, the lowest byte first, and nothing else (R87, R254). -/
def Obligations.SampleWindowWritesStoreFourSamples : Prop :=
  ∀ (s : State) (a : BitVec 16) (v : Word), Memory.wf s.mem → (InHdrIn a.toNat ∨ InRxSoft a.toNat) → a.toNat % 4 = 0 →
    ∃ m, exec (.wr a v 4) s = .next { s with mem := m } ∧
      (∀ r, r < 4 → readByte m (a.toNat + r) = v.extractLsb' (8 * r) 8) ∧
      SameBytes (fun x => x < a.toNat ∨ a.toNat + 4 ≤ x) s.mem m

/-- R82, R83, R84: an access of another size, at an address that is not a multiple of 4, or unmapped returns 0 or changes
nothing, and raises BUS (code 12); so does a write to a read-only place; a read of CMD returns 0 and raises nothing. -/
def Obligations.BadAccessesRaiseBus : Prop :=
  ∀ (s : State) (a : BitVec 16) (v : Word) (size : Nat),
    (size ≠ 4 ∨ a.toNat % 4 ≠ 0 ∨ UnmappedWord a.toNat →
      exec (.rd a size) s = .next (recorded 12 { s with rdata := 0 }) ∧
        exec (.wr a v size) s = .next (recorded 12 s)) ∧
    (ReadOnlyWord a.toNat → exec (.wr a v size) s = .next (recorded 12 s)) ∧
    exec (.rd 0x030 4) s = .next { s with rdata := 0 }

/-- The write effects of R254 on the plain registers: the named fields are stored, reserved bits are ignored (R85). -/
def Obligations.RegisterWritesStoreTheirFields : Prop :=
  ∀ (s : State) (v : Word),
    exec (.wr 0x008 v 4) s = .next { s with scrEn := v.getLsbD 0, failFlag := v.getLsbD 1 } ∧
    exec (.wr 0x014 v 4) s = .next { s with echoMod := v.extractLsb' 0 4, echoFec := v.extractLsb' 4 4 } ∧
    exec (.wr 0x018 v 4) s = .next { s with maxEmpty := v.extractLsb' 0 16 } ∧
    exec (.wr 0x01C v 4) s = .next { s with floor := v.extractLsb' 0 16 } ∧
    exec (.wr 0x020 v 4) s = .next { s with ie := v &&& 0x00011FFE } ∧
    exec (.wr 0x050 v 4) s =
      .next { s with txh := { s.txh with plen := v.extractLsb' 0 16, flen := v.extractLsb' 16 16 } } ∧
    exec (.wr 0x054 v 4) s = .next { s with txh := { s.txh with seq := v.extractLsb' 0 16 } } ∧
    exec (.wr 0x058 v 4) s =
      .next { s with
        txh := { s.txh with
          mod := v.extractLsb' 0 4
          fec := v.extractLsb' 4 4
          emod := v.extractLsb' 8 4
          efec := v.extractLsb' 12 4 } } ∧
    exec (.wr 0x05C v 4) s = .next { s with txh := { s.txh with cwid := v.extractLsb' 0 16 } } ∧
    exec (.wr 0x060 v 4) s =
      .next { s with txh := { s.txh with off := v.extractLsb' 0 16, short := v.extractLsb' 16 16 } }

/-- R38: a write to MCS sets both fields when it is legal, and otherwise raises CFG_REJECT (code 4) and changes nothing. -/
def Obligations.McsWriteIsCheckedAndAtomic : Prop :=
  ∀ (s : State) (v : Word),
    let m := v.extractLsb' 0 4
    let f := v.extractLsb' 4 4
    let legal := (m.toNat = 1 ∨ m.toNat = 2 ∨ m.toNat = 3 ∨ m.toNat = 4) ∧
      (if s.params.fecEn then ∃ c ∈ s.params.codes, c.id = f else f = 0)
    (legal → exec (.wr 0x00C v 4) s = .next { s with mcsMod := m, mcsFec := f }) ∧
    (¬legal → exec (.wr 0x00C v 4) s = .next (recorded 4 s))

/-- R39: a write to FLEN is stored when it is legal, and otherwise raises CFG_REJECT (code 4) and changes nothing. -/
def Obligations.FlenWriteIsChecked : Prop :=
  (∀ (s : State) (v : Word),
    let l := v.extractLsb' 0 16
    let legal := 1 ≤ l.toNat ∧ l.toNat ≤ 2 ^ s.params.wFlen - 1 ∧ l.toNat * s.params.nc ≤ 2 ^ s.params.wPlen - 1 ∧
      l.toNat * s.params.nc * 4 ≤ 32768
    (legal → exec (.wr 0x010 v 4) s = .next { s with flen := l }) ∧
    (¬legal → exec (.wr 0x010 v 4) s = .next (recorded 4 s))) ∧
  ∀ p : Params, (State.resetWith p).flen = p.initFlen

/-- R255: a write to ERR clears the bits written 1 among 1..12 and nothing else, CAUSE among it; clearing so is the only
way, apart from reset, to lower a bit. -/
def Obligations.ErrBitsAreClearedOnlyByTheHost : Prop :=
  (∀ (s : State) (v : Word), ∃ e : Word, exec (.wr 0x028 v 4) s = .next { s with err := e } ∧
    ∀ j, j < 32 → e.getLsbD j = (s.err.getLsbD j && !(decide (1 ≤ j ∧ j ≤ 12) && v.getLsbD j))) ∧
  ∀ (i : Instr) (s t : State) (c : Nat), i.wellFormed = true → exec i s = .next t → s.err.getLsbD c = true →
    t.err.getLsbD c = false → i = .softReset ∨ ∃ v : Word, i = .wr 0x028 v 4 ∧ v.getLsbD c = true

/-- No command but SOFT_RESET, and no read, changes a configuration register or a parameter: "nothing in the block writes"
MCS (R36), and only host writes change the others (R31, R254). -/
def Obligations.CommandsKeepTheConfiguration : Prop :=
  ∀ (i : Instr) (s t : State), exec i s = .next t → i ≠ .softReset → (∀ a v z, i ≠ .wr a v z) → SameConfig s t

/-- Window persistence (R97): HDR_OUT changes only by HDR_BUILD, TX_BUILD and reset; PAYLOAD_OUT only by TX_BUILD and
reset; HDR_IN and RX_SOFT only by host writes to them and reset. -/
def Obligations.WindowsChangeOnlyByTheirWriters : Prop :=
  ∀ (i : Instr) (s t : State), Inv s → i.wellFormed = true → exec i s = .next t → i ≠ .softReset →
    (i ≠ .hdrBuild → i ≠ .txBuild → SameBytes InHdrOut s.mem t.mem) ∧
    (i ≠ .txBuild → SameBytes InPayloadOut s.mem t.mem) ∧
    ((∀ a v, i = .wr a v 4 → ¬InHdrIn a.toNat) → SameBytes InHdrIn s.mem t.mem) ∧
    ((∀ a v, i = .wr a v 4 → ¬InRxSoft a.toNat) → SameBytes InRxSoft s.mem t.mem)

/-- "no command of one side reads or writes the other side's state" (R284): a command of one side leaves the other side
as it is, and what it does to its own side is determined by the configuration and its own side. -/
def Obligations.TxAndRxSidesAreIndependent : Prop :=
  (∀ (i : Instr) (s t : State), isTxCommand i = true → exec i s = .next t → SameRxSide s t) ∧
  (∀ (i : Instr) (s t : State), isRxCommand i = true → exec i s = .next t → SameTxSide s t) ∧
  (∀ (i : Instr) (s s' t : State), isTxCommand i = true → SameConfig s s' → SameTxSide s s' → exec i s = .next t →
    ∃ t', exec i s' = .next t' ∧ SameTxSide t t') ∧
  ∀ (i : Instr) (s s' t : State), isRxCommand i = true → Inv s → SameConfig s s' → SameRxSide s s' →
    exec i s = .next t → ∃ t', exec i s' = .next t' ∧ SameRxSide t t'

/-! ## The link -/

/-- The FEC round trip (R221), for every code and modulation where the codewords of each frame are no shorter than a
symbol (`n ≥ bps`; so for every code in BPSK, and for every modulation where `n ≥ 4`): a run of pushes, MCS and FLEN
writes and builds from construction, every frame delivered, no push refused, and as many bits pushed as `RXQ_CAP` and
`CWREP_CAP` of the receiver hold at most (its host pops nothing), gives back a prefix of the bits pushed, all of them once
the transmitter is drained, every report OK and no cause raised at the receiver. That R221 is restricted to `n ≥ bps` is
the model's reading (log 14). -/
def Obligations.LinkReturnsTheBitsPushed : Prop :=
  ∀ (p : Params) (scr : Bool) (es : List LinkEvent) (T R : State),
    paramsWf p = true → p.fecEn = true →
    linkFillsSymbols es ({ State.resetWith p with scrEn := scr }, { State.resetWith p with scrEn := scr }) = true →
    (pushedBits es).length ≤ p.rxqCap → (pushedBits es).length ≤ p.cwrepCap →
    linkRun es ({ State.resetWith p with scrEn := scr }, { State.resetWith p with scrEn := scr }) = some (T, R) →
    T.err.getLsbD 3 = false → T.err.getLsbD 5 = false →
    R.rxq <+: pushedBits es ∧ (T.txq = [] → T.rem = none → R.rxq = pushedBits es) ∧
      (∀ e ∈ R.rep, e.status = .ok) ∧ R.err = 0

/-- The same for "every code of `CODES`", the codes of R221: expected to fail. With codewords shorter than a symbol
(`n < bps`) several of them end in the last symbol of a frame (R182), and the receiver begins only one there (R213;
log 14). The premises are those of the link statement before it: no push refused, the pushed bits within `RXQ_CAP` and
`CWREP_CAP`, and the transmitter drained. -/
def Obligations.LinkReturnsTheBitsPushedForEveryCode : Prop :=
  ∀ (p : Params) (scr : Bool) (es : List LinkEvent) (T R : State),
    paramsWf p = true → p.fecEn = true →
    (pushedBits es).length ≤ p.rxqCap → (pushedBits es).length ≤ p.cwrepCap →
    linkRun es ({ State.resetWith p with scrEn := scr }, { State.resetWith p with scrEn := scr }) = some (T, R) →
    T.err.getLsbD 3 = false → T.err.getLsbD 5 = false → T.txq = [] → T.rem = none →
    R.rxq = pushedBits es ∧ (∀ e ∈ R.rep, e.status = .ok) ∧ R.err = 0

/-! ## Frames of several codewords -/

/-- RX_FRAME on any frame (R212 to R218, R277): the leading codeword first, then the new codewords, one beginning at every
`n` samples while at least `bps` are left, with rising ids. Every whole one is decoded and gives its bits and its report
in order, whatever the verdict on the others; SHORT goes to the last of them only; one that the frame cuts becomes the
new partial with its id and shortening. All results are committed, or none with RXQ_OVF (code 6). A report's count of
65536 is a free value (log 5). -/
def Obligations.SeveralCodewordsAreDecodedInOrder : Prop :=
  ∀ (s : State) (c : Code), Inv s → s.params.fecEn = true → s.hdrValid = true → RangeOk s.params s.rxh c →
    let h := s.rxh
    let b := h.mod.toNat
    let total := h.plen.toNat * b
    let lead := leadingResult s c total
    let pos := if h.off = 0 then 0 else min (c.n - h.off.toNat) total
    let first := if h.off = 0 then h.cwid.toNat else h.cwid.toNat + 1
    let count := if total - pos < b then 0 else (total - pos - b) / c.n + 1
    let start (i : Nat) : Nat := pos + i * c.n
    let id (i : Nat) : BitVec 16 := BitVec.ofNat 16 ((first + i) % 2 ^ s.params.wCwid)
    let short (i : Nat) : Nat := if i + 1 = count then h.short.toNat else 0
    let whole := (List.range count).filter fun i => start i + c.n ≤ total
    let results := whole.map fun i => codewordResult s c (id i) (rxSamples s (start i) c.n) (short i)
    let last := count - 1
    let out := lead.1 ++ results.flatMap (·.1)
    let reps := lead.2.1 ++ results.map (·.2)
    let part' : Option Partial :=
      if count ≠ 0 ∧ total < start last + c.n then
        some ⟨id last, h.fec, rxSamples s (start last) (total - start last), short last⟩
      else lead.2.2
    (s.rxq.length + out.length ≤ s.params.rxqCap → s.rep.length + reps.length ≤ s.params.cwrepCap →
      exec .rxFrame s = .next { withReports s reps with rxq := s.rxq ++ out, part := part', hdrValid := false }) ∧
    (s.params.rxqCap < s.rxq.length + out.length ∨ s.params.cwrepCap < s.rep.length + reps.length →
      exec .rxFrame s = .next (recorded 6 s))
end

