-- ==== Sys2Proof/Laws/Memory.lean ====
section
/-!
SUPPORT. The laws of the memory operations: what a read answers after each, and that each keeps the canonical form.
-/

namespace Sys2Proof.Machine

theorem wf_nil : Memory.wf [] := ⟨List.Pairwise.nil, by simp⟩

theorem wf_cons {c : Host.Cell} {m : Memory} :
    Memory.wf (c :: m) ↔ (∀ d ∈ m, c.1 < d.1) ∧ c.2 ≠ unlisted ∧ Memory.wf m := by
  simp only [Memory.wf, List.pairwise_cons, List.forall_mem_cons]
  tauto

theorem mem_cell {a : Nat} {b : Byte} {c : Host.Cell} : c ∈ cell a b ↔ b ≠ unlisted ∧ c = (a, b) := by
  unfold cell; split <;> simp_all

theorem wf_cell (a : Nat) (b : Byte) : Memory.wf (cell a b) := by
  unfold cell; split
  · exact wf_nil
  · rename_i h; exact wf_cons.2 ⟨by simp, h, wf_nil⟩

/-- Joining two canonical memories, all addresses of the first below those of the second. -/
theorem wf_append {m n : Memory} (hm : Memory.wf m) (hn : Memory.wf n) (h : ∀ c ∈ m, ∀ d ∈ n, c.1 < d.1) :
    Memory.wf (m ++ n) :=
  ⟨List.pairwise_append.2 ⟨hm.1, hn.1, h⟩, fun c hc => (List.mem_append.1 hc).elim (hm.2 c) (hn.2 c)⟩

theorem wf_filter {m : Memory} (p : Host.Cell → Bool) (h : Memory.wf m) : Memory.wf (m.filter p) :=
  ⟨h.1.filter p, fun c hc => h.2 c (List.mem_of_mem_filter hc)⟩

/-- An address that no cell has reads as unlisted. -/
theorem readByte_eq_unlisted {m : Memory} {a : Nat} (h : ∀ c ∈ m, c.1 ≠ a) : readByte m a = unlisted := by
  induction m with
  | nil => rfl
  | cons c m ih =>
    obtain ⟨x, b⟩ := c
    have hx : x ≠ a := h (x, b) (by simp)
    simp [readByte, hx, ih fun d hd => h d (by simp [hd])]

/-- Reading past a memory that has no cell of the address. -/
theorem readByte_append_right {m : Memory} (n : Memory) {a : Nat} (h : ∀ c ∈ m, c.1 ≠ a) :
    readByte (m ++ n) a = readByte n a := by
  induction m with
  | nil => rfl
  | cons c m ih =>
    obtain ⟨x, b⟩ := c
    have hx : x ≠ a := h (x, b) (by simp)
    simp [readByte, hx, ih fun d hd => h d (by simp [hd])]

/-- Reading before a memory that has no cell of the address. -/
theorem readByte_append_left (m : Memory) {n : Memory} {a : Nat} (h : ∀ c ∈ n, c.1 ≠ a) :
    readByte (m ++ n) a = readByte m a := by
  induction m with
  | nil => exact readByte_eq_unlisted h
  | cons c m ih =>
    obtain ⟨x, b⟩ := c
    simp [readByte, ih]

@[simp] theorem readByte_cell (a : Nat) (b : Byte) (x : Nat) :
    readByte (cell a b) x = if a = x then b else unlisted := by
  unfold cell
  split
  · rename_i h; simp [readByte, h]
  · simp [readByte]

/-- Read after write (canonical memory): the byte written there, every other byte as before. -/
theorem readByte_writeByte {m : Memory} (hm : Memory.wf m) (a : Nat) (b : Byte) (x : Nat) :
    readByte (writeByte m a b) x = if a = x then b else readByte m x := by
  induction m with
  | nil => simp [writeByte, readByte]
  | cons c m ih =>
    obtain ⟨y, e⟩ := c
    obtain ⟨hlt, _, hm'⟩ := wf_cons.1 hm
    unfold writeByte
    have hnone : ∀ z, z ≤ y → readByte m z = unlisted := fun z hz =>
      readByte_eq_unlisted fun d hd => by have := hlt d hd; simp at this; omega
    have happ (n : Memory) (hn : readByte n a = unlisted) :
        readByte (cell a b ++ n) x = if a = x then b else readByte n x := by
      unfold cell
      split
      · rename_i hb
        by_cases hx : a = x
        · subst hx; simp [hn, hb]
        · simp [hx]
      · rfl
    split
    · rename_i h
      rw [happ _ (by simp [readByte, show y ≠ a by omega, hnone a (by omega)])]
    · split
      · rename_i h1 h2
        rw [happ _ (hnone a (by omega))]
        by_cases hx : a = x
        · simp [hx]
        · simp [hx, readByte, show y ≠ x by omega]
      · rename_i h1 h2
        simp only [readByte, ih hm']
        by_cases hx : y = x
        · simp [hx, show a ≠ x by omega]
        · simp [hx]

theorem mem_writeByte {m : Memory} {a : Nat} {b : Byte} {c : Host.Cell} (h : c ∈ writeByte m a b) :
    c ∈ m ∨ (b ≠ unlisted ∧ c = (a, b)) := by
  induction m with
  | nil => exact .inr (mem_cell.1 h)
  | cons d m ih =>
    obtain ⟨y, e⟩ := d
    unfold writeByte at h
    split at h
    · rcases List.mem_append.1 h with h | h
      · exact .inr (mem_cell.1 h)
      · exact .inl h
    · split at h
      · rcases List.mem_append.1 h with h | h
        · exact .inr (mem_cell.1 h)
        · exact .inl (List.mem_cons_of_mem _ h)
      · rcases List.mem_cons.1 h with h | h
        · exact .inl (h ▸ List.mem_cons_self)
        · exact (ih h).imp_left (List.mem_cons_of_mem _)

/-- Storing a byte keeps the canonical form. -/
theorem wf_writeByte {m : Memory} (hm : Memory.wf m) (a : Nat) (b : Byte) : Memory.wf (writeByte m a b) := by
  induction m with
  | nil => exact wf_cell a b
  | cons d m ih =>
    obtain ⟨y, e⟩ := d
    obtain ⟨hlt, he, hm'⟩ := wf_cons.1 hm
    unfold writeByte
    split
    · rename_i h
      refine wf_append (wf_cell a b) hm fun c hc d hd => ?_
      obtain ⟨_, rfl⟩ := mem_cell.1 hc
      rcases List.mem_cons.1 hd with rfl | hd
      · exact h
      · exact h.trans (hlt d hd)
    · split
      · rename_i _ h
        subst h
        refine wf_append (wf_cell a b) hm' fun c hc d hd => ?_
        obtain ⟨_, rfl⟩ := mem_cell.1 hc
        exact hlt d hd
      · rename_i h1 h2
        refine wf_cons.2 ⟨fun d hd => ?_, he, ih hm'⟩
        rcases mem_writeByte hd with hd | ⟨_, rfl⟩
        · exact hlt d hd
        · simp only; omega

/-- Storing a word keeps the canonical form. -/
theorem wf_writeWord {m : Memory} (hm : Memory.wf m) (a : Nat) (v : Word) : Memory.wf (writeWord m a v) :=
  wf_writeByte (wf_writeByte (wf_writeByte (wf_writeByte hm _ _) _ _) _ _) _ _

/-- A byte after a word store: its lane of the word, or as before. -/
theorem readByte_writeWord {m : Memory} (hm : Memory.wf m) (a : Nat) (v : Word) (x : Nat) :
    readByte (writeWord m a v) x =
      if x = a then v.extractLsb' 0 8
      else if x = a + 1 then v.extractLsb' 8 8
      else if x = a + 2 then v.extractLsb' 16 8
      else if x = a + 3 then v.extractLsb' 24 8
      else readByte m x := by
  unfold writeWord
  have h0 := wf_writeByte hm a (v.extractLsb' 0 8)
  have h1 := wf_writeByte h0 (a + 1) (v.extractLsb' 8 8)
  have h2 := wf_writeByte h1 (a + 2) (v.extractLsb' 16 8)
  rw [readByte_writeByte h2, readByte_writeByte h1, readByte_writeByte h0, readByte_writeByte hm]
  split_ifs <;> first | rfl | omega

/-- The four lanes of a word, put together again, are the word. -/
theorem lanes_append (v : Word) :
    (v.extractLsb' 24 8 ++ v.extractLsb' 16 8 ++ v.extractLsb' 8 8 ++ v.extractLsb' 0 8 : BitVec 32) = v := by
  apply BitVec.eq_of_getLsbD_eq
  intro i hi
  rw [BitVec.getLsbD_append, BitVec.getLsbD_append, BitVec.getLsbD_append]
  simp only [BitVec.getLsbD_extractLsb']
  by_cases h1 : i < 8
  · simp [h1]
  · by_cases h2 : i < 16
    · simp [h1, show i - 8 < 8 by omega, show 8 + (i - 8) = i by omega]
    · by_cases h3 : i < 24
      · simp [h1, show ¬i - 8 < 8 by omega, show i - 8 - 8 < 8 by omega, show 16 + (i - 8 - 8) = i by omega]
      · simp [h1, show ¬i - 8 < 8 by omega, show ¬i - 8 - 8 < 8 by omega, show i - 8 - 8 - 8 < 8 by omega,
          show 24 + (i - 8 - 8 - 8) = i by omega]

/-- A word store is read back whole. -/
theorem readWord_writeWord {m : Memory} (hm : Memory.wf m) (a : Nat) (v : Word) :
    readWord (writeWord m a v) a = v := by
  unfold readWord
  simp only [readByte_writeWord hm]
  simp
  exact lanes_append v

theorem mem_cellsFrom {a : Nat} {bs : List Byte} {c : Host.Cell} (h : c ∈ cellsFrom a bs) :
    a ≤ c.1 ∧ c.1 < a + bs.length := by
  induction bs generalizing a with
  | nil => simp [cellsFrom] at h
  | cons b bs ih =>
    rcases List.mem_append.1 h with h | h
    · obtain ⟨_, rfl⟩ := mem_cell.1 h
      simp
    · have := ih h
      simp only [List.length_cons]
      omega

theorem wf_cellsFrom (a : Nat) (bs : List Byte) : Memory.wf (cellsFrom a bs) := by
  induction bs generalizing a with
  | nil => exact wf_nil
  | cons b bs ih =>
    refine wf_append (wf_cell a b) (ih (a + 1)) fun c hc d hd => ?_
    obtain ⟨_, rfl⟩ := mem_cell.1 hc
    have := mem_cellsFrom hd
    simp only
    omega

theorem readByte_cellsFrom (a : Nat) (bs : List Byte) (x : Nat) :
    readByte (cellsFrom a bs) x = if a ≤ x then bs.getD (x - a) unlisted else unlisted := by
  induction bs generalizing a with
  | nil => simp [cellsFrom, readByte]
  | cons b bs ih =>
    by_cases hx : a = x
    · subst hx
      rw [cellsFrom, readByte_append_left _ fun c hc => by have := mem_cellsFrom hc; omega]
      simp
    · rw [cellsFrom, readByte_append_right _ fun c hc => by obtain ⟨_, rfl⟩ := mem_cell.1 hc; exact hx, ih]
      by_cases hlt : a + 1 ≤ x
      · obtain ⟨d, rfl⟩ := Nat.exists_eq_add_of_le hlt
        simp [show a ≤ a + 1 + d by omega, show a + 1 + d - a = d + 1 by omega]
      · simp [hlt, show ¬a ≤ x by omega]

theorem length_take_le (len : Nat) (bs : List Byte) : (bs.take len).length ≤ len := by simp

/-- Replacing a window keeps the canonical form. -/
theorem wf_replaceWindow {m : Memory} (hm : Memory.wf m) (base len : Nat) (bs : List Byte) :
    Memory.wf (replaceWindow m base len bs) := by
  have hlen := length_take_le len bs
  refine wf_append (wf_append (wf_filter _ hm) (wf_cellsFrom _ _) ?_) (wf_filter _ hm) ?_
  · intro c hc d hd
    have h1 := (List.mem_filter.1 hc).2
    have h2 := mem_cellsFrom hd
    simp only [decide_eq_true_eq] at h1
    omega
  · intro c hc d hd
    have h2 := (List.mem_filter.1 hd).2
    simp only [decide_eq_true_eq] at h2
    rcases List.mem_append.1 hc with hc | hc
    · have h1 := (List.mem_filter.1 hc).2
      simp only [decide_eq_true_eq] at h1
      omega
    · have h1 := mem_cellsFrom hc
      omega

theorem readByte_filter {m : Memory} (p : Nat → Bool) (x : Nat) :
    readByte (m.filter fun c => p c.1) x = if p x then readByte m x else unlisted := by
  induction m with
  | nil => simp [readByte]
  | cons c m ih =>
    obtain ⟨y, b⟩ := c
    by_cases hy : y = x
    · subst hy
      by_cases hp : p y
      · simp [hp, readByte]
      · simp only [List.filter_cons, hp, Bool.false_eq_true, if_false]
        exact readByte_eq_unlisted fun d hd hdx => hp (hdx ▸ (List.mem_filter.1 hd).2)
    · by_cases hp : p y
      · simp [hp, readByte, hy, ih]
      · simp [hp, readByte, hy, ih]

/-- A byte after a window is replaced: inside it the new bytes, then zeros; outside it as before. -/
theorem readByte_replaceWindow {m : Memory} (base len : Nat) (bs : List Byte) (x : Nat) :
    readByte (replaceWindow m base len bs) x =
      if base ≤ x ∧ x < base + len then bs.getD (x - base) unlisted else readByte m x := by
  have hlow := readByte_filter (m := m) (fun a => decide (a < base)) x
  have hhigh := readByte_filter (m := m) (fun a => decide (base + len ≤ a)) x
  have nolow (h : ¬x < base) : ∀ c ∈ m.filter (fun c => decide (c.1 < base)), c.1 ≠ x := fun c hc hx =>
    h (hx ▸ by simpa using (List.mem_filter.1 hc).2)
  have nohigh (h : ¬base + len ≤ x) : ∀ c ∈ m.filter (fun c => decide (base + len ≤ c.1)), c.1 ≠ x := fun c hc hx =>
    h (hx ▸ by simpa using (List.mem_filter.1 hc).2)
  have nomid (h : ¬(base ≤ x ∧ x < base + len)) : ∀ c ∈ cellsFrom base (bs.take len), c.1 ≠ x := fun c hc hx => by
    have h1 := mem_cellsFrom hc
    have h2 := length_take_le len bs
    omega
  simp only [decide_eq_true_eq] at hlow hhigh
  unfold replaceWindow
  split
  · rename_i h
    rw [List.append_assoc, readByte_append_right _ (nolow (by omega)), readByte_append_left _ (nohigh (by omega)),
      readByte_cellsFrom, if_pos h.1]
    simp only [List.getD_eq_getElem?_getD]
    rw [List.getElem?_take_of_lt (by omega)]
  · rename_i h
    by_cases h1 : x < base
    · rw [readByte_append_left _ (nohigh (by omega)), readByte_append_left _ (nomid h), hlow, if_pos h1]
    · rw [List.append_assoc, readByte_append_right _ (nolow h1), readByte_append_right _ (nomid h), hhigh,
        if_pos (by omega)]

/-- Writing a bit window keeps the canonical form. -/
theorem wf_writeBits {m : Memory} (hm : Memory.wf m) (base size : Nat) (s : Bits) :
    Memory.wf (writeBits m base size s) := wf_replaceWindow hm _ _ _

/-- Writing a bit window leaves every byte outside it as it was. -/
theorem readByte_writeBits_outside {m : Memory} {base size : Nat} {s : Bits} {x : Nat}
    (h : ¬(base ≤ x ∧ x < base + size / 8)) : readByte (writeBits m base size s) x = readByte m x := by
  rw [writeBits, readByte_replaceWindow, if_neg h]

/-- Equal bytes make equal words. -/
theorem readWord_congr {m n : Memory} {a : Nat} (h : ∀ i < 4, readByte m (a + i) = readByte n (a + i)) :
    readWord m a = readWord n a := by
  have h0 := h 0 (by omega)
  simp only [Nat.add_zero] at h0
  simp only [readWord, h 3 (by omega), h 2 (by omega), h 1 (by omega), h0]

end Sys2Proof.Machine
end

