-- ==== Sys2Proof/Laws/Bits.lean ====
section
/-!
SUPPORT. The laws of the bit-string primitives (R12) and of the bit windows (R86): lengths, values, and what a bit
window holds after it is written.
-/

namespace Sys2Proof.Machine

@[simp] theorem length_bin (w v : Nat) : (bin w v).length = w := by simp [bin]

@[simp] theorem length_zeros (m : Nat) : (zeros m).length = m := by simp [zeros]

@[simp] theorem length_fitLen (m : Nat) (s : Bits) : (fitLen m s).length = m := by simp [fitLen]; omega

/-- Element `i` of `bin_W(v)` is bit `W − 1 − i` of `v` (R12). -/
theorem getElem?_bin (w v i : Nat) : (bin w v)[i]? = if i < w then some (v.testBit (w - 1 - i)) else none := by
  by_cases h : i < w <;> simp [bin, h]

/-- Element `i` of a string made `m` long: the string's own, or 0 beyond it. -/
theorem getD_fitLen (m : Nat) (s : Bits) (i : Nat) :
    (fitLen m s).getD i false = if i < m then s.getD i false else false := by
  simp only [fitLen, List.getD_eq_getElem?_getD, zeros]
  by_cases h : i < m
  · by_cases hs : i < s.length
    · rw [List.getElem?_append_left (by simp; omega), List.getElem?_take_of_lt h, if_pos h]
    · have hlen : (s.take m).length ≤ i := by simp; omega
      rw [List.getElem?_append_right hlen, if_pos h, List.getElem?_eq_none (l := s) (by omega)]
      simp only [List.getElem?_replicate]
      split <;> rfl
  · rw [if_neg h]
    have hlen : (s.take m ++ List.replicate (m - s.length) false).length ≤ i := by simp; omega
    rw [List.getElem?_eq_none hlen]
    rfl

/-- A string of the right length is kept whole. -/
@[simp] theorem fitLen_of_length {m : Nat} {s : Bits} (h : s.length = m) : fitLen m s = s := by
  subst h; simp [fitLen, zeros]

@[simp] theorem val_nil : val [] = 0 := rfl

/-- The value grows by one bit at the end: most significant first (R12). -/
theorem val_append_singleton (s : Bits) (b : Bool) : val (s ++ [b]) = 2 * val s + b.toNat := by
  simp [val, List.foldl_append]

/-- Bit `i` of `val(s)` is the element `i` from the end (R12). -/
theorem testBit_val (s : Bits) (i : Nat) :
    (val s).testBit i = if i < s.length then s.getD (s.length - 1 - i) false else false := by
  induction s using List.reverseRecOn generalizing i with
  | nil => simp
  | append_singleton s b ih =>
    rw [val_append_singleton]
    cases i with
    | zero => cases b <;> simp [List.getD_eq_getElem?_getD, Nat.testBit_zero, Nat.add_mod]
    | succ i =>
      rw [Nat.testBit_succ]
      have h2 : (2 * val s + b.toNat) / 2 = val s := by cases b <;> (simp; try omega)
      rw [h2, ih]
      simp only [List.length_append, List.length_singleton, Nat.add_lt_add_iff_right]
      split
      · rename_i h
        simp only [List.getD_eq_getElem?_getD]
        rw [List.getElem?_append_left (by omega)]
        congr 2
        omega
      · rfl

theorem val_lt (s : Bits) : val s < 2 ^ s.length := by
  induction s using List.reverseRecOn with
  | nil => simp
  | append_singleton s b ih =>
    rw [val_append_singleton, List.length_append, List.length_singleton, Nat.pow_succ]
    have : b.toNat ≤ 1 := Bool.toNat_le b
    omega

/-- `val` undoes `bin_W` on the numbers that fit (R12). -/
theorem val_bin {w v : Nat} (h : v < 2 ^ w) : val (bin w v) = v := by
  apply Nat.eq_of_testBit_eq
  intro i
  rw [testBit_val, length_bin]
  by_cases hi : i < w
  · simp only [hi, if_true, List.getD_eq_getElem?_getD, getElem?_bin, show w - 1 - i < w by omega]
    simp [show w - 1 - (w - 1 - i) = i by omega]
  · rw [if_neg hi, Nat.testBit_lt_two_pow (h.trans_le (Nat.pow_le_pow_right (by omega) (by omega)))]

/-- `bin_W` undoes `val` on the strings of length `W` (R12). -/
theorem bin_val (s : Bits) : bin s.length (val s) = s := by
  apply List.ext_getElem?
  intro i
  rw [getElem?_bin]
  by_cases h : i < s.length
  · rw [if_pos h, testBit_val, if_pos (by omega), show s.length - 1 - (s.length - 1 - i) = i by omega]
    simp [List.getD_eq_getElem?_getD, h]
  · rw [if_neg h, List.getElem?_eq_none (by omega)]

/-- Bit `31 − r` of a window word is stream bit `r` of its 32 (R86). -/
theorem getLsbD_bitsWord (s : Bits) {r : Nat} (h : r < 32) : (bitsWord s).getLsbD (31 - r) = s.getD r false := by
  rw [bitsWord, BitVec.getLsbD_ofNat, testBit_val, length_fitLen]
  simp only [show 31 - r < 32 by omega, if_true, decide_true, Bool.true_and, getD_fitLen,
    show 32 - 1 - (31 - r) = r by omega, h]

theorem lanes_zero : lanes (bitsWord []) = [0, 0, 0, 0] := by decide

/-- Byte `4 q + i` of a bit window is lane `i` of the word of stream bits `32 q ..` (R86). -/
theorem getD_bitWindowBytes (fuel : Nat) (s : Bits) {q i : Nat} (hq : q < fuel) (hi : i < 4) :
    (bitWindowBytes fuel s).getD (4 * q + i) 0 = (lanes (bitsWord ((s.drop (32 * q)).take 32))).getD i 0 := by
  induction fuel generalizing s q with
  | zero => omega
  | succ fuel ih =>
    cases s with
    | nil =>
      simp only [bitWindowBytes, List.getD_nil, List.drop_nil, List.take_nil, lanes_zero]
      rcases i with _ | _ | _ | _ | i <;> rfl
    | cons b s =>
      rw [bitWindowBytes]
      cases q with
      | zero =>
        simp only [List.getD_eq_getElem?_getD, Nat.mul_zero, Nat.zero_add, List.drop_zero]
        rw [List.getElem?_append_left (by simpa [lanes] using hi)]
      | succ q =>
        have hlen (v : Word) : (lanes v).length = 4 := rfl
        rw [List.getD_eq_getElem?_getD, List.getElem?_append_right (by rw [hlen]; omega), hlen,
          show 4 * (q + 1) + i - 4 = 4 * q + i by omega, ← List.getD_eq_getElem?_getD, ih _ (by omega)]
        simp only [List.drop_drop, show 32 + 32 * q = 32 * (q + 1) by omega]

/-- Word `q` of a bit window after it is written (R86). -/
theorem readWord_writeBits (m : Memory) (base size : Nat) (s : Bits) {q : Nat} (hq : q < size / 32) :
    readWord (writeBits m base size s) (base + 4 * q) = bitsWord ((s.drop (32 * q)).take 32) := by
  have hb (i : Nat) (hi : i < 4) :
      readByte (writeBits m base size s) (base + 4 * q + i) =
        (lanes (bitsWord ((s.drop (32 * q)).take 32))).getD i 0 := by
    rw [writeBits, readByte_replaceWindow, if_pos (by omega),
      show base + 4 * q + i - base = 4 * q + i by omega]
    exact getD_bitWindowBytes _ _ hq hi
  have h0 := hb 0 (by omega)
  rw [Nat.add_zero] at h0
  rw [readWord, hb 3 (by omega), hb 2 (by omega), hb 1 (by omega), h0]
  exact lanes_append _

/-- Bit `j` of a bit window after it is written: stream bit `j`, and 0 beyond the string (R86, R151, R182). -/
theorem readBit_writeBits (m : Memory) (base size : Nat) (s : Bits) {j : Nat} (hj : j < size / 32 * 32) :
    readBit (writeBits m base size s) base j = s.getD j false := by
  rw [readBit, readWord_writeBits _ _ _ _ (by omega), getLsbD_bitsWord _ (by omega)]
  simp only [List.getD_eq_getElem?_getD]
  rw [List.getElem?_take_of_lt (by omega), List.getElem?_drop, show 32 * (j / 32) + j % 32 = j by omega]

/-- Bits of a window whose bytes are the same are the same. -/
theorem readBit_congr {m n : Memory} {base j : Nat}
    (h : ∀ i < 4, readByte m (base + 4 * (j / 32) + i) = readByte n (base + 4 * (j / 32) + i)) :
    readBit m base j = readBit n base j := by
  rw [readBit, readBit, readWord_congr h]

/-- Samples after a sample window is replaced (R87). -/
theorem readSample_replaceWindow (m : Memory) (base len : Nat) (y : List Sample) {j : Nat} (hj : j < len) :
    readSample (replaceWindow m base len y) base j = y.getD j 0 := by
  rw [readSample, readByte_replaceWindow, if_pos (by omega), show base + j - base = j by omega]
  rfl

@[simp] theorem length_readSamples (m : Memory) (base count : Nat) : (readSamples m base count).length = count := by
  simp [readSamples]

/-- A string of samples put into a window is read back (R87). -/
theorem readSamples_replaceWindow (m : Memory) (base len : Nat) (y : List Sample) (h : y.length ≤ len) :
    readSamples (replaceWindow m base len y) base y.length = y := by
  apply List.ext_getElem?
  intro i
  by_cases hi : i < y.length
  · simp only [readSamples, List.getElem?_map, List.getElem?_range hi, Option.map_some,
      readSample_replaceWindow m base len y (j := i) (by omega), List.getD_eq_getElem?_getD]
    simp [hi]
  · rw [List.getElem?_eq_none (by simpa using hi), List.getElem?_eq_none (by omega)]

/-- `hard` of the noiseless sample of a bit is the bit (R9, R13). -/
@[simp] theorem hard_softIdeal (b : Bool) : hard (softIdeal b) = b := by cases b <;> decide

@[simp] theorem map_hard_softIdeal (s : Bits) : (s.map softIdeal).map hard = s := by
  simp [Function.comp_def]

/-- A counter modulo `2^W` stays below it (R51), for widths of at most 16. -/
theorem incMod_lt {w : Nat} (x : BitVec 16) (hw : w ≤ 16) : (incMod w x).toNat < 2 ^ w := by
  have h1 : 2 ^ w ≤ 2 ^ 16 := Nat.pow_le_pow_right (by omega) hw
  have h2 := Nat.mod_lt (x.toNat + 1) (Nat.two_pow_pos w)
  rw [incMod, BitVec.toNat_ofNat, Nat.mod_eq_of_lt (by omega)]
  exact h2

/-- The counter is the next number modulo `2^W` (R51). -/
theorem toNat_incMod {w : Nat} (x : BitVec 16) (hw : w ≤ 16) : (incMod w x).toNat = (x.toNat + 1) % 2 ^ w := by
  have h1 : 2 ^ w ≤ 2 ^ 16 := Nat.pow_le_pow_right (by omega) hw
  have h2 := Nat.mod_lt (x.toNat + 1) (Nat.two_pow_pos w)
  rw [incMod, BitVec.toNat_ofNat, Nat.mod_eq_of_lt (by omega)]

/-- `ceil_div(a, b) × b` is the least multiple of `b` that is at least `a` (R11, R189). -/
theorem ceilDiv_spec (a : Nat) {b : Nat} (hb : 1 ≤ b) : a ≤ ceilDiv a b * b ∧ ceilDiv a b * b < a + b := by
  have h := Nat.div_add_mod (a + b - 1) b
  have hm := Nat.mod_lt (a + b - 1) (show 0 < b by omega)
  have hc : ceilDiv a b * b = b * ((a + b - 1) / b) := Nat.mul_comm _ _
  omega

/-- A number in a field wide enough is itself. -/
theorem field_of_lt {w v : Nat} (h : v < 2 ^ w) : field w v = BitVec.ofNat w v := if_pos h

end Sys2Proof.Machine
end

