-- ==== Sys2Proof/Laws/Codec.lean ====
section
/-!
SUPPORT. The codec: lengths, the contract of R9, and that circuits leave no total function out (log 4).
-/

namespace Sys2Proof.Machine

@[simp] theorem length_encodeWord (c : Code) (x : Bits) : (encodeWord c x).length = c.n := by simp [encodeWord]

@[simp] theorem length_decodeWord_info (c : Code) (y : List Sample) : (decodeWord c y).2.length = c.k := by
  simp [decodeWord]

theorem mem_allBits (x : Bits) : x ∈ allBits x.length := by
  induction x with
  | nil => simp [allBits]
  | cons b x ih =>
    simp only [List.length_cons, allBits, List.mem_flatMap]
    exact ⟨x, ih, by cases b <;> simp⟩

/-- What the contract check says (R9): noiseless decoding of a codeword gives `(1, x)`. -/
theorem decode_encode {c : Code} (h : codecContract c = true) (x : Bits) (hx : x.length = c.k) :
    decodeWord c ((encodeWord c x).map softIdeal) = (true, x) := by
  have := List.all_eq_true.1 h x (hx ▸ mem_allBits x)
  simpa using this

/-- If-then-else as a circuit. -/
def muxExpr (i e f : BitExpr) : BitExpr := .not (.and (.not (.and i e)) (.not (.and (.not i) f)))

theorem evalExpr_mux (x : Bits) (i e f : BitExpr) :
    evalExpr x (muxExpr i e f) = if evalExpr x i then evalExpr x e else evalExpr x f := by
  simp only [muxExpr, evalExpr]
  cases evalExpr x i <;> simp

/-- A circuit for a function of the inputs `i .. i + m − 1`, by cases on one input after another. -/
def exprOf : Nat → Nat → (Bits → Bool) → BitExpr
  | 0, _, f => .const (f [])
  | m + 1, i, f =>
    muxExpr (.input i) (exprOf m (i + 1) fun x => f (true :: x)) (exprOf m (i + 1) fun x => f (false :: x))

theorem evalExpr_exprOf (m i : Nat) (f : Bits → Bool) (pre x : Bits) (hp : pre.length = i) (hx : x.length = m) :
    evalExpr (pre ++ x) (exprOf m i f) = f x := by
  induction m generalizing i f pre x with
  | zero => simp [exprOf, evalExpr, List.length_eq_zero_iff.1 hx]
  | succ m ih =>
    cases x with
    | nil => simp at hx
    | cons b x =>
      have hi : evalExpr (pre ++ b :: x) (.input i) = b := by
        subst hp
        simp [evalExpr, List.getD_eq_getElem?_getD]
      have h (g : Bits → Bool) : evalExpr (pre ++ b :: x) (exprOf m (i + 1) g) = g x := by
        have := ih (i + 1) g (pre ++ [b]) x (by simp [hp]) (by simpa using hx)
        simpa using this
      rw [exprOf, evalExpr_mux, hi, h, h]
      cases b <;> rfl

/-- Every function of a bit string of a fixed length is a circuit: holding the codec as circuits leaves no codec out. -/
theorem BitExpr_universal (m : Nat) (f : Bits → Bool) :
    ∃ e : BitExpr, ∀ x : Bits, x.length = m → evalExpr x e = f x :=
  ⟨exprOf m 0 f, fun x hx => evalExpr_exprOf m 0 f [] x rfl hx⟩

/-- Every total `Encode : bits(k) → bits(n)` (R9) is the encoder of some code of the model. -/
theorem encode_universal (c : Code) (f : Bits → Bits) (hf : ∀ x, x.length = c.k → (f x).length = c.n) :
    ∃ enc, ∀ x, x.length = c.k → encodeWord { c with enc := enc } x = f x := by
  refine ⟨(List.range c.n).map fun j => exprOf c.k 0 fun x => (f x).getD j false, fun x hx => ?_⟩
  have he (g : Bits → Bool) : evalExpr x (exprOf c.k 0 g) = g x := evalExpr_exprOf c.k 0 g [] x rfl hx
  rw [encodeWord, List.map_map, fitLen_of_length (by simp)]
  apply List.ext_getElem?
  intro j
  by_cases hj : j < c.n
  · simp [hj, he, hf x hx]
  · rw [List.getElem?_eq_none (by simpa using hj), List.getElem?_eq_none (by rw [hf x hx]; omega)]

theorem length_sampleBits (y : List Sample) : (sampleBits y).length = 8 * y.length := by
  induction y with
  | nil => rfl
  | cons v y ih =>
    have : sampleBits (v :: y) = (List.range 8).map v.getLsbD ++ sampleBits y := rfl
    rw [this, List.length_append, ih]
    simp
    omega

/-- The sample string that some bits are the bits of. -/
theorem sampleBits_injective {y z : List Sample} (h : sampleBits y = sampleBits z) : y = z := by
  induction y generalizing z with
  | nil =>
    cases z with
    | nil => rfl
    | cons w z => have := congrArg List.length h; simp [length_sampleBits] at this
  | cons v y ih =>
    cases z with
    | nil => have := congrArg List.length h; simp [length_sampleBits] at this
    | cons w z =>
      have hv : sampleBits (v :: y) = (List.range 8).map v.getLsbD ++ sampleBits y := rfl
      have hw : sampleBits (w :: z) = (List.range 8).map w.getLsbD ++ sampleBits z := rfl
      rw [hv, hw] at h
      obtain ⟨h1, h2⟩ := List.append_inj h (by simp)
      rw [ih h2]
      congr 1
      apply BitVec.eq_of_getLsbD_eq
      intro i hi
      have := congrArg (fun l : Bits => l[i]?) h1
      simpa [hi] using this

/-- Every total `Decode : samples(n) → (ok, info : bits(k))` (R9) is the decoder of some code of the model. -/
theorem decode_universal (c : Code) (f : List Sample → Bool × Bits)
    (hf : ∀ y, y.length = c.n → (f y).2.length = c.k) :
    ∃ ok info, ∀ y, y.length = c.n → decodeWord { c with decOk := ok, decInfo := info } y = f y := by
  classical
  let g (x : Bits) : Bool × Bits := if h : ∃ y, sampleBits y = x then f h.choose else (false, [])
  have hg (y : List Sample) : g (sampleBits y) = f y := by
    have h : ∃ z, sampleBits z = sampleBits y := ⟨y, rfl⟩
    simp only [g, dif_pos h]
    rw [sampleBits_injective h.choose_spec]
  refine ⟨exprOf (8 * c.n) 0 fun x => (g x).1,
    (List.range c.k).map fun j => exprOf (8 * c.n) 0 fun x => (g x).2.getD j false, fun y hy => ?_⟩
  have he (u : Bits → Bool) : evalExpr (sampleBits y) (exprOf (8 * c.n) 0 u) = u (sampleBits y) :=
    evalExpr_exprOf (8 * c.n) 0 u [] (sampleBits y) rfl (by rw [length_sampleBits, hy])
  have hlen := hf y hy
  rw [decodeWord]
  refine Prod.ext (by simp [he, hg]) ?_
  simp only [List.map_map]
  rw [fitLen_of_length (by simp)]
  apply List.ext_getElem?
  intro j
  by_cases hj : j < c.k
  · simp [hj, he, hg, hlen]
  · rw [List.getElem?_eq_none (by simpa using hj), List.getElem?_eq_none (by omega)]

end Sys2Proof.Machine
end

