-- ==== Sys2Proof/Laws/Decode.lean ====
section
/-!
SUPPORT. What the command decoder can answer, and the words of the encoder.
-/

namespace Sys2Proof

theorem unlessReserved_ok {r : Bool} {i j : Instr} : unlessReserved r i = .ok j ↔ r = false ∧ i = j := by
  cases r <;> simp [unlessReserved]

/-- Everything `decodeCommand` can answer: one of the nine commands, the two with operands reading them from their
fields (R111, R113). -/
theorem decodeCommand_cases {w : Word} {i : Instr} (h : decodeCommand w = .ok i) :
    (opField w = 0x00 ∧ i = .nop) ∨ (opField w = 0x01 ∧ i = .softReset) ∨
      (opField w = 0x10 ∧ i = .txPush (dataField w) (cntField w)) ∨ (opField w = 0x11 ∧ i = .txBuild) ∨
      (opField w = 0x20 ∧ i = .hdrBuild) ∨ (opField w = 0x21 ∧ i = .hdrParse) ∨ (opField w = 0x30 ∧ i = .rxFrame) ∨
      (opField w = 0x31 ∧ i = .rxPop (cntField w)) ∨ (opField w = 0x32 ∧ i = .cwrepPop) := by
  unfold decodeCommand at h
  have hop (n : Nat) (hn : n < 256) (e : (opField w).toNat = n) : opField w = BitVec.ofNat 8 n :=
    BitVec.eq_of_toNat_eq (by rw [e, BitVec.toNat_ofNat]; omega)
  simp only at h
  split at h
  all_goals first
    | (rename_i e; rw [unlessReserved_ok] at h; have := hop _ (by omega) e; simp [this, ← h.2])
    | simp at h

/-- A command word never decodes to a bus access. -/
theorem decodeCommand_ne_bus {w : Word} {i : Instr} (h : decodeCommand w = .ok i) :
    (∀ a z, i ≠ .rd a z) ∧ ∀ a v z, i ≠ .wr a v z := by
  rcases decodeCommand_cases h with ⟨_, rfl⟩ | ⟨_, rfl⟩ | ⟨_, rfl⟩ | ⟨_, rfl⟩ | ⟨_, rfl⟩ | ⟨_, rfl⟩ | ⟨_, rfl⟩ |
    ⟨_, rfl⟩ | ⟨_, rfl⟩ <;> simp

end Sys2Proof
end

