-- ==== Sys2Proof/Laws/Header.lean ====
section
/-!
SUPPORT. What a well-formed parameter set gives, and the lengths of the header functions (R8, R141, R145, R148).
-/

namespace Sys2Proof.Machine

/-- What construction checks (R7, R8, R9), as facts. -/
structure GoodParams (p : Params) : Prop where
  nc : 1 ≤ p.nc ∧ p.nc ≤ 8192
  hc : 1 ≤ p.hc ∧ p.hc ≤ 128
  hbMax : headerLen p ≤ 256
  layoutFits : 8 + layoutWidth p ≤ headerLen p
  wPlen : 1 ≤ p.wPlen ∧ p.wPlen ≤ 16
  wSeq : 1 ≤ p.wSeq ∧ p.wSeq ≤ 16
  wFlen : 1 ≤ p.wFlen ∧ p.wFlen ≤ 16
  wCwid : 1 ≤ p.wCwid ∧ p.wCwid ≤ 16
  wOff : 1 ≤ p.wOff ∧ p.wOff ≤ 16
  wShort : 1 ≤ p.wShort ∧ p.wShort ≤ 16
  scrSeed : p.scrSeed ≠ 0
  txqCap : 8 ≤ p.txqCap
  rxqCap : 8 ≤ p.rxqCap
  cwrepCap : 1 ≤ p.cwrepCap
  ids : legalIds (p.codes.map (·.id)) = true
  codes : p.fecEn = true → ∀ c ∈ p.codes, legalCode p c = true
  initMcs : legalMcs p p.initMod p.initFec = true
  initFlen : legalFlen p p.initFlen = true

/-- A well-formed parameter set has the properties of R7 to R9. -/
theorem paramsWf_good {p : Params} (h : paramsWf p = true) : GoodParams p := by
  simp only [paramsWf, legalWidth, Config.hbMax, Config.wCrc, Bool.and_eq_true, decide_eq_true_eq, bne_iff_ne, ne_eq,
    Bool.or_eq_true, Bool.not_eq_true', List.all_eq_true] at h
  obtain ⟨⟨⟨⟨⟨⟨⟨⟨⟨⟨⟨⟨⟨⟨⟨⟨⟨⟨⟨n1, n2⟩, c1⟩, c2⟩, b1⟩, b2⟩, w1⟩, w2⟩, w3⟩, w4⟩, w5⟩, w6⟩, sd⟩, q1⟩, q2⟩, q3⟩, i⟩, cs⟩, m⟩, f⟩ := h
  exact ⟨⟨n1, n2⟩, ⟨c1, c2⟩, of_decide_eq_true b1, of_decide_eq_true b2, w1, w2, w3, w4, w5, w6, sd, q1, q2, q3, i,
    fun hf => cs.resolve_left (by simp [hf]), m, f⟩

/-- What the code table answers (R7): an entry of it, of the id asked for. -/
theorem code?_some {p : Params} {id : BitVec 4} {c : Code} (h : code? p id = some c) : c ∈ p.codes ∧ c.id = id := by
  refine ⟨List.mem_of_find?_eq_some h, ?_⟩
  simpa using List.find?_some h

/-- The facts of R9 for a code of a well-formed parameter set of an FEC link. -/
theorem code?_legal {p : Params} (hp : paramsWf p = true) (hf : p.fecEn = true) {id : BitVec 4} {c : Code}
    (h : code? p id = some c) :
    1 ≤ c.k ∧ c.k ≤ c.n ∧ c.n ≤ 2 ^ p.wOff ∧ c.k ≤ 2 ^ p.wShort ∧ codecContract c = true := by
  have := (paramsWf_good hp).codes hf c (code?_some h).1
  simpa [legalCode, and_assoc] using this

/-- The bits per symbol are the modulation id itself, 1 to 4 (R10). -/
theorem bps?_some {m : BitVec 4} {b : Nat} : bps? m = some b ↔ b = m.toNat ∧ 1 ≤ m.toNat ∧ m.toNat ≤ 4 := by
  have h : ∀ m : BitVec 4, bps? m = if 1 ≤ m.toNat ∧ m.toNat ≤ 4 then some m.toNat else none := by decide
  rw [h]
  split
  · rename_i hm; simp [hm, eq_comm]
  · rename_i hm; simp only [reduceCtorEq, false_iff]; exact fun h => hm h.2

@[simp] theorem length_scramble (r : BitVec 7) (s : Bits) : (scramble r s).length = s.length := by
  induction s generalizing r with
  | nil => rfl
  | cons b s ih => simp [scramble, ih]

theorem length_layoutBits (p : Params) (f : Header) :
    ((layout p).flatMap fun l => bin l.2 (f.get l.1)).length = layoutWidth p := by
  rw [layoutWidth]
  induction layout p with
  | nil => rfl
  | cons l ls ih => simp [ih]

/-- The body is `HB − 8` bits long (R141, R145). -/
theorem length_headerBody {p : Params} (hp : paramsWf p = true) (f : Header) :
    (headerBody p f).length = headerLen p - 8 := by
  have h := (paramsWf_good hp).layoutFits
  simp only [headerBody, List.length_append, length_layoutBits, length_zeros, Config.wCrc]
  omega

@[simp] theorem length_plainHeader {p : Params} (hp : paramsWf p = true) (f : Header) :
    (plainHeader p f).length = headerLen p := by
  have h := (paramsWf_good hp).layoutFits
  simp only [plainHeader, List.length_append, length_headerBody hp, length_bin, Config.wCrc]
  omega

/-- A header is `HB` bits long (R140). -/
theorem length_headerBits {p : Params} (hp : paramsWf p = true) (seed : BitVec 7) (f : Header) :
    (headerBits p seed f).length = headerLen p := by
  rw [headerBits, length_scramble, length_plainHeader hp]

/-- One field after another is read from the front (R149). -/
theorem parseFields_append (ls : List (HdrField × Nat)) (d e : Bits) (h : Header) (hd : d.length = (ls.map (·.2)).sum) :
    parseFields ls (d ++ e) h = parseFields ls d h := by
  induction ls generalizing d h with
  | nil => rfl
  | cons l ls ih =>
    simp only [List.map_cons, List.sum_cons] at hd
    simp only [parseFields]
    rw [List.take_append_of_le_length (by omega), List.drop_append_of_le_length (by omega),
      ih _ _ (by rw [List.length_drop]; omega)]

/-- HDR_OUT after a header is written (R151, R182): its bits, and 0 beyond them. -/
theorem readBit_writeHdrOut (m : Memory) (h : Bits) {j : Nat} (hj : j < 256) :
    readBit (writeHdrOut m h) hdrOutBase j = h.getD j false :=
  readBit_writeBits m hdrOutBase Config.hbMax h hj

theorem wf_writeHdrOut {m : Memory} (hm : Memory.wf m) (h : Bits) : Memory.wf (writeHdrOut m h) :=
  wf_writeBits hm _ _ _

end Sys2Proof.Machine
end

