-- ==== Sys2Proof/Laws/Rx.lean ====
section
/-!
SUPPORT. What the parts of a deframing do (R211 to R217): the checks, a decoded codeword, the leading codeword, and the
induction over the new codewords.
-/

namespace Sys2Proof.Machine

/-- The range checks are those of R211. -/
theorem rangeCheck_some {p : Params} {h : Header} {b : Nat} {c : Code} :
    rangeCheck p h = some (b, c) ↔ b = h.mod.toNat ∧ RangeOk p h c := by
  unfold rangeCheck RangeOk Config.pmaxBits
  cases hb : bps? h.mod with
  | none =>
    have : ¬(1 ≤ h.mod.toNat ∧ h.mod.toNat ≤ 4) := fun hm => by
      have := bps?_some.2 ⟨rfl, hm⟩
      simp [hb] at this
    simp; tauto
  | some b' =>
    obtain ⟨rfl, hm⟩ := bps?_some.1 hb
    cases hc : code? p h.fec with
    | none => simp
    | some c' =>
      simp only [Option.ite_none_right_eq_some, Option.some.injEq, Prod.mk.injEq]
      constructor
      · rintro ⟨⟨h1, h2, h3, h4, h5⟩, rfl, rfl⟩
        exact ⟨rfl, hm, rfl, h1, h2, h3, h4, h5⟩
      · rintro ⟨rfl, _, rfl, h1, h2, h3, h4, h5⟩
        exact ⟨⟨h1, h2, h3, h4, h5⟩, rfl, rfl⟩

/-- What decoding a complete codeword adds (R215). -/
theorem decodeInto_cases (ff : Bool) (c : Code) (id : BitVec 16) (y : List Sample) (s : Nat) (a : RxAcc) :
    ((decodeWord c y).1 = true ∧
        decodeInto ff c id y s a =
          { a with
            out := a.out ++ (decodeWord c y).2.take (c.k - s)
            reps := a.reps ++ [⟨id, .ok, field 16 (c.k - s)⟩] }) ∨
      ((decodeWord c y).1 = false ∧ ff = true ∧
        decodeInto ff c id y s a =
          { a with
            out := a.out ++ (decodeWord c y).2.take (c.k - s)
            reps := a.reps ++ [⟨id, .failFlagged, field 16 (c.k - s)⟩]
            causes := a.causes ++ [.cwFail] }) ∨
      ((decodeWord c y).1 = false ∧ ff = false ∧
        decodeInto ff c id y s a =
          { a with reps := a.reps ++ [⟨id, .failDropped, 0⟩], causes := a.causes ++ [.cwFail] }) := by
  cases h : (decodeWord c y).1 <;> cases ff <;> simp [decodeInto, h]

@[simp] theorem decodeInto_part (ff : Bool) (c : Code) (id : BitVec 16) (y : List Sample) (s : Nat) (a : RxAcc) :
    (decodeInto ff c id y s a).part = a.part := by
  rcases decodeInto_cases ff c id y s a with ⟨_, h⟩ | ⟨_, _, h⟩ | ⟨_, _, h⟩ <;> rw [h]

/-- A decoded codeword adds one report. -/
theorem length_decodeInto_reps (ff : Bool) (c : Code) (id : BitVec 16) (y : List Sample) (s : Nat) (a : RxAcc) :
    (decodeInto ff c id y s a).reps.length = a.reps.length + 1 := by
  rcases decodeInto_cases ff c id y s a with ⟨_, h⟩ | ⟨_, _, h⟩ | ⟨_, _, h⟩ <;> rw [h] <;> simp

/-- A decoded codeword adds at most `k` bits. -/
theorem length_decodeInto_out_le (ff : Bool) (c : Code) (id : BitVec 16) (y : List Sample) (s : Nat) (a : RxAcc) :
    (decodeInto ff c id y s a).out.length ≤ a.out.length + c.k := by
  rcases decodeInto_cases ff c id y s a with ⟨_, h⟩ | ⟨_, _, h⟩ | ⟨_, _, h⟩ <;> rw [h] <;>
    simp

/-- Induction over the new codewords of a frame (R213): what holds before them and is kept by decoding a complete one
and by keeping an incomplete one holds after them. -/
theorem newCodewords_induct {p : Params} {ff : Bool} {c : Code} {h : Header} {y : List Sample}
    {P : BitVec 16 → RxAcc → Prop}
    (hwhole : ∀ id a q s, P id a → P (incMod p.wCwid id) (decodeInto ff c id ((y.drop q).take c.n) s a))
    (hcut : ∀ id a q ln s, ln ≠ c.n → P id a →
      P (incMod p.wCwid id) { a with part := some { id := id, fec := h.fec, y := (y.drop q).take ln, short := s } })
    (starts : List (Nat × Nat)) (id : BitVec 16) (a : RxAcc) (h0 : P id a) :
    ∃ id', P id' (newCodewords p ff c h y starts id a) := by
  induction starts generalizing id a with
  | nil => exact ⟨id, h0⟩
  | cons st rest ih =>
    obtain ⟨q, ln⟩ := st
    rw [newCodewords]
    by_cases hn : ln = c.n
    · subst hn
      simp only [if_true]
      exact ih _ _ (hwhole _ _ _ _ h0)
    · simp only [hn, if_false]
      exact ih _ _ (hcut _ _ _ _ _ hn h0)

/-- The new codewords begin at multiples of `n` from `pos` on, each while at least `b` samples are left (R213). -/
theorem codewordStarts_bounds {n b total fuel pos : Nat} {st : Nat × Nat} (h : st ∈ codewordStarts n b total fuel pos) :
    pos ≤ st.1 ∧ st.1 + st.2 ≤ max total st.1 ∧ b ≤ total - st.1 ∧ st.2 = min n (total - st.1) := by
  induction fuel generalizing pos with
  | zero => simp [codewordStarts] at h
  | succ fuel ih =>
    rw [codewordStarts] at h
    split at h
    · rename_i hb
      rcases List.mem_cons.1 h with rfl | h
      · exact ⟨le_refl _, by simp only; omega, hb, rfl⟩
      · have := ih h
        exact ⟨by omega, this.2⟩
    · simp at h

/-- What a deframing commits (R217): everything, or nothing and RXQ_OVF. -/
theorem commitFrame_cases (s : State) (a : RxAcc) :
    ((s.params.rxqCap < s.rxq.length + a.out.length ∨ s.params.cwrepCap < s.rep.length + a.reps.length) ∧
        commitFrame s a = raise .rxqOvf s) ∨
      ((s.rxq.length + a.out.length ≤ s.params.rxqCap ∧ s.rep.length + a.reps.length ≤ s.params.cwrepCap) ∧
        commitFrame s a =
          raiseAll a.causes
            { s with rxq := s.rxq ++ a.out, rep := s.rep ++ a.reps, part := a.part, hdrValid := false }) := by
  unfold commitFrame
  split
  · rename_i h; exact .inl ⟨h, rfl⟩
  · rename_i h; exact .inr ⟨by omega, rfl⟩

end Sys2Proof.Machine
end

