-- ==== Sys2Proof/Laws/State.lean ====
section
/-!
SUPPORT. One lemma per field for each named update of the state, so that no later proof unfolds one: `raise`,
`raiseAll`, `clearErr`, `State.withFetchWord`, the reset, and what the statements' `recorded` says.
-/

namespace Sys2Proof.Machine

variable (s : State) (c : Cause) (cs : List Cause) (v : Word) (n w : Nat) (p : Params)

/-- The ERR bit of a cause, by its code (R271, R272). -/
@[simp] theorem raise_err : (raise c s).err = s.err ||| ((1 : Word) <<< causeCode c) := rfl
@[simp] theorem raise_cause : (raise c s).cause = BitVec.ofNat 8 (causeCode c) := rfl
@[simp] theorem raise_params : (raise c s).params = s.params := rfl
@[simp] theorem raise_scrEn : (raise c s).scrEn = s.scrEn := rfl
@[simp] theorem raise_failFlag : (raise c s).failFlag = s.failFlag := rfl
@[simp] theorem raise_mcsMod : (raise c s).mcsMod = s.mcsMod := rfl
@[simp] theorem raise_mcsFec : (raise c s).mcsFec = s.mcsFec := rfl
@[simp] theorem raise_flen : (raise c s).flen = s.flen := rfl
@[simp] theorem raise_echoMod : (raise c s).echoMod = s.echoMod := rfl
@[simp] theorem raise_echoFec : (raise c s).echoFec = s.echoFec := rfl
@[simp] theorem raise_maxEmpty : (raise c s).maxEmpty = s.maxEmpty := rfl
@[simp] theorem raise_floor : (raise c s).floor = s.floor := rfl
@[simp] theorem raise_ie : (raise c s).ie = s.ie := rfl
@[simp] theorem raise_txq : (raise c s).txq = s.txq := rfl
@[simp] theorem raise_rem : (raise c s).rem = s.rem := rfl
@[simp] theorem raise_frameNo : (raise c s).frameNo = s.frameNo := rfl
@[simp] theorem raise_nextCwId : (raise c s).nextCwId = s.nextCwId := rfl
@[simp] theorem raise_emptyCount : (raise c s).emptyCount = s.emptyCount := rfl
@[simp] theorem raise_txh : (raise c s).txh = s.txh := rfl
@[simp] theorem raise_txPbits : (raise c s).txPbits = s.txPbits := rfl
@[simp] theorem raise_rxh : (raise c s).rxh = s.rxh := rfl
@[simp] theorem raise_hdrValid : (raise c s).hdrValid = s.hdrValid := rfl
@[simp] theorem raise_part : (raise c s).part = s.part := rfl
@[simp] theorem raise_rxq : (raise c s).rxq = s.rxq := rfl
@[simp] theorem raise_rep : (raise c s).rep = s.rep := rfl
@[simp] theorem raise_rxout : (raise c s).rxout = s.rxout := rfl
@[simp] theorem raise_cwrep : (raise c s).cwrep = s.cwrep := rfl
@[simp] theorem raise_cwrepNb : (raise c s).cwrepNb = s.cwrepNb := rfl
@[simp] theorem raise_mem : (raise c s).mem = s.mem := rfl
@[simp] theorem raise_bus : (raise c s).bus = s.bus := rfl
@[simp] theorem raise_rdata : (raise c s).rdata = s.rdata := rfl

@[simp] theorem raiseAll_nil : raiseAll [] s = s := rfl
@[simp] theorem raiseAll_cons : raiseAll (c :: cs) s = raiseAll cs (raise c s) := rfl
@[simp] theorem raiseAll_params : (raiseAll cs s).params = s.params := by
  induction cs generalizing s with
  | nil => rfl
  | cons c cs ih => simp [ih]
@[simp] theorem raiseAll_scrEn : (raiseAll cs s).scrEn = s.scrEn := by
  induction cs generalizing s with
  | nil => rfl
  | cons c cs ih => simp [ih]
@[simp] theorem raiseAll_failFlag : (raiseAll cs s).failFlag = s.failFlag := by
  induction cs generalizing s with
  | nil => rfl
  | cons c cs ih => simp [ih]
@[simp] theorem raiseAll_mcsMod : (raiseAll cs s).mcsMod = s.mcsMod := by
  induction cs generalizing s with
  | nil => rfl
  | cons c cs ih => simp [ih]
@[simp] theorem raiseAll_mcsFec : (raiseAll cs s).mcsFec = s.mcsFec := by
  induction cs generalizing s with
  | nil => rfl
  | cons c cs ih => simp [ih]
@[simp] theorem raiseAll_flen : (raiseAll cs s).flen = s.flen := by
  induction cs generalizing s with
  | nil => rfl
  | cons c cs ih => simp [ih]
@[simp] theorem raiseAll_echoMod : (raiseAll cs s).echoMod = s.echoMod := by
  induction cs generalizing s with
  | nil => rfl
  | cons c cs ih => simp [ih]
@[simp] theorem raiseAll_echoFec : (raiseAll cs s).echoFec = s.echoFec := by
  induction cs generalizing s with
  | nil => rfl
  | cons c cs ih => simp [ih]
@[simp] theorem raiseAll_maxEmpty : (raiseAll cs s).maxEmpty = s.maxEmpty := by
  induction cs generalizing s with
  | nil => rfl
  | cons c cs ih => simp [ih]
@[simp] theorem raiseAll_floor : (raiseAll cs s).floor = s.floor := by
  induction cs generalizing s with
  | nil => rfl
  | cons c cs ih => simp [ih]
@[simp] theorem raiseAll_ie : (raiseAll cs s).ie = s.ie := by
  induction cs generalizing s with
  | nil => rfl
  | cons c cs ih => simp [ih]
@[simp] theorem raiseAll_txq : (raiseAll cs s).txq = s.txq := by
  induction cs generalizing s with
  | nil => rfl
  | cons c cs ih => simp [ih]
@[simp] theorem raiseAll_rem : (raiseAll cs s).rem = s.rem := by
  induction cs generalizing s with
  | nil => rfl
  | cons c cs ih => simp [ih]
@[simp] theorem raiseAll_frameNo : (raiseAll cs s).frameNo = s.frameNo := by
  induction cs generalizing s with
  | nil => rfl
  | cons c cs ih => simp [ih]
@[simp] theorem raiseAll_nextCwId : (raiseAll cs s).nextCwId = s.nextCwId := by
  induction cs generalizing s with
  | nil => rfl
  | cons c cs ih => simp [ih]
@[simp] theorem raiseAll_emptyCount : (raiseAll cs s).emptyCount = s.emptyCount := by
  induction cs generalizing s with
  | nil => rfl
  | cons c cs ih => simp [ih]
@[simp] theorem raiseAll_txh : (raiseAll cs s).txh = s.txh := by
  induction cs generalizing s with
  | nil => rfl
  | cons c cs ih => simp [ih]
@[simp] theorem raiseAll_txPbits : (raiseAll cs s).txPbits = s.txPbits := by
  induction cs generalizing s with
  | nil => rfl
  | cons c cs ih => simp [ih]
@[simp] theorem raiseAll_rxh : (raiseAll cs s).rxh = s.rxh := by
  induction cs generalizing s with
  | nil => rfl
  | cons c cs ih => simp [ih]
@[simp] theorem raiseAll_hdrValid : (raiseAll cs s).hdrValid = s.hdrValid := by
  induction cs generalizing s with
  | nil => rfl
  | cons c cs ih => simp [ih]
@[simp] theorem raiseAll_part : (raiseAll cs s).part = s.part := by
  induction cs generalizing s with
  | nil => rfl
  | cons c cs ih => simp [ih]
@[simp] theorem raiseAll_rxq : (raiseAll cs s).rxq = s.rxq := by
  induction cs generalizing s with
  | nil => rfl
  | cons c cs ih => simp [ih]
@[simp] theorem raiseAll_rep : (raiseAll cs s).rep = s.rep := by
  induction cs generalizing s with
  | nil => rfl
  | cons c cs ih => simp [ih]
@[simp] theorem raiseAll_rxout : (raiseAll cs s).rxout = s.rxout := by
  induction cs generalizing s with
  | nil => rfl
  | cons c cs ih => simp [ih]
@[simp] theorem raiseAll_cwrep : (raiseAll cs s).cwrep = s.cwrep := by
  induction cs generalizing s with
  | nil => rfl
  | cons c cs ih => simp [ih]
@[simp] theorem raiseAll_cwrepNb : (raiseAll cs s).cwrepNb = s.cwrepNb := by
  induction cs generalizing s with
  | nil => rfl
  | cons c cs ih => simp [ih]
@[simp] theorem raiseAll_mem : (raiseAll cs s).mem = s.mem := by
  induction cs generalizing s with
  | nil => rfl
  | cons c cs ih => simp [ih]
@[simp] theorem raiseAll_bus : (raiseAll cs s).bus = s.bus := by
  induction cs generalizing s with
  | nil => rfl
  | cons c cs ih => simp [ih]
@[simp] theorem raiseAll_rdata : (raiseAll cs s).rdata = s.rdata := by
  induction cs generalizing s with
  | nil => rfl
  | cons c cs ih => simp [ih]

@[simp] theorem clearErr_err : (clearErr v s).err = s.err &&& ~~~(v &&& errMask) := rfl
@[simp] theorem clearErr_params : (clearErr v s).params = s.params := rfl
@[simp] theorem clearErr_scrEn : (clearErr v s).scrEn = s.scrEn := rfl
@[simp] theorem clearErr_failFlag : (clearErr v s).failFlag = s.failFlag := rfl
@[simp] theorem clearErr_mcsMod : (clearErr v s).mcsMod = s.mcsMod := rfl
@[simp] theorem clearErr_mcsFec : (clearErr v s).mcsFec = s.mcsFec := rfl
@[simp] theorem clearErr_flen : (clearErr v s).flen = s.flen := rfl
@[simp] theorem clearErr_echoMod : (clearErr v s).echoMod = s.echoMod := rfl
@[simp] theorem clearErr_echoFec : (clearErr v s).echoFec = s.echoFec := rfl
@[simp] theorem clearErr_maxEmpty : (clearErr v s).maxEmpty = s.maxEmpty := rfl
@[simp] theorem clearErr_floor : (clearErr v s).floor = s.floor := rfl
@[simp] theorem clearErr_ie : (clearErr v s).ie = s.ie := rfl
@[simp] theorem clearErr_cause : (clearErr v s).cause = s.cause := rfl
@[simp] theorem clearErr_txq : (clearErr v s).txq = s.txq := rfl
@[simp] theorem clearErr_rem : (clearErr v s).rem = s.rem := rfl
@[simp] theorem clearErr_frameNo : (clearErr v s).frameNo = s.frameNo := rfl
@[simp] theorem clearErr_nextCwId : (clearErr v s).nextCwId = s.nextCwId := rfl
@[simp] theorem clearErr_emptyCount : (clearErr v s).emptyCount = s.emptyCount := rfl
@[simp] theorem clearErr_txh : (clearErr v s).txh = s.txh := rfl
@[simp] theorem clearErr_txPbits : (clearErr v s).txPbits = s.txPbits := rfl
@[simp] theorem clearErr_rxh : (clearErr v s).rxh = s.rxh := rfl
@[simp] theorem clearErr_hdrValid : (clearErr v s).hdrValid = s.hdrValid := rfl
@[simp] theorem clearErr_part : (clearErr v s).part = s.part := rfl
@[simp] theorem clearErr_rxq : (clearErr v s).rxq = s.rxq := rfl
@[simp] theorem clearErr_rep : (clearErr v s).rep = s.rep := rfl
@[simp] theorem clearErr_rxout : (clearErr v s).rxout = s.rxout := rfl
@[simp] theorem clearErr_cwrep : (clearErr v s).cwrep = s.cwrep := rfl
@[simp] theorem clearErr_cwrepNb : (clearErr v s).cwrepNb = s.cwrepNb := rfl
@[simp] theorem clearErr_mem : (clearErr v s).mem = s.mem := rfl
@[simp] theorem clearErr_bus : (clearErr v s).bus = s.bus := rfl
@[simp] theorem clearErr_rdata : (clearErr v s).rdata = s.rdata := rfl

@[simp] theorem withFetchWord_bus :
    (s.withFetchWord n w).bus = commandAccess (BitVec.ofNat 32 w) :: s.bus := rfl
@[simp] theorem withFetchWord_params : (s.withFetchWord n w).params = s.params := rfl
@[simp] theorem withFetchWord_scrEn : (s.withFetchWord n w).scrEn = s.scrEn := rfl
@[simp] theorem withFetchWord_failFlag : (s.withFetchWord n w).failFlag = s.failFlag := rfl
@[simp] theorem withFetchWord_mcsMod : (s.withFetchWord n w).mcsMod = s.mcsMod := rfl
@[simp] theorem withFetchWord_mcsFec : (s.withFetchWord n w).mcsFec = s.mcsFec := rfl
@[simp] theorem withFetchWord_flen : (s.withFetchWord n w).flen = s.flen := rfl
@[simp] theorem withFetchWord_echoMod : (s.withFetchWord n w).echoMod = s.echoMod := rfl
@[simp] theorem withFetchWord_echoFec : (s.withFetchWord n w).echoFec = s.echoFec := rfl
@[simp] theorem withFetchWord_maxEmpty : (s.withFetchWord n w).maxEmpty = s.maxEmpty := rfl
@[simp] theorem withFetchWord_floor : (s.withFetchWord n w).floor = s.floor := rfl
@[simp] theorem withFetchWord_ie : (s.withFetchWord n w).ie = s.ie := rfl
@[simp] theorem withFetchWord_err : (s.withFetchWord n w).err = s.err := rfl
@[simp] theorem withFetchWord_cause : (s.withFetchWord n w).cause = s.cause := rfl
@[simp] theorem withFetchWord_txq : (s.withFetchWord n w).txq = s.txq := rfl
@[simp] theorem withFetchWord_rem : (s.withFetchWord n w).rem = s.rem := rfl
@[simp] theorem withFetchWord_frameNo : (s.withFetchWord n w).frameNo = s.frameNo := rfl
@[simp] theorem withFetchWord_nextCwId : (s.withFetchWord n w).nextCwId = s.nextCwId := rfl
@[simp] theorem withFetchWord_emptyCount : (s.withFetchWord n w).emptyCount = s.emptyCount := rfl
@[simp] theorem withFetchWord_txh : (s.withFetchWord n w).txh = s.txh := rfl
@[simp] theorem withFetchWord_txPbits : (s.withFetchWord n w).txPbits = s.txPbits := rfl
@[simp] theorem withFetchWord_rxh : (s.withFetchWord n w).rxh = s.rxh := rfl
@[simp] theorem withFetchWord_hdrValid : (s.withFetchWord n w).hdrValid = s.hdrValid := rfl
@[simp] theorem withFetchWord_part : (s.withFetchWord n w).part = s.part := rfl
@[simp] theorem withFetchWord_rxq : (s.withFetchWord n w).rxq = s.rxq := rfl
@[simp] theorem withFetchWord_rep : (s.withFetchWord n w).rep = s.rep := rfl
@[simp] theorem withFetchWord_rxout : (s.withFetchWord n w).rxout = s.rxout := rfl
@[simp] theorem withFetchWord_cwrep : (s.withFetchWord n w).cwrep = s.cwrep := rfl
@[simp] theorem withFetchWord_cwrepNb : (s.withFetchWord n w).cwrepNb = s.cwrepNb := rfl
@[simp] theorem withFetchWord_mem : (s.withFetchWord n w).mem = s.mem := rfl
@[simp] theorem withFetchWord_rdata : (s.withFetchWord n w).rdata = s.rdata := rfl

/-- Every cause has a code of 1..12 (R271). -/
theorem causeCode_bounds : 1 ≤ causeCode c ∧ causeCode c ≤ 12 := by
  cases c <;> decide

/-- `raise` is what the statements call `recorded`, at the cause's code (R272). -/
theorem raise_eq_recorded : raise c s = recorded (causeCode c) s := by
  cases c <;> rfl

@[simp] theorem recorded_err : (recorded n s).err = s.err ||| BitVec.twoPow 32 n := rfl
@[simp] theorem recorded_cause : (recorded n s).cause = BitVec.ofNat 8 n := rfl
@[simp] theorem recorded_params : (recorded n s).params = s.params := rfl
@[simp] theorem recorded_scrEn : (recorded n s).scrEn = s.scrEn := rfl
@[simp] theorem recorded_failFlag : (recorded n s).failFlag = s.failFlag := rfl
@[simp] theorem recorded_mcsMod : (recorded n s).mcsMod = s.mcsMod := rfl
@[simp] theorem recorded_mcsFec : (recorded n s).mcsFec = s.mcsFec := rfl
@[simp] theorem recorded_flen : (recorded n s).flen = s.flen := rfl
@[simp] theorem recorded_echoMod : (recorded n s).echoMod = s.echoMod := rfl
@[simp] theorem recorded_echoFec : (recorded n s).echoFec = s.echoFec := rfl
@[simp] theorem recorded_maxEmpty : (recorded n s).maxEmpty = s.maxEmpty := rfl
@[simp] theorem recorded_floor : (recorded n s).floor = s.floor := rfl
@[simp] theorem recorded_ie : (recorded n s).ie = s.ie := rfl
@[simp] theorem recorded_txq : (recorded n s).txq = s.txq := rfl
@[simp] theorem recorded_rem : (recorded n s).rem = s.rem := rfl
@[simp] theorem recorded_frameNo : (recorded n s).frameNo = s.frameNo := rfl
@[simp] theorem recorded_nextCwId : (recorded n s).nextCwId = s.nextCwId := rfl
@[simp] theorem recorded_emptyCount : (recorded n s).emptyCount = s.emptyCount := rfl
@[simp] theorem recorded_txh : (recorded n s).txh = s.txh := rfl
@[simp] theorem recorded_txPbits : (recorded n s).txPbits = s.txPbits := rfl
@[simp] theorem recorded_rxh : (recorded n s).rxh = s.rxh := rfl
@[simp] theorem recorded_hdrValid : (recorded n s).hdrValid = s.hdrValid := rfl
@[simp] theorem recorded_part : (recorded n s).part = s.part := rfl
@[simp] theorem recorded_rxq : (recorded n s).rxq = s.rxq := rfl
@[simp] theorem recorded_rep : (recorded n s).rep = s.rep := rfl
@[simp] theorem recorded_rxout : (recorded n s).rxout = s.rxout := rfl
@[simp] theorem recorded_cwrep : (recorded n s).cwrep = s.cwrep := rfl
@[simp] theorem recorded_cwrepNb : (recorded n s).cwrepNb = s.cwrepNb := rfl
@[simp] theorem recorded_mem : (recorded n s).mem = s.mem := rfl
@[simp] theorem recorded_bus : (recorded n s).bus = s.bus := rfl
@[simp] theorem recorded_rdata : (recorded n s).rdata = s.rdata := rfl

@[simp] theorem withReports_rep (reps : List Report) : (withReports s reps).rep = s.rep ++ reps := rfl
@[simp] theorem withReports_params (reps : List Report) : (withReports s reps).params = s.params := rfl
@[simp] theorem withReports_scrEn (reps : List Report) : (withReports s reps).scrEn = s.scrEn := rfl
@[simp] theorem withReports_failFlag (reps : List Report) : (withReports s reps).failFlag = s.failFlag := rfl
@[simp] theorem withReports_mcsMod (reps : List Report) : (withReports s reps).mcsMod = s.mcsMod := rfl
@[simp] theorem withReports_mcsFec (reps : List Report) : (withReports s reps).mcsFec = s.mcsFec := rfl
@[simp] theorem withReports_flen (reps : List Report) : (withReports s reps).flen = s.flen := rfl
@[simp] theorem withReports_echoMod (reps : List Report) : (withReports s reps).echoMod = s.echoMod := rfl
@[simp] theorem withReports_echoFec (reps : List Report) : (withReports s reps).echoFec = s.echoFec := rfl
@[simp] theorem withReports_maxEmpty (reps : List Report) : (withReports s reps).maxEmpty = s.maxEmpty := rfl
@[simp] theorem withReports_floor (reps : List Report) : (withReports s reps).floor = s.floor := rfl
@[simp] theorem withReports_ie (reps : List Report) : (withReports s reps).ie = s.ie := rfl
@[simp] theorem withReports_txq (reps : List Report) : (withReports s reps).txq = s.txq := rfl
@[simp] theorem withReports_rem (reps : List Report) : (withReports s reps).rem = s.rem := rfl
@[simp] theorem withReports_frameNo (reps : List Report) : (withReports s reps).frameNo = s.frameNo := rfl
@[simp] theorem withReports_nextCwId (reps : List Report) : (withReports s reps).nextCwId = s.nextCwId := rfl
@[simp] theorem withReports_emptyCount (reps : List Report) : (withReports s reps).emptyCount = s.emptyCount := rfl
@[simp] theorem withReports_txh (reps : List Report) : (withReports s reps).txh = s.txh := rfl
@[simp] theorem withReports_txPbits (reps : List Report) : (withReports s reps).txPbits = s.txPbits := rfl
@[simp] theorem withReports_rxh (reps : List Report) : (withReports s reps).rxh = s.rxh := rfl
@[simp] theorem withReports_hdrValid (reps : List Report) : (withReports s reps).hdrValid = s.hdrValid := rfl
@[simp] theorem withReports_part (reps : List Report) : (withReports s reps).part = s.part := rfl
@[simp] theorem withReports_rxq (reps : List Report) : (withReports s reps).rxq = s.rxq := rfl
@[simp] theorem withReports_rxout (reps : List Report) : (withReports s reps).rxout = s.rxout := rfl
@[simp] theorem withReports_cwrep (reps : List Report) : (withReports s reps).cwrep = s.cwrep := rfl
@[simp] theorem withReports_cwrepNb (reps : List Report) : (withReports s reps).cwrepNb = s.cwrepNb := rfl
@[simp] theorem withReports_mem (reps : List Report) : (withReports s reps).mem = s.mem := rfl
@[simp] theorem withReports_bus (reps : List Report) : (withReports s reps).bus = s.bus := rfl
@[simp] theorem withReports_rdata (reps : List Report) : (withReports s reps).rdata = s.rdata := rfl

@[simp] theorem resetWith_params : (State.resetWith p).params = p := rfl
@[simp] theorem resetWith_scrEn : (State.resetWith p).scrEn = false := rfl
@[simp] theorem resetWith_failFlag : (State.resetWith p).failFlag = false := rfl
@[simp] theorem resetWith_mcsMod : (State.resetWith p).mcsMod = p.initMod := rfl
@[simp] theorem resetWith_mcsFec : (State.resetWith p).mcsFec = p.initFec := rfl
@[simp] theorem resetWith_flen : (State.resetWith p).flen = p.initFlen := rfl
@[simp] theorem resetWith_echoMod : (State.resetWith p).echoMod = 0 := rfl
@[simp] theorem resetWith_echoFec : (State.resetWith p).echoFec = 0 := rfl
@[simp] theorem resetWith_maxEmpty : (State.resetWith p).maxEmpty = p.initMaxEmpty := rfl
@[simp] theorem resetWith_floor : (State.resetWith p).floor = 1 := rfl
@[simp] theorem resetWith_ie : (State.resetWith p).ie = 0 := rfl
@[simp] theorem resetWith_err : (State.resetWith p).err = 0 := rfl
@[simp] theorem resetWith_cause : (State.resetWith p).cause = 0 := rfl
@[simp] theorem resetWith_txq : (State.resetWith p).txq = [] := rfl
@[simp] theorem resetWith_rem : (State.resetWith p).rem = none := rfl
@[simp] theorem resetWith_frameNo : (State.resetWith p).frameNo = 0 := rfl
@[simp] theorem resetWith_nextCwId : (State.resetWith p).nextCwId = 0 := rfl
@[simp] theorem resetWith_emptyCount : (State.resetWith p).emptyCount = 0 := rfl
@[simp] theorem resetWith_txh : (State.resetWith p).txh = Header.zero := rfl
@[simp] theorem resetWith_txPbits : (State.resetWith p).txPbits = 0 := rfl
@[simp] theorem resetWith_rxh : (State.resetWith p).rxh = Header.zero := rfl
@[simp] theorem resetWith_hdrValid : (State.resetWith p).hdrValid = false := rfl
@[simp] theorem resetWith_part : (State.resetWith p).part = none := rfl
@[simp] theorem resetWith_rxq : (State.resetWith p).rxq = [] := rfl
@[simp] theorem resetWith_rep : (State.resetWith p).rep = [] := rfl
@[simp] theorem resetWith_rxout : (State.resetWith p).rxout = 0 := rfl
@[simp] theorem resetWith_cwrep : (State.resetWith p).cwrep = 0 := rfl
@[simp] theorem resetWith_cwrepNb : (State.resetWith p).cwrepNb = 0 := rfl
@[simp] theorem resetWith_mem : (State.resetWith p).mem = [] := rfl
@[simp] theorem resetWith_bus : (State.resetWith p).bus = [] := rfl
@[simp] theorem resetWith_rdata : (State.resetWith p).rdata = 0 := rfl

/-- What taking the next host access can answer: none when no access is pending, else the oldest one, gone from the
port, with nothing else changed. -/
theorem takeAccess_cases :
    (s.bus = [] ∧ takeAccess s = none) ∨
      ∃ t rest, s.bus = t :: rest ∧ takeAccess s = some (t, { s with bus := rest }) := by
  cases h : s.bus with
  | nil => exact .inl ⟨rfl, by simp [takeAccess, h]⟩
  | cons t rest => exact .inr ⟨t, rest, rfl, by simp [takeAccess, h]⟩

end Sys2Proof.Machine
end

