-- ==== Sys2Proof/Laws/Tx.lean ====
section
/-!
SUPPORT. What the parts of a frame build do (R185 to R188): one lemma for the remnant, one for a codeword, and the
induction over the codewords of a build.
-/

namespace Sys2Proof.Machine

/-- The remnant's part (R185): nothing without a remnant; else its next bits go out and the rest stays. -/
theorem placeRemnant_cases (cap : Nat) (a : BuildAcc) :
    (a.rem = none ∧ placeRemnant cap a = a) ∨
      ∃ r, a.rem = some r ∧
        ((r.bits.length ≤ cap ∧ placeRemnant cap a = { a with out := r.bits, rem := none }) ∨
          (cap < r.bits.length ∧
            placeRemnant cap a =
              { a with
                out := r.bits.take cap
                rem := some { r with bits := r.bits.drop cap, off := r.off + cap } })) := by
  cases h : a.rem with
  | none => exact .inl ⟨rfl, by simp [placeRemnant, h]⟩
  | some r =>
    refine .inr ⟨r, rfl, ?_⟩
    simp only [placeRemnant, h]
    by_cases hc : r.bits.length ≤ cap
    · left
      simp [hc]
    · right
      have hc' : cap < r.bits.length := by omega
      have hne : (r.bits.drop cap).isEmpty = false := by
        cases hd : r.bits.drop cap with
        | nil => rw [List.drop_eq_nil_iff] at hd; omega
        | cons _ _ => rfl
      simp [Nat.min_eq_right hc'.le, hne, hc']

/-- The info word of a new codeword has `k` bits (R186). -/
theorem length_infoWord (c : Code) (q : Bits) : (q.take c.k ++ zeros (c.k - q.length)).length = c.k := by
  simp; omega

/-- A new codeword (R186): its `n` bits go out whole, or are cut at the end of the frame and the rest is the remnant. -/
theorem placeCodeword_cases (p : Params) (c : Code) (cap : Nat) (a : BuildAcc) :
    ∃ cw, cw = encodeWord c (a.txq.take c.k ++ zeros (c.k - a.txq.length)) ∧ cw.length = c.n ∧
      (placeCodeword p c cap a).txq = a.txq.drop c.k ∧
      (placeCodeword p c cap a).nextCwId = incMod p.wCwid a.nextCwId ∧
      (placeCodeword p c cap a).short = c.k - a.txq.length ∧
      ((c.n ≤ cap - a.out.length ∧ (placeCodeword p c cap a).out = a.out ++ cw ∧
          (placeCodeword p c cap a).rem = a.rem) ∨
        (cap - a.out.length < c.n ∧
          (placeCodeword p c cap a).out = a.out ++ cw.take (cap - a.out.length) ∧
          (placeCodeword p c cap a).rem =
            some { id := a.nextCwId, fec := c.id, bits := cw.drop (cap - a.out.length), off := cap - a.out.length })) := by
  refine ⟨_, rfl, length_encodeWord _ _, rfl, rfl, rfl, ?_⟩
  by_cases h : c.n ≤ cap - a.out.length
  · left
    refine ⟨h, ?_, by simp [placeCodeword, h]⟩
    simp only [placeCodeword]
    rw [List.take_of_length_le (by simpa using h)]
  · right
    exact ⟨by omega, rfl, by simp [placeCodeword, h]⟩

/-- Induction over the new codewords of a build (R182, R187): what holds before them and is kept by each one that may
begin holds after them. -/
theorem placeCodewords_induct {p : Params} {c : Code} {b cap : Nat} {P : BuildAcc → Prop}
    (hstep : ∀ a, P a → b ≤ cap - a.out.length → 0 < a.txq.length → P (placeCodeword p c cap a))
    (fuel : Nat) (a : BuildAcc) (h0 : P a) : P (placeCodewords p c b cap fuel a) := by
  induction fuel generalizing a with
  | zero => exact h0
  | succ fuel ih =>
    rw [placeCodewords]
    split
    · rename_i h; exact ih _ (hstep a h0 h.1 h.2)
    · exact h0

/-- The fuel of the loop is enough: it ends only when no codeword may begin (R182, R187). -/
theorem placeCodewords_done {p : Params} {c : Code} {b cap : Nat} (hk : 1 ≤ c.k) (fuel : Nat) (a : BuildAcc)
    (hf : a.txq.length ≤ fuel) :
    ¬(b ≤ cap - (placeCodewords p c b cap fuel a).out.length ∧ 0 < (placeCodewords p c b cap fuel a).txq.length) := by
  induction fuel generalizing a with
  | zero => simp only [placeCodewords]; omega
  | succ fuel ih =>
    rw [placeCodewords]
    split
    · rename_i h
      refine ih _ ?_
      have : (placeCodeword p c cap a).txq = a.txq.drop c.k := rfl
      rw [this, List.length_drop]
      omega
    · rename_i h; exact h

/-- A build never places more than the capacity (R183). -/
theorem length_buildPayload_le (s : State) (b : Nat) (c : Code) :
    (buildPayload s b c).out.length ≤ frameCapacity s b := by
  have h0 : (placeRemnant (frameCapacity s b)
      { out := [], txq := s.txq, nextCwId := s.nextCwId, rem := s.rem, short := 0 }).out.length ≤
        frameCapacity s b := by
    rcases placeRemnant_cases (frameCapacity s b)
      { out := [], txq := s.txq, nextCwId := s.nextCwId, rem := s.rem, short := 0 } with
      ⟨_, h⟩ | ⟨r, _, ⟨hle, h⟩ | ⟨_, h⟩⟩ <;> rw [h]
    · simp
    · exact hle
    · simp
  rw [buildPayload]
  split
  · refine placeCodewords_induct (P := fun a => a.out.length ≤ frameCapacity s b) ?_ _ _ h0
    intro a ha _ _
    obtain ⟨cw, _, hlen, _, _, _, ⟨hn, ho, _⟩ | ⟨_, ho, _⟩⟩ := placeCodeword_cases s.params c (frameCapacity s b) a
    · rw [ho, List.length_append]; omega
    · rw [ho, List.length_append, List.length_take]; omega
  · exact h0

end Sys2Proof.Machine
end

