-- ==== Sys2Proof/Laws/Exec.lean ====
section
/-!
SUPPORT. What each instruction and a step can answer, once for all (the inversion lemmas that later proofs cite).
-/

namespace Sys2Proof.Machine

open Host (Outcome)

variable {s t : State}

/-- TX_PUSH answers one of four next states (R181). -/
theorem execTxPush_cases (data : BitVec 8) (cnt : BitVec 4) (s : State) :
    (s.params.fecEn = false ∧ execTxPush data cnt s = .next (raise .cmdUnsupported s)) ∨
      (s.params.fecEn = true ∧ cntLegal cnt = false ∧ execTxPush data cnt s = .next (raise .cmdArg s)) ∨
      (s.params.fecEn = true ∧ cntLegal cnt = true ∧ s.params.txqCap < s.txq.length + cnt.toNat ∧
        execTxPush data cnt s = .next (raise .txqOvf s)) ∨
      (s.params.fecEn = true ∧ cntLegal cnt = true ∧ s.txq.length + cnt.toNat ≤ s.params.txqCap ∧
        execTxPush data cnt s = .next { s with txq := s.txq ++ pushBits data cnt }) := by
  unfold execTxPush
  cases s.params.fecEn
  · simp
  · cases cntLegal cnt
    · simp
    · by_cases h : s.params.txqCap < s.txq.length + cnt.toNat
      · simp [h]
      · simp [h, show s.txq.length + cnt.toNat ≤ s.params.txqCap by omega]

/-- TX_BUILD refuses on a no-FEC link, stops in a state no run reaches, and else builds a frame (R182). -/
theorem execTxBuild_cases (s : State) :
    (s.params.fecEn = false ∧ execTxBuild s = .next (raise .cmdUnsupported s)) ∨
      (s.params.fecEn = true ∧ (bps? s.mcsMod = none ∨ code? s.params (frameCode s) = none) ∧
        execTxBuild s = .fault .undefinedScheme) ∨
      ∃ b c, s.params.fecEn = true ∧ bps? s.mcsMod = some b ∧ code? s.params (frameCode s) = some c ∧
        execTxBuild s = .next (buildFrame s b c) := by
  unfold execTxBuild
  cases s.params.fecEn
  · simp
  · cases bps? s.mcsMod <;> cases code? s.params (frameCode s) <;> simp

/-- HDR_BUILD writes HDR_OUT or refuses (R151). -/
theorem execHdrBuild_cases (s : State) :
    (headerFits s.params s.txh = true ∧
        execHdrBuild s =
          .next { s with mem := writeHdrOut s.mem (headerBits s.params (headerSeed s) s.txh) }) ∨
      (headerFits s.params s.txh = false ∧ execHdrBuild s = .next (raise .cmdArg s)) := by
  unfold execHdrBuild
  cases headerFits s.params s.txh <;> simp

/-- HDR_PARSE latches a header or drops the frame (R152). -/
theorem execHdrParse_cases (s : State) :
    (headerParse s.params (headerSeed s) (hdrInSamples s) = none ∧
        execHdrParse s = .next (raise .hdrCrc { s with hdrValid := false })) ∨
      ∃ h, headerParse s.params (headerSeed s) (hdrInSamples s) = some h ∧
        execHdrParse s = .next { s with rxh := h, hdrValid := true } := by
  unfold execHdrParse
  cases headerParse s.params (headerSeed s) (hdrInSamples s) <;> simp

/-- RX_FRAME refuses, drops the frame, or commits what it deframed (R218). -/
theorem execRxFrame_cases (s : State) :
    (s.params.fecEn = false ∧ execRxFrame s = .next (raise .cmdUnsupported s)) ∨
      (s.params.fecEn = true ∧ s.hdrValid = false ∧ execRxFrame s = .next (raise .hdrNovalid s)) ∨
      (s.params.fecEn = true ∧ s.hdrValid = true ∧ rangeCheck s.params s.rxh = none ∧
        execRxFrame s = .next (raise .hdrBadfield { s with hdrValid := false })) ∨
      ∃ b c, s.params.fecEn = true ∧ s.hdrValid = true ∧ rangeCheck s.params s.rxh = some (b, c) ∧
        execRxFrame s = .next (commitFrame s (deframe s b c)) := by
  unfold execRxFrame
  cases s.params.fecEn
  · simp
  · cases s.hdrValid
    · simp
    · rcases rangeCheck s.params s.rxh with _ | ⟨b, c⟩ <;> simp

/-- RX_POP refuses or pops (R219). -/
theorem execRxPop_cases (cnt : BitVec 4) (s : State) :
    (s.params.fecEn = false ∧ execRxPop cnt s = .next (raise .cmdUnsupported s)) ∨
      (s.params.fecEn = true ∧ cntLegal cnt = false ∧ execRxPop cnt s = .next (raise .cmdArg s)) ∨
      (s.params.fecEn = true ∧ cntLegal cnt = true ∧
        execRxPop cnt s =
          .next { s with rxout := rxoutWord (s.rxq.take cnt.toNat), rxq := s.rxq.drop cnt.toNat }) := by
  unfold execRxPop
  cases s.params.fecEn
  · simp
  · cases cntLegal cnt <;> simp

/-- CWREP_POP refuses, or takes the oldest report (R220). -/
theorem execCwrepPop_cases (s : State) :
    (s.params.fecEn = false ∧ execCwrepPop s = .next (raise .cmdUnsupported s)) ∨
      (s.params.fecEn = true ∧ s.rep = [] ∧ execCwrepPop s = .next { s with cwrep := 0, cwrepNb := 0 }) ∨
      ∃ e rest, s.params.fecEn = true ∧ s.rep = e :: rest ∧
        execCwrepPop s = .next { s with cwrep := cwrepWord e, cwrepNb := e.nbits.setWidth 32, rep := rest } := by
  unfold execCwrepPop
  cases s.params.fecEn
  · simp
  · cases s.rep <;> simp

/-- RD answers a value, or 0 with BUS raised (R252). -/
theorem execRd_cases (a : BitVec 16) (size : Nat) (s : State) :
    (target? a size = none ∧ execRd a size s = .next (raise .bus { s with rdata := 0 })) ∨
      ∃ pl, target? a size = some pl ∧ execRd a size s = .next { s with rdata := readValue s pl a } := by
  unfold execRd
  cases target? a size <;> simp

/-- WR raises BUS, or has its write effect (R253). -/
theorem execWr_cases (a : BitVec 16) (v : Word) (size : Nat) (s : State) :
    ((target? a size = none ∨ ∃ pl, target? a size = some pl ∧ placeAccess pl = .ro) ∧
        execWr a v size s = .next (raise .bus s)) ∨
      ∃ pl, target? a size = some pl ∧ placeAccess pl ≠ .ro ∧ execWr a v size s = writePlace pl a v s := by
  unfold execWr
  cases target? a size with
  | none => simp
  | some pl => by_cases h : placeAccess pl = .ro <;> simp [h]

/-- A command word is executed as its command (R256). -/
theorem dispatchCommand_ok {w : Word} {i : Instr} (h : decodeCommand w = .ok i) (s : State) :
    dispatchCommand w s = exec i s := by
  rcases decodeCommand_cases h with ⟨_, rfl⟩ | ⟨_, rfl⟩ | ⟨_, rfl⟩ | ⟨_, rfl⟩ | ⟨_, rfl⟩ | ⟨_, rfl⟩ | ⟨_, rfl⟩ |
    ⟨_, rfl⟩ | ⟨_, rfl⟩ <;> simp [dispatchCommand, h, exec]

/-- A word that is no command raises CMD_ILLEGAL (R114, R256). -/
theorem dispatchCommand_error {w : Word} {e : DecodeError} (h : decodeCommand w = .error e) (s : State) :
    dispatchCommand w s = .next (raise .cmdIllegal s) := by
  simp [dispatchCommand, h]

/-- A step idles, or runs the host's oldest access (R92, R286). -/
theorem step_cases (s : State) :
    (s.bus = [] ∧ step s = .next s) ∨
      ∃ a rest, s.bus = a :: rest ∧ step s = exec (decodeAccess a) { s with bus := rest } := by
  rcases takeAccess_cases s with ⟨hb, h⟩ | ⟨a, rest, hb, h⟩
  · exact .inl ⟨hb, by simp [step, h]⟩
  · exact .inr ⟨a, rest, hb, by simp [step, h]⟩

end Sys2Proof.Machine
end

