-- ==== Sys2Proof/Laws/PerInstr.lean ====
section
/-!
SUPPORT. The family of statements made per instruction: `OpcodeMap`, that a command's word lies in the opcode map of
R113 and a well-formed bus write to CMD carries no command word.
-/

namespace Sys2Proof.Laws

/-- The instruction is a command, not a bus access (R110). -/
def isCommand : Instr → Bool
  | .nop => true
  | .softReset => true
  | .txPush _ _ => true
  | .txBuild => true
  | .hdrBuild => true
  | .hdrParse => true
  | .rxFrame => true
  | .rxPop _ => true
  | .cwrepPop => true
  | .rd _ _ => false
  | .wr _ _ _ => false

/-- Where a well-formed instruction is the 32-bit write of `w` to CMD, `w` is a command word exactly when the instruction
is a command (R113, R114, R118). -/
def OpcodeMap.Statement (i : Instr) : Prop :=
  i.wellFormed = true → ∀ w, encode i = commandAccess w → isCommandWord w = isCommand i

theorem commandAccess_inj {v w : Word} (h : commandAccess v = commandAccess w) : v = w := by
  simpa [commandAccess] using h

theorem isCommandWord_txPush : ∀ (data : BitVec 8) (cnt : BitVec 4),
    isCommandWord ((cnt.setWidth 32 <<< 16) ||| (data.setWidth 32 <<< 8) ||| 0x10) = true := by
  decide +kernel

theorem isCommandWord_rxPop : ∀ cnt : BitVec 4, isCommandWord ((cnt.setWidth 32 <<< 16) ||| 0x31) = true := by
  decide +kernel

theorem OpcodeMap.nop : OpcodeMap.Statement .nop := fun _ w h => by
  rw [← commandAccess_inj h]; decide
theorem OpcodeMap.softReset : OpcodeMap.Statement .softReset := fun _ w h => by
  rw [← commandAccess_inj h]; decide
theorem OpcodeMap.txPush (data : BitVec 8) (cnt : BitVec 4) : OpcodeMap.Statement (.txPush data cnt) := fun _ w h => by
  rw [← commandAccess_inj h]; exact isCommandWord_txPush data cnt
theorem OpcodeMap.txBuild : OpcodeMap.Statement .txBuild := fun _ w h => by
  rw [← commandAccess_inj h]; decide
theorem OpcodeMap.hdrBuild : OpcodeMap.Statement .hdrBuild := fun _ w h => by
  rw [← commandAccess_inj h]; decide
theorem OpcodeMap.hdrParse : OpcodeMap.Statement .hdrParse := fun _ w h => by
  rw [← commandAccess_inj h]; decide
theorem OpcodeMap.rxFrame : OpcodeMap.Statement .rxFrame := fun _ w h => by
  rw [← commandAccess_inj h]; decide
theorem OpcodeMap.rxPop (cnt : BitVec 4) : OpcodeMap.Statement (.rxPop cnt) := fun _ w h => by
  rw [← commandAccess_inj h]; exact isCommandWord_rxPop cnt
theorem OpcodeMap.cwrepPop : OpcodeMap.Statement .cwrepPop := fun _ w h => by
  rw [← commandAccess_inj h]; decide
theorem OpcodeMap.rd (addr : BitVec 16) (size : Nat) : OpcodeMap.Statement (.rd addr size) := fun _ w h => by
  simp [encode, commandAccess] at h
theorem OpcodeMap.wr (addr : BitVec 16) (value : Word) (size : Nat) : OpcodeMap.Statement (.wr addr value size) :=
  fun hw w h => by
    simp only [encode, commandAccess, BusAccess.mk.injEq, Option.some.injEq] at h
    obtain ⟨rfl, rfl, rfl⟩ := h
    simpa [Instr.wellFormed, isCommand] using hw

end Sys2Proof.Laws
end

