-- ==== Sys2Proof/Tests/Slice0.lean ====
section
/-!
SUPPORT. Tests. Expected values come from spec/95_test_vectors.md (vector named at each test) and from words written out
by hand from the encoding of spec/30_encoding.md. Section 5 shows, for each statement with hypotheses, a concrete
state and operands that meet them.
-/

namespace Sys2Proof.Tests

-- one kernel evaluation after the other: in parallel each holds a thread of its own
set_option Elab.async false

open Sys2Proof Sys2Proof.Machine

/-! ## Helpers -/

/-- Configuration F of section 2 of 95_test_vectors.md, after reset. -/
def fec : State := State.reset
/-- Configuration N, after reset. -/
def noFec : State := State.resetWith Config.configN
/-- One value of the state after an instruction. -/
def after {α : Type} (i : Instr) (s : State) (f : State → α) : Option α := (nextState (exec i s)).map f
/-- A header field set in the order of 95_test_vectors.md. -/
def fields (plen seq mod fec flen cwid off short : Nat) : Header :=
  { plen := BitVec.ofNat 16 plen
    flen := BitVec.ofNat 16 flen
    seq := BitVec.ofNat 16 seq
    mod := BitVec.ofNat 4 mod
    fec := BitVec.ofNat 4 fec
    emod := 0
    efec := 0
    cwid := BitVec.ofNat 16 cwid
    off := BitVec.ofNat 16 off
    short := BitVec.ofNat 16 short }
/-- A bit string of `w` bits written as a number. -/
def bits (w v : Nat) : Bits := bin w v
/-- A receiver with a valid header and noiseless payload samples. -/
def rx (h : Header) (payload : Bits) : State :=
  { fec with rxh := h, hdrValid := true, mem := replaceWindow [] rxSoftBase 0x8000 (payload.map softIdeal) }
/-- The first three words of HDR_OUT. -/
def hdrOut (s : State) : List Word := [readWord s.mem 0x100, readWord s.mem 0x104, readWord s.mem 0x108]
/-- The cause recorded last, with ERR. -/
def errs (s : State) : Word × BitVec 8 := (s.err, s.cause)

/-- The rest of `Inv`, beside well-formed parameters, as one decidable proposition. -/
abbrev InvAll (s : State) : Prop :=
  legalMcs s.params s.mcsMod s.mcsFec = true ∧ legalFlen s.params s.flen = true ∧
    s.ie &&& ~~~(0x00011FFE : Word) = 0 ∧ s.err &&& ~~~(0x00001FFE : Word) = 0 ∧ s.cause.toNat ≤ 12 ∧
    s.txq.length ≤ s.params.txqCap ∧ s.rem.all (remnantOk s.params) = true ∧ s.frameNo.toNat < 2 ^ s.params.wSeq ∧
    s.nextCwId.toNat < 2 ^ s.params.wCwid ∧ s.txPbits.toNat ≤ 32768 ∧ headerInLayout s.params s.rxh = true ∧
    s.part.all (partialOk s.params) = true ∧ s.rxq.length ≤ s.params.rxqCap ∧ s.rep.length ≤ s.params.cwrepCap ∧
    s.rep.all (reportOk s.params) = true ∧ s.rxout &&& (0xFFFFF000 : Word) = 0 ∧ s.cwrep &&& (0xFFF40000 : Word) = 0 ∧
    s.cwrepNb &&& (0xFFFF0000 : Word) = 0 ∧ Memory.wf s.mem ∧ s.mem.all (fun c => inWindow c.1) = true ∧
    idleWithoutFec s = true

theorem inv_of {s : State} (a : paramsWf s.params = true) (h : InvAll s) : Inv s := by
  obtain ⟨b, c, d, e, f, g, h, i, j, k, l, m, n, o, p, q, r, t, u, v, w⟩ := h
  exact ⟨a, b, c, d, e, f, g, h, i, j, k, l, m, n, o, p, q, r, t, u, v, w⟩

/-! ## 1. Well-formedness -/

/-- The one ill-formed form is refused: a 32-bit write to CMD of a word that is a command (TX_BUILD, R118). -/
theorem test_wellFormed_refuses_command_as_wr : (Instr.wr 0x030 0x00000011 4).wellFormed = false := by decide

/-- Its neighbours are well-formed: another size, another address, a word that is no command. -/
theorem test_wellFormed_accepts_neighbours :
    (Instr.wr 0x030 0x00000011 2).wellFormed = true ∧ (Instr.wr 0x034 0x00000011 4).wellFormed = true ∧
      (Instr.wr 0x030 0x00000002 4).wellFormed = true ∧ Instr.txBuild.wellFormed = true := by decide

/-- Configuration F is a well-formed parameter set (R8). -/
theorem test_configF_wf : paramsWf Config.configF = true := by decide +kernel
/-- Configuration N is a well-formed parameter set (R8). -/
theorem test_configN_wf : paramsWf Config.configN = true := by decide +kernel

/-- A zero seed, a header too short, an initial scheme of no modulation: the block refuses to exist (R8). -/
theorem test_malformed_params :
    State.construct { Config.configF with scrSeed := 0 } = .error .malformedConfiguration ∧
      State.construct { Config.configF with hc := 45 } = .error .malformedConfiguration ∧
      State.construct { Config.configF with initMod := 5 } = .error .malformedConfiguration := by decide +kernel

/-! ## 2. Decoding: words written out from R110, R113 (`OP [7:0]`, `DATA [15:8]`, `CNT [19:16]`) -/

theorem test_decode_nop : decodeCommand 0b00000000000000000000000000000000 = .ok .nop := by decide
theorem test_decode_soft_reset : decodeCommand 0b00000000000000000000000000000001 = .ok .softReset := by decide
/-- `TX_PUSH 0xB4, 6`: CNT 0110, DATA 10110100, OP 00010000. -/
theorem test_decode_tx_push : decodeCommand 0b00000000000001101011010000010000 = .ok (.txPush 0xB4 6) := by decide
theorem test_decode_tx_build : decodeCommand 0b00000000000000000000000000010001 = .ok .txBuild := by decide
theorem test_decode_hdr_build : decodeCommand 0b00000000000000000000000000100000 = .ok .hdrBuild := by decide
theorem test_decode_hdr_parse : decodeCommand 0b00000000000000000000000000100001 = .ok .hdrParse := by decide
theorem test_decode_rx_frame : decodeCommand 0b00000000000000000000000000110000 = .ok .rxFrame := by decide
/-- `RX_POP 8`: CNT 1000, OP 00110001. -/
theorem test_decode_rx_pop : decodeCommand 0b00000000000010000000000000110001 = .ok (.rxPop 8) := by decide
theorem test_decode_cwrep_pop : decodeCommand 0b00000000000000000000000000110010 = .ok .cwrepPop := by decide

/-- Reserved opcodes and reserved bits are rejected by name (V-H13 to V-H16). -/
theorem test_decode_illegal :
    decodeCommand 0x00000002 = .error .reservedOpcode ∧ decodeCommand 0x000000FF = .error .reservedOpcode ∧
      decodeCommand 0x00000111 = .error .reservedBits ∧ decodeCommand 0x0100A510 = .error .reservedBits ∧
      decodeCommand 0x00080131 = .error .reservedBits := by decide

/-- A command is one 32-bit word (R116). -/
theorem test_decode_length : decodeTableWord 8 0x11 = none ∧ decodeTableWord 64 0x11 = none := by decide

/-- Bus accesses: `RD CAPS`, `WR MCS, 0x13`, and the write of a command word to CMD. -/
theorem test_decode_access :
    decodeAccess ⟨0x004, 4, none⟩ = .rd 0x004 4 ∧ decodeAccess ⟨0x00C, 4, some 0x13⟩ = .wr 0x00C 0x13 4 ∧
      decodeAccess ⟨0x030, 4, some 0x0008A510⟩ = .txPush 0xA5 8 ∧
      decodeAccess ⟨0x030, 2, some 0x11⟩ = .wr 0x030 0x11 2 := by decide

/-- `encode` writes the words of R118's table: `TX_PUSH 0xA5, 8` and `RX_POP 8`. -/
theorem test_encode : encode (.txPush 0xA5 8) = commandAccess 0x0008A510 ∧ encode (.rxPop 8) = commandAccess 0x00080031 := by
  decide

/-! ## 3. Primitives -/

/-- V-HDR11: `CRC8("123456789") = 0xF4` (0x313233343536373839 is the string's ASCII). -/
theorem test_crc8 : crc8 (bits 72 0x313233343536373839) = 0xF4 := by decide +kernel
/-- V-HDR11: the scrambler sequence of seed 0x7F. -/
theorem test_scrambler : scramble 0x7F (zeros 96) = bits 96 0x0EF2C902262EB60CD4E7B42A := by decide +kernel
/-- Section 2: `Encode(1010) = 10100101`, `Encode(101100) = 1011001000`. -/
theorem test_toy_codes :
    encodeWord Config.toyCode1 (bits 4 0b1010) = bits 8 0b10100101 ∧
      encodeWord Config.toyCode2 (bits 6 0b101100) = bits 10 0b1011001000 := by decide +kernel

/-! ## 4. Instructions -/

/-- V-H18. -/
theorem test_nop : after .nop fec id = some fec := by decide +kernel

/-- V-H21: the configuration and the queues return to their reset values. -/
theorem test_soft_reset :
    after .softReset { fec with mcsMod := 3, txq := [true], rem := some ⟨1, 1, bits 4 0b1010, 4⟩, nextCwId := 2 } id =
      some fec := by decide +kernel

/-- V-TX1: `push A5,8` on the empty queue. -/
theorem test_tx_push : after (.txPush 0xA5 8) fec (·.txq) = some (bits 8 0b10100101) := by decide +kernel
/-- V-TX13: TXQ_OVF for a cap of 10; the link kind is checked before the count. -/
theorem test_tx_push_errors :
    after (.txPush 0xE0 3) { fec with params := { Config.configF with txqCap := 10 }, txq := bits 8 0xA5 }
        (fun t => (errs t, t.txq.length)) = some ((0x20, 5), 8) ∧
      after (.txPush 0xA5 0) noFec errs = some (0x4, 2) := by decide +kernel

/-- V-TX2, build B1: 8PSK, the second codeword straddles the frame's end. -/
theorem test_tx_build_straddle :
    after .txBuild { fec with mcsMod := 3, txq := bits 8 0xA5 }
        (fun t => (hdrOut t, readWord t.mem 0x1000, t.txPbits.toNat, t.rem)) =
      some ([0x00400031, 0x01000000, 0x000000D3], 0xA5500000, 12, some ⟨1, 1, bits 4 0b1010, 4⟩) := by decide +kernel
/-- V-TX5, build E2: a code change waits for the remnant, which is sent with 2 bits of fill. -/
theorem test_tx_build_code_change :
    after .txBuild { fec with
        mcsMod := 3, mcsFec := 2, txq := bits 8 0x3C, rem := some ⟨1, 1, bits 4 0b1010, 4⟩, frameNo := 1, nextCwId := 2 }
        (fun t => (t.txh, hdrOut t, t.txq, t.rem)) =
      some (fields 2 1 3 1 1 1 4 0, [0x00200131, 0x01010010, 0x00000081], bits 8 0x3C, none) := by decide +kernel

/-- V-HDR2: the scrambled no-FEC header. -/
theorem test_hdr_build :
    after .hdrBuild { noFec with scrEn := true, txh := fields 5 1 2 0 2 0 0 0 } hdrOut =
      some [0x0EA2C822, 0x24190000, 0] := by decide +kernel
/-- V-HDR10: PLEN 4096 does not fit 12 bits; CWID 0xFFFF is outside the no-FEC layout and not checked. -/
theorem test_hdr_build_field_check :
    after .hdrBuild { noFec with txh := fields 4096 0 0 0 0 0 0 0 } errs = some (0x8, 3) ∧
      after .hdrBuild { noFec with txh := fields 0 0 0 0 0 0xFFFF 0 0 } errs = some (0, 0) := by decide +kernel

/-- The samples of V-HDR7's header. -/
def hdr7 : List Sample := (bits 96 0x00600331010100100002106F).map softIdeal

/-- V-HDR7: the FEC header is parsed back. -/
theorem test_hdr_parse :
    after .hdrParse (withHdrIn fec hdr7) (fun t => (t.rxh, t.hdrValid)) =
      some ({ fields 6 3 3 1 1 1 4 0 with emod := 2, efec := 1 }, true) := by decide +kernel
/-- V-HDR12: sample 3 flipped. -/
theorem test_hdr_parse_bad_crc :
    after .hdrParse (withHdrIn { fec with hdrValid := true } (hdr7.set 3 0x81)) (fun t => (errs t, t.hdrValid, t.rxh)) =
      some ((0x80, 7), false, Header.zero) := by decide +kernel

/-- V-RX2, frame B1: one codeword decoded, the next one half received. -/
theorem test_rx_frame_straddle :
    after .rxFrame (rx (fields 4 0 3 1 1 0 0 0) (bits 12 0b101001010101)) (fun t => (t.rxq, t.rep, t.part)) =
      some (bits 4 0b1010, [⟨0, .ok, 4⟩], some ⟨1, 1, (bits 4 0b0101).map softIdeal, 0⟩) := by decide +kernel
/-- V-RX4: one wrong bit in a codeword fails it; by default it is dropped. -/
theorem test_rx_frame_failed :
    after .rxFrame (rx (fields 4 0 2 1 1 0 0 0) (bits 8 0b10100001)) (fun t => (t.rxq, t.rep, errs t)) =
      some ([], [⟨0, .failDropped, 0⟩], (0x400, 10)) := by decide +kernel

/-- V-RX10: RX_POP 8 of five bits. -/
theorem test_rx_pop : after (.rxPop 8) { fec with rxq := bits 5 0b10110 } (fun t => (t.rxout, t.rxq)) = some (0x5B0, []) := by
  decide +kernel
/-- V-RX10: a count of 0 is an argument error. -/
theorem test_rx_pop_zero : after (.rxPop 0) { fec with rxq := [true] } (fun t => (errs t, t.rxq)) = some ((0x8, 3), [true]) := by
  decide +kernel

/-- V-RX15. -/
theorem test_cwrep_pop :
    after .cwrepPop { fec with rep := [⟨5, .failDropped, 0⟩] } (fun t => (t.cwrep, t.cwrepNb)) = some (0x00090005, 0) ∧
      after .cwrepPop { fec with rep := [⟨1, .lost, 0⟩] } (fun t => (t.cwrep, t.rep)) = some (0x000B0001, []) := by
  decide +kernel
/-- V-RX15 under configuration N. -/
theorem test_cwrep_pop_no_fec : after .cwrepPop noFec errs = some (0x4, 2) := by decide +kernel

/-- V-H2, V-H3. -/
theorem test_rd :
    after (.rd 0x004 4) fec (·.rdata) = some 0x4305 ∧ after (.rd 0x004 4) noFec (·.rdata) = some 0x4182 ∧
      after (.rd 0x00C 4) fec (·.rdata) = some 0x12 := by decide +kernel
/-- V-H9, V-H10: misaligned and unmapped. -/
theorem test_rd_bad :
    after (.rd 0x002 4) fec (fun t => (t.rdata, errs t)) = some (0, (0x1000, 12)) ∧
      after (.rd 0x064 4) fec (fun t => (t.rdata, errs t)) = some (0, (0x1000, 12)) := by decide +kernel

/-- V-H7, V-H19, V-TX14. -/
theorem test_wr :
    after (.wr 0x020 0xFFFFFFFF 4) fec (·.ie) = some 0x00011FFE ∧
      after (.wr 0x028 0x2 4) { fec with err := 0x1012, cause := 4 } errs = some (0x1010, 4) ∧
      after (.wr 0x00C 0x15 4) fec (fun t => (errs t, t.mcsMod)) = some ((0x10, 4), 2) := by decide +kernel
/-- V-H11, V-H12, V-H13. -/
theorem test_wr_bad :
    after (.wr 0x000 0 4) fec errs = some (0x1000, 12) ∧ after (.wr 0x008 1 2) fec errs = some (0x1000, 12) ∧
      after (.wr 0x030 0x2 4) fec errs = some (0x2, 1) := by decide +kernel

/-- A step runs the host's access: V-TX1's push, as the word `0x0008A510` written to CMD. -/
theorem test_step : nextState (step (fec.withFetchWord 32 0x0008A510)) = some { fec with txq := bits 8 0xA5 } := by
  decide +kernel

/-! ## 5. Witnesses: each statement's hypotheses met by a concrete state and operands -/

/-- DecodeOfEncode; StepRunsTheHostAccess, its first and second clauses. -/
theorem witness_wellFormed_step :
    (Instr.txPush 0xFF 15).wellFormed = true ∧
      ({ fec with bus := [encode .txBuild] } : State).bus = encode .txBuild :: [] ∧ fec.bus = [] := by decide +kernel

/-- StepRunsTheHostAccess, its third clause; CommandIsItsWriteToCmd. -/
theorem witness_decoded_word :
    decodeTableWord 32 0x0006B410 = some (.txPush 0xB4 6) ∧ decodeCommand 0x000F0031 = .ok (.rxPop 15) :=
  ⟨by decide +kernel, rfl⟩

/-- ConstructionNeedsWellFormedParameters, its first clause, and ConstructionAndSoftResetGiveTheResetTable: configuration
F is well-formed, condition by condition. -/
theorem witness_wellFormedParameters : WellFormedParameters Config.configF := by
  refine ⟨by decide, by decide, by decide, by decide, by decide, by decide, by decide, by decide, by decide, by decide,
    by decide, fun _ c hc => ?_, by decide, by decide, by decide⟩
  have h : 1 ≤ c.k ∧ c.k ≤ c.n ∧ c.n ≤ 2 ^ Config.configF.wOff ∧
      c.k ≤ 2 ^ Config.configF.wShort ∧ codecContract c = true := by
    simpa [legalCode, and_assoc] using (paramsWf_good test_configF_wf).codes rfl c hc
  exact ⟨h.1, h.2.1, h.2.2.1, h.2.2.2.1, fun x hx => decode_encode h.2.2.2.2 x hx⟩

/-- ConstructionNeedsWellFormedParameters, its second clause: a zero seed. -/
theorem witness_malformedParameters : ¬WellFormedParameters { Config.configF with scrSeed := 0 } :=
  fun h => h.2.2.2.2.2.2.2.2.2.2.1 rfl

/-- ConstructionAndSoftResetGiveTheResetTable, its last clause. -/
theorem witness_resetValues : ResetValues Config.configF (State.resetWith Config.configF) := by
  simp only [ResetValues, State.resetWith, true_and]
  exact fun _ => rfl

/-- ConstructedStatesAreGood. -/
theorem witness_construct : State.construct Config.configF = .ok State.reset := if_pos test_configF_wf

/-- The reset state is good: StepKeepsGoodStates, GoodStatesNeverStop, and every statement with `Inv s`. -/
theorem witness_inv : Inv fec := inv_of test_configF_wf (by decide +kernel)

/-- The no-FEC reset state is good. -/
theorem witness_inv_noFec : Inv noFec := inv_of test_configN_wf (by decide +kernel)

/-- StepKeepsGoodStates, ParametersNeverChange, StepKeepsOutputTailsZero: a step that builds a frame. -/
theorem witness_step : (nextState (step { fec with bus := [encode .txBuild] })).isSome = true := by decide +kernel

/-- StepKeepsOutputTailsZero. -/
theorem witness_outputTailsZero : OutputTailsZero fec := by
  have z : ((0 : Byte) ++ (0 : Byte) ++ (0 : Byte) ++ (0 : Byte) : Word) = 0 := by decide
  have h (base j : Nat) : readBit fec.mem base j = false :=
    (congrArg (fun v : Word => v.getLsbD (31 - j % 32)) z).trans (by simp)
  exact ⟨fun _ _ _ => h _ _, fun _ _ _ => h _ _⟩

/-- FecCommandsNeedAnFecLink. -/
theorem witness_noFec : noFec.params.fecEn = false := rfl

/-- A queue to send, and a remnant of code 1 pending under MCS code 2. -/
def sending : State :=
  { fec with mcsMod := 3, mcsFec := 2, txq := bits 8 0x3C, rem := some ⟨1, 1, bits 4 0b1010, 4⟩, nextCwId := 2 }

/-- TxBuildWritesHeaderAndCounters (with a remnant), TxBuildSendsTheCodewordStream, CodeChangeWaitsForTheRemnant,
TxBuildMakesProgress, TxQueueDrains. -/
theorem witness_sending :
    Inv sending ∧ sending.params.fecEn = true ∧ sending.rem = some ⟨1, 1, bits 4 0b1010, 4⟩ ∧
      (1 : BitVec 4) ≠ sending.mcsFec ∧ (nextState (exec .txBuild sending)).isSome = true ∧ sending.txq ≠ [] :=
  ⟨inv_of test_configF_wf (by decide +kernel), by decide +kernel⟩

/-- TxBuildWritesHeaderAndCounters without a remnant; TxBuildFillsTheFrame, a new remnant after the build (V-TX2) and
bits left in the queue (V-TX1). -/
theorem witness_sending_no_remnant :
    Inv { fec with mcsMod := 3, txq := bits 8 0xA5 } ∧ Inv { fec with txq := bits 8 0xA5 } ∧
      after .txBuild { fec with mcsMod := 3, txq := bits 8 0xA5 } (fun t => t.rem.isSome) = some true ∧
      after .txBuild { fec with txq := bits 8 0xA5 } (fun t => (t.txq, t.txh.fec)) = some (bits 4 0b0101, 1) :=
  ⟨inv_of test_configF_wf (by decide +kernel), inv_of test_configF_wf (by decide +kernel), by decide +kernel⟩

/-- HeaderFollowsTheLayout, HdrBuildWritesTheHeader, HeaderRoundTrip: the fields at their maximum fit (V-HDR9), one more
does not (V-HDR10). -/
theorem witness_header_fits :
    paramsWf Config.configF = true ∧ headerFits Config.configF (fields 4095 4095 15 15 255 255 16383 16383) = true ∧
      headerFits Config.configF (fields 4096 0 0 0 0 0 0 0) = false ∧
      headerFits Config.configF (fields 0 0 0 0 0 0 16384 0) = false :=
  ⟨test_configF_wf, by decide +kernel⟩

/-- The decided header bits of configuration F from the samples in a state, without scrambling. -/
def decided (s : State) : Bits := scramble 0 ((List.range 96).map fun j => decide ((readByte s.mem (0x200 + j)).toInt < 0))

/-- HdrParseChecksTheCrc, both clauses: V-HDR7's header passes its check, one flipped sample fails it. -/
theorem witness_crc :
    paramsWf Config.configF = true ∧ headerLen Config.configF = 96 ∧
      (decided (withHdrIn fec hdr7)).drop 88 = bin 8 (crc8 ((decided (withHdrIn fec hdr7)).take 88)).toNat ∧
      (decided (withHdrIn fec (hdr7.set 95 0x7F))).drop 88 ≠
        bin 8 (crc8 ((decided (withHdrIn fec (hdr7.set 95 0x7F))).take 88)).toNat :=
  ⟨test_configF_wf, by decide +kernel⟩

/-- BuiltHeaderIsParsedBack. -/
theorem witness_built_header :
    paramsWf fec.params = true ∧ headerFits fec.params fec.txh = true ∧ (nextState (exec .hdrBuild fec)).isSome = true :=
  ⟨test_configF_wf, by decide +kernel⟩

/-- HeaderBurstErrorsAreCaught: V-HDR7's header, a burst over its last 8 bits, its last sample flipped among them. -/
theorem witness_burst :
    Inv (withHdrIn fec hdr7) ∧ after .hdrParse (withHdrIn fec hdr7) (·.hdrValid) = some true ∧
      (∀ i < 96, i < 88 ∨ 88 + 8 ≤ i →
        hard (readByte (withHdrIn fec (hdr7.set 95 0x7F)).mem (0x200 + i)) =
          hard (readByte (withHdrIn fec hdr7).mem (0x200 + i))) ∧
      hard (readByte (withHdrIn fec (hdr7.set 95 0x7F)).mem (0x200 + 95)) ≠
        hard (readByte (withHdrIn fec hdr7).mem (0x200 + 95)) :=
  ⟨inv_of test_configF_wf (by decide +kernel), by decide +kernel⟩

/-- RxFrameNeedsAValidHeader. -/
theorem witness_no_header : fec.params.fecEn = true ∧ fec.hdrValid = false := ⟨rfl, rfl⟩

/-- A received frame of one codeword of code 1 (V-RX1), and one with OFF at the first value out of range (V-RX8). -/
def oneWord : State := rx (fields 4 0 2 1 1 0 0 0) (bits 8 0b10100101)
/-- The same with OFF = n. -/
def badOffset : State := rx (fields 4 0 2 1 1 0 8 0) []

/-- BadHeaderFieldDropsTheFrame, its second clause; RxFrameCompletesWithRoom; RxFrameIsAllOrNothing. -/
theorem witness_rangeOk :
    Inv oneWord ∧ oneWord.hdrValid = true ∧ RangeOk oneWord.params oneWord.rxh Config.toyCode1 ∧
      oneWord.rxq.length + (oneWord.rxh.plen.toNat * oneWord.rxh.mod.toNat + Config.toyCode1.n) ≤ oneWord.params.rxqCap ∧
      oneWord.rep.length + (oneWord.rxh.plen.toNat * oneWord.rxh.mod.toNat + 2) ≤ oneWord.params.cwrepCap :=
  ⟨inv_of test_configF_wf (by decide +kernel), rfl, by unfold RangeOk; decide +kernel, by decide +kernel, by decide +kernel⟩

/-- BadHeaderFieldDropsTheFrame, its first clause. -/
theorem witness_rangeBad : badOffset.hdrValid = true ∧ ∀ c, ¬RangeOk badOffset.params badOffset.rxh c :=
  ⟨rfl, fun c h => by
    have hc : c = Config.toyCode1 := (Option.some.inj (h.2.1.symm.trans (by decide +kernel : _ = some Config.toyCode1)))
    subst hc
    exact absurd h.2.2.2.2.2.1 (by decide +kernel)⟩

/-- RxFrameIsAllOrNothing: a frame that succeeds; its results fit caps 4 and 1, and do not fit a queue of 3. -/
theorem witness_allOrNothing :
    after .rxFrame { oneWord with params := { oneWord.params with rxqCap := 65536, cwrepCap := 256 } }
        (fun t => (t.hdrValid, t.rxq.length, t.rep.length)) = some (false, 4, 1) ∧
      after .rxFrame { oneWord with params := { oneWord.params with rxqCap := 3 } } (fun t => (errs t, t.hdrValid)) =
        some ((0x40, 6), true) := by decide +kernel

/-- WholeCodewordIsDecodedByThePolicy, its three clauses: a codeword that decodes, one that fails, either policy. -/
theorem witness_whole_codeword :
    oneWord.rxh.off = 0 ∧ oneWord.part = none ∧
      oneWord.rxh.plen.toNat * oneWord.rxh.mod.toNat = Config.toyCode1.n ∧ oneWord.failFlag = false ∧
      (decodeWord Config.toyCode1 ((List.range 8).map fun j => readByte oneWord.mem (0x8000 + j))).1 = true ∧
      (decodeWord Config.toyCode1 ((bits 8 0b10100001).map softIdeal)).1 = false := by decide +kernel

/-- A receiver with four samples of codeword 1 of code 2 held, and a frame that continues it with `p` BPSK samples. -/
def continuing (p : Nat) : State :=
  { rx (fields p 0 1 2 2 1 4 0) (bits 8 0b00100000) with part := some ⟨1, 2, (bits 4 0b1011).map softIdeal, 0⟩ }

/-- ContinuationExtendsOrCompletesThePartial, both clauses at the boundary: 5 samples are too few, 6 complete it. -/
theorem witness_continuation :
    Inv (continuing 5) ∧ Inv (continuing 6) ∧ RangeOk (continuing 5).params (continuing 5).rxh Config.toyCode2 ∧
      RangeOk (continuing 6).params (continuing 6).rxh Config.toyCode2 ∧
      (bits 4 0b1011).length = (continuing 5).rxh.off.toNat ∧
      (continuing 5).rxh.plen.toNat * (continuing 5).rxh.mod.toNat < 10 - 4 ∧
      (continuing 6).rxh.plen.toNat * (continuing 6).rxh.mod.toNat = 10 - 4 ∧
      (decodeWord Config.toyCode2
        ((bits 4 0b1011).map softIdeal ++ (List.range 6).map fun j => readByte (continuing 6).mem (0x8000 + j))).1 = true :=
  ⟨inv_of test_configF_wf (by decide +kernel), inv_of test_configF_wf (by decide +kernel), by unfold RangeOk; decide +kernel,
    by unfold RangeOk; decide +kernel, by decide +kernel⟩

/-- ContinuationExtendsOrCompletesThePartial, a completed codeword that fails to decode, under either policy. -/
def failing (flag : Bool) : State :=
  { continuing 6 with
    failFlag := flag
    mem := replaceWindow [] rxSoftBase 0x8000 ((bits 6 0b111000).map softIdeal) }

theorem witness_continuation_fails :
    Inv (failing false) ∧ Inv (failing true) ∧ (failing false).failFlag = false ∧ (failing true).failFlag = true ∧
      (decodeWord Config.toyCode2
        ((bits 4 0b1011).map softIdeal ++ (List.range 6).map fun j => readByte (failing false).mem (0x8000 + j))).1 =
          false :=
  ⟨inv_of test_configF_wf (by decide +kernel), inv_of test_configF_wf (by decide +kernel), by decide +kernel⟩

/-- What LostCodewordsAreReported asks of every state, with room for `m` reports. -/
abbrev LostPremises (s : State) (m : Nat) : Prop :=
  s.params.fecEn = true ∧ s.hdrValid = true ∧ RangeOk s.params s.rxh Config.toyCode2 ∧
    s.rxq.length ≤ s.params.rxqCap ∧ s.rep.length + m ≤ s.params.cwrepCap

/-- A frame of `plen` BPSK symbols with OFF = 0, a partial pending. -/
def boundaryFrame (plen : Nat) : State := { continuing 5 with rxh := fields plen 0 1 2 2 1 0 0 }

/-- LostCodewordsAreReported, OFF = 0 over a pending partial: an empty frame, and one with payload. -/
theorem witness_lost_partial :
    LostPremises (boundaryFrame 0) 1 ∧ (boundaryFrame 0).part ≠ none ∧ (boundaryFrame 0).rxh.plen = 0 ∧
      LostPremises (boundaryFrame 5) 1 ∧ (boundaryFrame 5).rxh.off = 0 ∧
      after .rxFrame (recorded 11 { boundaryFrame 5 with part := none, rep := [⟨1, .lost, 0⟩] }) (·.hdrValid) = some false := by
  unfold LostPremises RangeOk; decide +kernel

/-- The middle or the end of a codeword whose beginning never came. -/
def orphan (plen : Nat) : State := { continuing plen with part := none }

/-- LostCodewordsAreReported, OFF > 0 without a partial, both clauses at their boundary. -/
theorem witness_lost_tail :
    LostPremises (orphan 6) 1 ∧ (orphan 6).part = none ∧ 0 < (orphan 6).rxh.off.toNat ∧
      (orphan 6).rxh.plen.toNat * (orphan 6).rxh.mod.toNat = Config.toyCode2.n - (orphan 6).rxh.off.toNat ∧
      LostPremises (orphan 5) 0 ∧
      (orphan 5).rxh.plen.toNat * (orphan 5).rxh.mod.toNat < Config.toyCode2.n - (orphan 5).rxh.off.toNat := by
  unfold LostPremises RangeOk; decide +kernel

/-- A pending partial of codeword `id` with `m` samples, under a frame that continues codeword 1 after 4 of them. -/
def mismatched (plen : Nat) (id : BitVec 16) (m : Nat) : State :=
  { continuing plen with part := some ⟨id, 2, (bits m 0).map softIdeal, 0⟩ }

/-- LostCodewordsAreReported, a partial that does not match: another id, and the same id with another length. -/
theorem witness_lost_mismatch :
    LostPremises (mismatched 5 0 4) 1 ∧ LostPremises (mismatched 6 0 4) 2 ∧ LostPremises (mismatched 5 1 3) 0 ∧
      LostPremises (mismatched 6 1 3) 1 ∧ (mismatched 6 0 4).rxh.cwid = 1 ∧ (mismatched 6 1 3).rxh.off = 4 := by
  unfold LostPremises RangeOk; decide +kernel

/-- A frame of 20 BPSK symbols of code 1, a codeword that decodes, one that fails, and the first half of a third, with
`m` reports not yet taken. -/
def mixed (m : Nat) : State :=
  { rx (fields 20 0 1 1 5 7 0 2) (bits 20 0b10100101101000010101) with rep := List.replicate m ⟨0, .ok, 0⟩ }

/-- SeveralCodewordsAreDecodedInOrder, both clauses: two reports fit beside 254, and not beside 255. The frame's results
are those of R213 to R215. -/
theorem witness_several :
    Inv (mixed 254) ∧ Inv (mixed 255) ∧ RangeOk (mixed 254).params (mixed 254).rxh Config.toyCode1 ∧
      after .rxFrame (mixed 254) (fun t => (t.rxq, t.rep.drop 254, errs t)) =
        some (bits 4 0b1010, [⟨7, .ok, 4⟩, ⟨8, .failDropped, 0⟩], (0x400, 10)) ∧
      after .rxFrame (mixed 254) (·.part) = some (some ⟨9, 1, (bits 4 0b0101).map softIdeal, 2⟩) ∧
      after .rxFrame (mixed 255) errs = some (0x40, 6) :=
  ⟨inv_of test_configF_wf (by decide +kernel), inv_of test_configF_wf (by decide +kernel), by unfold RangeOk; decide +kernel,
    by decide +kernel⟩

/-- RegisterReadsReturnTheirFields: the level registers (CAPS: `test_configF_wf`). -/
theorem witness_levels : fec.txq.length < 2 ^ 32 ∧ fec.rxq.length < 2 ^ 32 ∧ fec.rep.length < 2 ^ 32 := by decide +kernel

/-- SampleWindowWritesStoreFourSamples: the first and last words of both windows. -/
theorem witness_sample_windows :
    Memory.wf fec.mem ∧ InHdrIn 0x200 ∧ InHdrIn 0x2FC ∧ InRxSoft 0x8000 ∧ InRxSoft 0xFFFC := by
  unfold InHdrIn InRxSoft; decide +kernel

/-- BadAccessesRaiseBus: each clause at its boundaries. -/
theorem witness_bad_access :
    (0x002 % 4 ≠ 0) ∧ UnmappedWord 0x064 ∧ UnmappedWord 0x06C ∧ UnmappedWord 0x090 ∧ UnmappedWord 0x0FC ∧
      UnmappedWord 0x120 ∧ UnmappedWord 0x300 ∧ UnmappedWord 0x2000 ∧ UnmappedWord 0x7FFC ∧ ReadOnlyWord 0x000 ∧
      ReadOnlyWord 0x034 ∧ ReadOnlyWord 0x08C ∧ ReadOnlyWord 0x11C ∧ ReadOnlyWord 0x1FFC := by
  unfold UnmappedWord ReadOnlyWord InHdrOut InPayloadOut; omega

/-- McsWriteIsCheckedAndAtomic and FlenWriteIsChecked, both clauses of each (V-TX14): accepted and rejected values. -/
theorem witness_config_writes :
    legalMcs Config.configF 4 2 = true ∧ legalMcs Config.configF 5 1 = false ∧ legalMcs Config.configF 1 3 = false ∧
      legalMcs Config.configN 2 0 = true ∧ legalMcs Config.configN 2 1 = false ∧
      legalFlen Config.configF 255 = true ∧ legalFlen Config.configF 0 = false ∧ legalFlen Config.configF 256 = false := by
  decide +kernel

/-- ErrBitsAreClearedOnlyByTheHost, its second clause: an ERR bit lowered by a write to ERR. -/
theorem witness_err_lowered :
    (Instr.wr 0x028 0x1000 4).wellFormed = true ∧
      after (.wr 0x028 0x1000 4) { fec with err := 0x1000 } (·.err) = some 0 := by decide +kernel

/-- CommandsKeepTheConfiguration, WindowsChangeOnlyByTheirWriters. -/
theorem witness_other_instruction :
    (nextState (exec (.rd 0x002 4) fec)).isSome = true ∧ Instr.rd 0x002 4 ≠ .softReset ∧
      ∀ a v z, Instr.rd 0x002 4 ≠ .wr a v z :=
  ⟨by decide +kernel, by decide, fun _ _ _ h => by cases h⟩

/-- TxAndRxSidesAreIndependent: two states of one configuration and one Tx side, and of one Rx side. -/
theorem witness_sides :
    SameConfig fec { fec with rxq := [true] } ∧ SameTxSide fec { fec with rxq := [true] } ∧
      SameRxSide fec { fec with txq := [true] } ∧ isTxCommand .txBuild = true ∧ isRxCommand .rxFrame = true :=
  ⟨⟨rfl, rfl, rfl, rfl, rfl, rfl, rfl, rfl, rfl, rfl, rfl⟩,
    ⟨rfl, rfl, rfl, rfl, rfl, rfl, rfl, fun _ _ => rfl, fun _ _ => rfl⟩,
    ⟨rfl, rfl, rfl, rfl, rfl, rfl, rfl, rfl, fun _ _ => rfl, fun _ _ => rfl⟩, rfl, rfl⟩

/-- The events of V-TX3: six bits pushed, two builds. -/
def linkEvents : List LinkEvent := [.push 0xB4 6, .build, .build]

/-- What a link run leaves: the receiver's bits, the transmitter's queue and remnant, and both ERR registers. -/
def linkResult (p : Params) (es : List LinkEvent) : Option (Bits × Bits × Bool × Word × Word) :=
  (linkRun es (State.resetWith p, State.resetWith p)).map fun l => (l.2.rxq, l.1.txq, l.1.rem.isSome, l.1.err, l.2.err)

/-- LinkReturnsTheBitsPushed: a run that drains the transmitter (V-RX3). -/
theorem witness_link :
    paramsWf Config.configF = true ∧
      linkFillsSymbols linkEvents (State.resetWith Config.configF, State.resetWith Config.configF) = true ∧
      (pushedBits linkEvents).length ≤ Config.configF.cwrepCap ∧
      linkResult Config.configF linkEvents = some (bits 6 0b101101, [], false, 0, 0) :=
  ⟨test_configF_wf, by decide +kernel⟩

/-- A code of one bit: `Encode(x) = x`, decoded by the sample's sign. -/
def bitCode : Code := ⟨1, 1, 1, [.input 0], .const true, [.input 7]⟩

/-- The one-bit code over BPSK. -/
def bitParams : Params := { Config.configF with codes := [bitCode], initMod := 1 }

/-- LinkReturnsTheBitsPushed at its boundary, `n = bps = 1`: the four bits come back. -/
theorem witness_link_boundary :
    paramsWf bitParams = true ∧
      linkFillsSymbols [.push 0xF0 4, .build] (State.resetWith bitParams, State.resetWith bitParams) = true ∧
      linkResult bitParams [.push 0xF0 4, .build] = some (bits 4 0b1111, [], false, 0, 0) := by decide +kernel

/-- LinkReturnsTheBitsPushedForEveryCode: its hypotheses hold for a link whose codewords are shorter than a symbol. -/
theorem witness_link_bitCode :
    paramsWf { Config.configF with codes := [bitCode] } = true ∧
      (pushedBits [.push 0xF0 4, .build]).length ≤ Config.configF.cwrepCap ∧
      (linkResult { Config.configF with codes := [bitCode] } [.push 0xF0 4, .build]).map (·.2) =
        some ([], false, 0, 0) := by decide +kernel

end Sys2Proof.Tests
end

section
/-!
# Construction and the states it gives (00_scope.md)

The executable checks of construction (`legalIds`, `legalCode`, `legalMcs`, `legalFlen`, `paramsWf`), each said once as
the proposition its rule writes (R7, R8, R9, R38, R39), and the constructed state as a good state.
-/

namespace Sys2Proof.Machine

/-! ## What each check of construction says -/

/-- The enumeration of the bit strings of a length lists those strings and no other. -/
theorem mem_allBits_iff {k : Nat} {x : Bits} : x ∈ allBits k ↔ x.length = k := by
  refine ⟨fun hx => ?_, fun hx => hx ▸ mem_allBits x⟩
  induction k generalizing x with
  | zero => simpa [allBits] using hx
  | succ k ih =>
    simp only [allBits, List.mem_flatMap] at hx
    obtain ⟨y, hy, hxy⟩ := hx
    have hlen := ih hy
    rcases (by simpa using hxy : x = false :: y ∨ x = true :: y) with rfl | rfl <;> simp [hlen]

/-- The check of the codec contract is the contract of R9. -/
theorem codecContract_iff {c : Code} :
    codecContract c = true ↔
      ∀ x : Bits, x.length = c.k → decodeWord c ((encodeWord c x).map softIdeal) = (true, x) := by
  simp only [codecContract, List.all_eq_true, mem_allBits_iff, beq_iff_eq]

/-- A legal code, condition by condition (R8, R9). -/
theorem legalCode_iff {p : Params} {c : Code} :
    legalCode p c = true ↔
      1 ≤ c.k ∧ c.k ≤ c.n ∧ c.n ≤ 2 ^ p.wOff ∧ c.k ≤ 2 ^ p.wShort ∧
        ∀ x : Bits, x.length = c.k → decodeWord c ((encodeWord c x).map softIdeal) = (true, x) := by
  simp only [legalCode, Bool.and_eq_true, decide_eq_true_eq, codecContract_iff, and_assoc]

/-- `CODES` is a partial map from the ids 1 to 15 (R7). -/
theorem legalIds_iff {p : Params} :
    legalIds (p.codes.map (·.id)) = true ↔ (∀ c ∈ p.codes, c.id ≠ 0) ∧ (p.codes.map (·.id)).Nodup := by
  simp [legalIds]

/-- The code table has an answer exactly for the ids it lists (R7). -/
theorem code?_isSome_iff {p : Params} {id : BitVec 4} :
    (code? p id).isSome = true ↔ ∃ c ∈ p.codes, c.id = id := by
  simp [code?]

/-- The ids that name a modulation scheme are 1 to 4 (R10). -/
theorem bps?_isSome_iff {m : BitVec 4} : (bps? m).isSome = true ↔ 1 ≤ m.toNat ∧ m.toNat ≤ 4 := by
  simp [Option.isSome_iff_exists, bps?_some]

/-- A legal scheme (R38): a modulation, and a code of the table or, without FEC, the code id 0. -/
theorem legalMcs_iff {p : Params} {m f : BitVec 4} :
    legalMcs p m f = true ↔
      (1 ≤ m.toNat ∧ m.toNat ≤ 4) ∧ if p.fecEn then ∃ c ∈ p.codes, c.id = f else f = 0 := by
  rw [legalMcs, Bool.and_eq_true, bps?_isSome_iff]
  refine and_congr_right fun _ => ?_
  cases p.fecEn with
  | false => simp
  | true => simp only [if_true, code?_isSome_iff]

/-- A legal frame length (R39). -/
theorem legalFlen_iff {p : Params} {l : BitVec 16} :
    legalFlen p l = true ↔
      1 ≤ l.toNat ∧ l.toNat < 2 ^ p.wFlen ∧ l.toNat * p.nc < 2 ^ p.wPlen ∧ l.toNat * p.nc * 4 ≤ 32768 := by
  simp only [legalFlen, Bool.and_eq_true, decide_eq_true_eq, and_assoc, Nat.le_sub_one_iff_lt (Nat.two_pow_pos _)]
  rfl

/-- The width of the header layout, written out (R8, R141). -/
theorem layoutWidth_eq (p : Params) :
    layoutWidth p =
      p.wPlen + p.wSeq + 4 + 4 + p.wFlen + if p.fecEn then p.wCwid + p.wOff + p.wShort + 4 + 4 else 0 := by
  unfold layoutWidth layout
  cases p.fecEn <;> simp [Config.wMod] <;> omega

/-! ## Well-formed parameter sets -/

/-- The check of construction is the conjunction of the facts it gives. -/
theorem paramsWf_iff_good {p : Params} : paramsWf p = true ↔ GoodParams p := by
  refine ⟨paramsWf_good, fun g => ?_⟩
  have codes : (!p.fecEn || p.codes.all (legalCode p)) = true := by
    cases hf : p.fecEn with
    | false => rfl
    | true => simpa using g.codes hf
  have seed : (p.scrSeed != 0) = true := bne_iff_ne.2 g.scrSeed
  simp only [paramsWf, legalWidth, Config.hbMax, Config.wCrc, g.nc, g.hc, g.hbMax, g.layoutFits, g.wPlen, g.wSeq,
    g.wFlen, g.wCwid, g.wOff, g.wShort, seed, g.txqCap, g.rxqCap, g.cwrepCap, g.ids, codes, g.initMcs, g.initFlen,
    decide_true, Bool.and_self]

/-- The conditions of R7, R8 and R9 are the facts of construction. -/
theorem wellFormedParameters_iff_good {p : Params} : WellFormedParameters p ↔ GoodParams p := by
  have hb : headerLen p = p.hc * (if p.fecEn then 2 else 1) := rfl
  constructor
  · rintro ⟨nc, hc, txq, rxq, rep, idsPos, idsNodup, hbMax, fits, widths, seed, codes, mod, fec, flen⟩
    simp only [List.forall_mem_cons] at widths
    obtain ⟨wPlen, wSeq, wFlen, wCwid, wOff, wShort, -⟩ := widths
    exact { nc, hc, wPlen, wSeq, wFlen, wCwid, wOff, wShort
            hbMax := hb ▸ hbMax
            layoutFits := by rw [layoutWidth_eq, hb]; exact fits
            scrSeed := seed, txqCap := txq, rxqCap := rxq, cwrepCap := rep
            ids := legalIds_iff.2 ⟨idsPos, idsNodup⟩
            codes := fun hf c hc => legalCode_iff.2 (codes hf c hc)
            initMcs := legalMcs_iff.2 ⟨mod, fec⟩
            initFlen := legalFlen_iff.2 flen }
  · intro g
    obtain ⟨idsPos, idsNodup⟩ := legalIds_iff.1 g.ids
    obtain ⟨mod, fec⟩ := legalMcs_iff.1 g.initMcs
    have fits := g.layoutFits
    rw [layoutWidth_eq, hb] at fits
    refine ⟨g.nc, g.hc, g.txqCap, g.rxqCap, g.cwrepCap, idsPos, idsNodup, hb ▸ g.hbMax, fits, ?_, g.scrSeed,
      fun hf c hc => legalCode_iff.1 (g.codes hf c hc), mod, fec, legalFlen_iff.1 g.initFlen⟩
    simpa only [List.forall_mem_cons, List.not_mem_nil, false_implies, implies_true, and_true] using
      ⟨g.wPlen, g.wSeq, g.wFlen, g.wCwid, g.wOff, g.wShort⟩

/-- Construction checks the conditions of R7, R8 and R9, all of them and no other. -/
theorem paramsWf_iff_wellFormedParameters {p : Params} : paramsWf p = true ↔ WellFormedParameters p :=
  paramsWf_iff_good.trans wellFormedParameters_iff_good.symm

/-! ## Construction -/

/-- A state that construction gives is the reset state of a well-formed parameter set (R8, R300). -/
theorem construct_eq_ok_iff {p : Params} {s : State} :
    State.construct p = .ok s ↔ paramsWf p = true ∧ s = State.resetWith p := by
  unfold State.construct
  split
  · next hp => simp only [hp, Except.ok.injEq, true_and, eq_comm]
  · next hp => simp only [hp, reduceCtorEq, false_and]

/-- Construction refuses exactly the parameter sets that fail the check (R8). -/
theorem construct_eq_error_iff {p : Params} :
    State.construct p = .error .malformedConfiguration ↔ ¬paramsWf p = true := by
  unfold State.construct
  split
  · next hp => simp only [hp, reduceCtorEq, not_true_eq_false]
  · next hp => simp only [hp, Bool.false_eq_true, not_false_eq_true]

/-- Settles O7: the check of construction is the conjunction of R7, R8 and R9. -/
theorem constructionNeedsWellFormedParameters : Obligations.ConstructionNeedsWellFormedParameters := by
  intro p
  rw [← paramsWf_iff_wellFormedParameters]
  exact ⟨fun hp => construct_eq_ok_iff.2 ⟨hp, rfl⟩, construct_eq_error_iff.2⟩

/-! ## The constructed state -/

/-- Every bit of every window reads 0 in the empty memory (R61, R300). -/
@[simp] theorem readBit_nil (base j : Nat) : readBit [] base j = false := by
  simp [readBit, readWord, readByte, unlisted]

/-- The zero field set has every field 0. -/
@[simp] theorem Header.get_zero (f : HdrField) : Header.zero.get f = 0 := by
  cases f <;> rfl

/-- The zero field set fits every layout, and has nothing outside it (R55). -/
theorem headerInLayout_zero (p : Params) : headerInLayout p Header.zero = true := by
  have fits : headerFits p Header.zero = true := by simp [headerFits]
  rw [headerInLayout, fits]
  simp [Header.zero]

/-- The base case of the invariant: the reset state of a well-formed parameter set is good (R300). -/
theorem inv_resetWith {p : Params} (hp : paramsWf p = true) : Inv (State.resetWith p) where
  params := hp
  mcs := (paramsWf_good hp).initMcs
  flen := (paramsWf_good hp).initFlen
  ie := by simp
  err := by simp
  cause := by simp
  txq := by simp
  rem := by simp
  frameNo := by simp
  nextCwId := by simp
  txPbits := by simp
  rxh := headerInLayout_zero p
  part := by simp
  rxq := by simp
  rep := by simp
  reports := by simp
  rxout := by simp
  cwrep := by simp
  cwrepNb := by simp
  memory := wf_nil
  windows := by simp
  noFec := by simp [idleWithoutFec]

/-- Settles O9: the one constructed state is the reset state, whose memory is empty. -/
theorem constructedStatesAreGood : Obligations.ConstructedStatesAreGood := by
  intro p s hs
  obtain ⟨hp, rfl⟩ := construct_eq_ok_iff.1 hs
  have zero (base j : Nat) : readBit (State.resetWith p).mem base j = false := readBit_nil base j
  exact ⟨inv_resetWith hp, ⟨fun j _ _ => zero _ j, fun j _ _ => zero _ j⟩, fun j _ => zero _ j, fun j _ => zero _ j⟩

end Sys2Proof.Machine
end

section
/-!
# What register accesses answer (20_memory.md, 43_host_access.md)

A register by its address, the numbers that the register values spell, STATUS bit by bit, and the checked writes to MCS
and FLEN.
-/

namespace Sys2Proof.Machine

/-! ## A register by its address (R81, R252, R254) -/

/-- A read of a register's address answers the register's value and changes nothing (R252). -/
theorem exec_rd_reg {a : BitVec 16} {r : Reg} (h : target? a 4 = some (.reg r)) (s : State) :
    exec (.rd a 4) s = .next { s with rdata := regValue s r } := by
  simp only [exec, execRd, h, readValue]

/-- A write to the address of a register that is not read-only has the register's write effect (R253, R254). -/
theorem exec_wr_reg {a : BitVec 16} {r : Reg} (h : target? a 4 = some (.reg r)) (hr : regAccess r ≠ .ro)
    (v : Word) (s : State) : exec (.wr a v 4) s = writeReg r v s := by
  simp only [exec, execWr, h, placeAccess, hr, if_false, writePlace]

/-- The write effect on MCS (R38). -/
theorem writeReg_mcs (v : Word) (s : State) :
    writeReg .mcs v s =
      if legalMcs s.params (v.extractLsb' 0 4) (v.extractLsb' 4 4) then
        .next { s with mcsMod := v.extractLsb' 0 4, mcsFec := v.extractLsb' 4 4 }
      else .next (recorded 4 s) := rfl

/-- The write effect on FLEN (R39). -/
theorem writeReg_flen (v : Word) (s : State) :
    writeReg .flen v s =
      if legalFlen s.params (v.extractLsb' 0 16) then .next { s with flen := v.extractLsb' 0 16 }
      else .next (recorded 4 s) := rfl

/-- Settles O46: the write is decided by `legalMcs`, which is R38's condition. -/
theorem mcsWriteIsCheckedAndAtomic : Obligations.McsWriteIsCheckedAndAtomic := by
  intro s v m f legal
  have hlegal : legal ↔ legalMcs s.params m f = true := by
    rw [legalMcs_iff]
    exact and_congr_left fun _ => by omega
  rw [exec_wr_reg (a := 0x00C) (r := .mcs) (by decide) (by decide), writeReg_mcs, hlegal]
  exact ⟨fun h => if_pos h, fun h => if_neg h⟩

/-- Settles O47: the write is decided by `legalFlen`, which is R39's condition. -/
theorem flenWriteIsChecked : Obligations.FlenWriteIsChecked := by
  refine ⟨?_, resetWith_flen⟩
  intro s v l legal
  have hlegal : legal ↔ legalFlen s.params l = true := by
    simp only [legal, legalFlen_iff, Nat.le_sub_one_iff_lt (Nat.two_pow_pos _)]
  rw [exec_wr_reg (a := 0x010) (r := .flen) (by decide) (by decide), writeReg_flen, hlegal]
  exact ⟨fun h => if_pos h, fun h => if_neg h⟩

/-! ## The numbers that register values spell -/

/-- The number of a concatenation: the left part above the right. -/
theorem toNat_append_add {m n : Nat} (x : BitVec m) (y : BitVec n) : (x ++ y).toNat = x.toNat * 2 ^ n + y.toNat := by
  rw [BitVec.toNat_append, ← Nat.shiftLeft_add_eq_or_of_lt y.isLt, Nat.shiftLeft_eq]

/-- The `_LEN` register of a header field set (R53, R55). -/
theorem toNat_headerLenWord (h : Header) : (headerLenWord h).toNat = h.plen.toNat + 65536 * h.flen.toNat := by
  rw [headerLenWord, toNat_append_add]; omega

/-- The `_SCHEME` register of a header field set (R53, R55). -/
theorem toNat_headerSchemeWord (h : Header) :
    (headerSchemeWord h).toNat = h.mod.toNat + 16 * h.fec.toNat + 256 * h.emod.toNat + 4096 * h.efec.toNat := by
  simp only [headerSchemeWord, toNat_append_add, BitVec.ofNat_eq_ofNat, BitVec.toNat_ofNat]; omega

/-- The `_OFFSH` register of a header field set (R53, R55). -/
theorem toNat_headerOffshWord (h : Header) : (headerOffshWord h).toNat = h.off.toNat + 65536 * h.short.toNat := by
  rw [headerOffshWord, toNat_append_add]; omega

/-- The implemented bits of ERR are 1 to 12 (R45). -/
theorem getLsbD_errMask (c : Nat) : errMask.getLsbD c = decide (1 ≤ c ∧ c ≤ 12) := by
  by_cases hc : c < 32
  · revert c; decide
  · rw [BitVec.getLsbD_of_ge _ _ (not_lt.1 hc), eq_comm, decide_eq_false_iff_not]; omega

/-- The causes' part of the interrupt line (R275): some cause of 1 to 12 is recorded and enabled. -/
theorem enabledCauses_ne_zero_iff (s : State) :
    s.err &&& s.ie &&& errMask ≠ 0 ↔ ∃ c, 1 ≤ c ∧ c ≤ 12 ∧ s.err.getLsbD c = true ∧ s.ie.getLsbD c = true := by
  constructor
  · intro h
    by_contra hno
    refine h (BitVec.eq_of_getLsbD_eq fun c _ => ?_)
    simp only [BitVec.getLsbD_and, getLsbD_errMask]
    grind
  · rintro ⟨c, h1, h12, herr, hie⟩ h0
    have := congrArg (BitVec.getLsbD · c) h0
    simp [getLsbD_errMask, herr, hie, h1, h12] at this

/-- The interrupt line (R275). -/
theorem irqLine_iff (s : State) :
    irqLine s = true ↔
      (∃ c, 1 ≤ c ∧ c ≤ 12 ∧ s.err.getLsbD c = true ∧ s.ie.getLsbD c = true) ∨
        (stopSignal s = true ∧ s.ie.getLsbD 16 = true) := by
  rw [irqLine, Bool.or_eq_true, bne_iff_ne, enabledCauses_ne_zero_iff, Bool.and_eq_true]

/-- STOP (R44, R190). -/
theorem stopSignal_eq (s : State) :
    stopSignal s = decide (s.maxEmpty ≠ 0xFFFF ∧ s.maxEmpty.toNat < s.emptyCount.toNat) := by
  rw [Bool.eq_iff_iff]; simp [stopSignal]

/-- STATUS spells its five bits (R44). -/
theorem toNat_statusWord (s : State) :
    (statusWord s).toNat =
      (stopSignal s).toNat + 2 * s.rem.isSome.toNat + 4 * s.part.isSome.toNat + 8 * s.hdrValid.toNat +
        16 * (irqLine s).toNat := by
  simp only [statusWord, remPend, rxPartPend, toNat_append_add, BitVec.ofNat_eq_ofNat, BitVec.toNat_ofNat,
    BitVec.toNat_ofBool]
  omega

/-- The bits of STATUS (R44). -/
theorem getLsbD_statusWord (s : State) (j : Nat) :
    (statusWord s).getLsbD j =
      if j = 0 then stopSignal s else if j = 1 then s.rem.isSome else if j = 2 then s.part.isSome
      else if j = 3 then s.hdrValid else if j = 4 then irqLine s else false := by
  simp only [statusWord, remPend, rxPartPend, BitVec.getLsbD_append, BitVec.getLsbD_ofBool]
  rcases j with _ | _ | _ | _ | _ | j <;> simp

/-- After reset no bit of STATUS is set (R44, R300). -/
theorem statusWord_resetWith (p : Params) : statusWord (State.resetWith p) = 0 := by
  have stop : stopSignal (State.resetWith p) = false := by simp [stopSignal]
  have irq : irqLine (State.resetWith p) = false := by simp [irqLine, stop]
  apply BitVec.eq_of_toNat_eq
  rw [toNat_statusWord, stop, irq]
  simp

/-- Settles O41: STATUS is read as `statusWord`, whose bits are those of R44. -/
theorem statusBitsFollowTheState : Obligations.StatusBitsFollowTheState := by
  have hstatus : target? 0x024 4 = some (.reg .status) := by decide
  refine ⟨fun s => ⟨statusWord s, exec_rd_reg hstatus s, ?_⟩, fun p => ?_⟩
  · have hrem : s.rem.isSome = decide (s.rem ≠ none) := by cases s.rem <;> rfl
    have hpart : s.part.isSome = decide (s.part ≠ none) := by cases s.part <;> rfl
    simp only [getLsbD_statusWord, ← stopSignal_eq]
    refine ⟨rfl, hrem, hpart, rfl, irqLine_iff s, fun j hj => ?_⟩
    simp [show j ≠ 0 ∧ j ≠ 1 ∧ j ≠ 2 ∧ j ≠ 3 ∧ j ≠ 4 by omega]
  · rw [exec_rd_reg hstatus]
    exact congrArg (fun v => Host.Outcome.next { State.resetWith p with rdata := v }) (statusWord_resetWith p)

/-- CTRL spells its two bits (R35). -/
theorem toNat_regValue_ctrl (s : State) : (regValue s .ctrl).toNat = s.scrEn.toNat + 2 * s.failFlag.toNat := by
  simp only [regValue, toNat_append_add, BitVec.ofNat_eq_ofNat, BitVec.toNat_ofNat, BitVec.toNat_ofBool]; omega

/-- A modulation and a code id, as MCS and ECHO hold them (R36, R40). -/
theorem toNat_schemeWord (fec mod : BitVec 4) :
    ((0 : BitVec 24) ++ fec ++ mod).toNat = mod.toNat + 16 * fec.toNat := by
  simp only [toNat_append_add, BitVec.ofNat_eq_ofNat, BitVec.toNat_ofNat]; omega

/-- CAPS spells the constants of a well-formed parameter set: each fits its field (R34). -/
theorem toNat_capsWord {p : Params} (hp : paramsWf p = true) :
    (capsWord p).toNat = p.fecEn.toNat + 2 * headerSymbols p + 8 * headerLen p + 4096 * p.nc := by
  obtain ⟨_, hnc⟩ := (paramsWf_good hp).nc
  have hhb := (paramsWf_good hp).hbMax
  have hhs : headerSymbols p ≤ 2 := by unfold headerSymbols; split <;> omega
  simp only [capsWord, toNat_append_add, BitVec.ofNat_eq_ofNat, BitVec.toNat_ofNat, BitVec.toNat_ofBool]
  omega

/-- A number that fits its field is the field's number, as the level registers need it (R48, log 5). -/
theorem toNat_field {w v : Nat} (h : v < 2 ^ w) : (field w v).toNat = v := by
  rw [field_of_lt h, BitVec.toNat_ofNat, Nat.mod_eq_of_lt h]

/-- A read of a register's address answers the number the register spells. -/
theorem exec_rd_number {a : BitVec 16} {r : Reg} {s : State} {n : Nat} (h : target? a 4 = some (.reg r))
    (hn : (regValue s r).toNat = n) : exec (.rd a 4) s = .next { s with rdata := BitVec.ofNat 32 n } := by
  rw [exec_rd_reg h, ← hn, BitVec.ofNat_toNat, BitVec.setWidth_eq]

/-- Settles O40: register by register, in the order of R81. -/
theorem registerReadsReturnTheirFields : Obligations.RegisterReadsReturnTheirFields := by
  intro s stop irq
  have hstop : stopSignal s = stop := stopSignal_eq s
  have hirq : irqLine s = irq := by
    rw [Bool.eq_iff_iff, irqLine_iff, hstop]
    simp only [irq, Bool.or_eq_true, Bool.and_eq_true, List.any_eq_true, List.mem_range, decide_eq_true_eq]
    grind
  refine ⟨?_, fun hp => exec_rd_number (r := .caps) (by decide) (toNat_capsWord hp), ?_⟩
  · simp only [List.forall_mem_cons, List.not_mem_nil, false_implies, implies_true, and_true]
    exact ⟨
      exec_rd_number (r := .id) (by decide) rfl,
      exec_rd_number (r := .ctrl) (by decide) (toNat_regValue_ctrl s),
      exec_rd_number (r := .mcs) (by decide) (toNat_schemeWord _ _),
      exec_rd_number (r := .flen) (by decide) (BitVec.toNat_setWidth_of_le (by decide)),
      exec_rd_number (r := .echo) (by decide) (toNat_schemeWord _ _),
      exec_rd_number (r := .maxEmpty) (by decide) (BitVec.toNat_setWidth_of_le (by decide)),
      exec_rd_number (r := .floor) (by decide) (BitVec.toNat_setWidth_of_le (by decide)),
      exec_rd_number (r := .ie) (by decide) rfl,
      exec_rd_number (r := .status) (by decide) (by rw [← hstop, ← hirq]; exact toNat_statusWord s),
      exec_rd_number (r := .err) (by decide) rfl,
      exec_rd_number (r := .cause) (by decide) (BitVec.toNat_setWidth_of_le (by decide)),
      exec_rd_number (r := .cmd) (by decide) rfl,
      exec_rd_number (r := .frameNo) (by decide) (BitVec.toNat_setWidth_of_le (by decide)),
      exec_rd_number (r := .nextCw) (by decide) (BitVec.toNat_setWidth_of_le (by decide)),
      exec_rd_number (r := .emptyCnt) (by decide) (BitVec.toNat_setWidth_of_le (by decide)),
      exec_rd_number (r := .txPbits) (by decide) (BitVec.toNat_setWidth_of_le (by decide)),
      exec_rd_number (r := .txhLen) (by decide) (toNat_headerLenWord _),
      exec_rd_number (r := .txhSeq) (by decide) (BitVec.toNat_setWidth_of_le (by decide)),
      exec_rd_number (r := .txhScheme) (by decide) (toNat_headerSchemeWord _),
      exec_rd_number (r := .txhCw) (by decide) (BitVec.toNat_setWidth_of_le (by decide)),
      exec_rd_number (r := .txhOffsh) (by decide) (toNat_headerOffshWord _),
      exec_rd_number (r := .rxhLen) (by decide) (toNat_headerLenWord _),
      exec_rd_number (r := .rxhSeq) (by decide) (BitVec.toNat_setWidth_of_le (by decide)),
      exec_rd_number (r := .rxhScheme) (by decide) (toNat_headerSchemeWord _),
      exec_rd_number (r := .rxhCw) (by decide) (BitVec.toNat_setWidth_of_le (by decide)),
      exec_rd_number (r := .rxhOffsh) (by decide) (toNat_headerOffshWord _),
      exec_rd_number (r := .rxout) (by decide) rfl,
      exec_rd_number (r := .cwrep) (by decide) rfl,
      exec_rd_number (r := .cwrepNb) (by decide) rfl⟩
  · simp only [List.forall_mem_cons, List.not_mem_nil, false_implies, implies_true, and_true]
    exact ⟨
      ⟨_, exec_rd_reg (r := .txqLevel) (by decide) s, toNat_field⟩,
      ⟨_, exec_rd_reg (r := .rxqLevel) (by decide) s, toNat_field⟩,
      ⟨_, exec_rd_reg (r := .cwrepLevel) (by decide) s, toNat_field⟩⟩

end Sys2Proof.Machine
end

section
/-!
# What an instruction leaves of the configuration

What an outcome answers, the effects a bus write can have, and that nothing but the host's writes and SOFT_RESET changes
the configuration, and nothing at all the parameters (R30, R31, R36, R254, R301).
-/

namespace Sys2Proof.Machine

/-! ## What an outcome answers -/

/-- Every next state that the outcome gives has the property (a stop gives none). -/
def Answers (P : State → Prop) (o : Host.Outcome State Fault Refusal) : Prop := ∀ t, o = .next t → P t

@[simp] theorem answers_next {P : State → Prop} {s : State} : Answers P (.next s) ↔ P s :=
  ⟨fun h => h s rfl, fun h _ ht => Host.Outcome.next.inj ht ▸ h⟩

@[simp] theorem answers_fault (P : State → Prop) (f : Fault) : Answers P (.fault f) := fun _ ht => nomatch ht

/-- A weaker property of the next states. -/
theorem Answers.mono {P Q : State → Prop} {o : Host.Outcome State Fault Refusal} (h : Answers P o)
    (hPQ : ∀ t, P t → Q t) : Answers Q o := fun t ht => hPQ t (h t ht)

/-! ## Commands and reads keep the configuration (R31, R36, R254) -/

/-- A state has its own configuration, whatever its other fields become. -/
theorem SameConfig.refl (s : State) : SameConfig s s := ⟨rfl, rfl, rfl, rfl, rfl, rfl, rfl, rfl, rfl, rfl, rfl⟩

/-- Recording causes changes no configuration register (R272). -/
theorem sameConfig_raiseAll (cs : List Cause) (s : State) : SameConfig s (raiseAll cs s) := by
  simp [SameConfig]

/-- Committing a deframing changes no configuration register (R217). -/
theorem sameConfig_commitFrame (s : State) (a : RxAcc) : SameConfig s (commitFrame s a) := by
  rcases commitFrame_cases s a with ⟨_, e⟩ | ⟨_, e⟩ <;> rw [e]
  · exact SameConfig.refl s
  · exact sameConfig_raiseAll a.causes { s with rxq := _, rep := _, part := _, hdrValid := false }

/-- Every command but SOFT_RESET, and a read, keeps the configuration. -/
theorem exec_sameConfig {i : Instr} (hreset : i ≠ .softReset) (hwr : ∀ a v z, i ≠ .wr a v z) (s : State) :
    Answers (SameConfig s) (exec i s) := by
  have same : SameConfig s s := SameConfig.refl s
  cases i with
  | nop => exact answers_next.2 same
  | softReset => exact absurd rfl hreset
  | txPush data cnt =>
    rcases execTxPush_cases data cnt s with ⟨_, e⟩ | ⟨_, _, e⟩ | ⟨_, _, _, e⟩ | ⟨_, _, _, e⟩ <;> rw [exec, e] <;>
      exact answers_next.2 same
  | txBuild =>
    rcases execTxBuild_cases s with ⟨_, e⟩ | ⟨_, _, e⟩ | ⟨_, _, _, _, _, e⟩ <;> rw [exec, e]
    · exact answers_next.2 same
    · exact answers_fault _ _
    · exact answers_next.2 same
  | hdrBuild => rcases execHdrBuild_cases s with ⟨_, e⟩ | ⟨_, e⟩ <;> rw [exec, e] <;> exact answers_next.2 same
  | hdrParse => rcases execHdrParse_cases s with ⟨_, e⟩ | ⟨_, _, e⟩ <;> rw [exec, e] <;> exact answers_next.2 same
  | rxFrame =>
    rcases execRxFrame_cases s with ⟨_, e⟩ | ⟨_, _, e⟩ | ⟨_, _, _, e⟩ | ⟨b, c, _, _, _, e⟩ <;> rw [exec, e] <;>
      rw [answers_next]
    · exact same
    · exact same
    · exact same
    · exact sameConfig_commitFrame s _
  | rxPop cnt =>
    rcases execRxPop_cases cnt s with ⟨_, e⟩ | ⟨_, _, e⟩ | ⟨_, _, e⟩ <;> rw [exec, e] <;> exact answers_next.2 same
  | cwrepPop =>
    rcases execCwrepPop_cases s with ⟨_, e⟩ | ⟨_, _, e⟩ | ⟨_, _, _, _, e⟩ <;> rw [exec, e] <;>
      exact answers_next.2 same
  | rd a size => rcases execRd_cases a size s with ⟨_, e⟩ | ⟨_, _, e⟩ <;> rw [exec, e] <;> exact answers_next.2 same
  | wr a v size => exact absurd rfl (hwr a v size)

/-- Settles O49: instruction by instruction, what each can answer has the same configuration. -/
theorem commandsKeepTheConfiguration : Obligations.CommandsKeepTheConfiguration :=
  fun _ s t ht hreset hwr => exec_sameConfig hreset hwr s t ht

/-! ## What a write can do (R253, R254) -/

/-- The effects a register write can have: record a cause, run a command, or store a checked value (R254). -/
inductive RegEffect (v : Word) (s : State) : Host.Outcome State Fault Refusal → Prop
  | raised (c : Cause) : RegEffect v s (.next (raise c s))
  | command : RegEffect v s (dispatchCommand v s)
  | mcs (m f : BitVec 4) (legal : legalMcs s.params m f = true) :
      RegEffect v s (.next { s with mcsMod := m, mcsFec := f })
  | flen (l : BitVec 16) (legal : legalFlen s.params l = true) : RegEffect v s (.next { s with flen := l })
  | ctrl (scrEn failFlag : Bool) : RegEffect v s (.next { s with scrEn := scrEn, failFlag := failFlag })
  | echo (m f : BitVec 4) : RegEffect v s (.next { s with echoMod := m, echoFec := f })
  | maxEmpty (x : BitVec 16) : RegEffect v s (.next { s with maxEmpty := x })
  | floor (x : BitVec 16) : RegEffect v s (.next { s with floor := x })
  | ie : RegEffect v s (.next { s with ie := v &&& ieMask })
  | err : RegEffect v s (.next (clearErr v s))
  | txh (h : Header) : RegEffect v s (.next { s with txh := h })

/-- A register write has one of these effects (R254). -/
theorem writeReg_effect (r : Reg) (v : Word) (s : State) : RegEffect v s (writeReg r v s) := by
  cases r
  case mcs =>
    rw [writeReg]
    split
    · next legal => exact .mcs _ _ legal
    · exact .raised .cfgReject
  case flen =>
    rw [writeReg]
    split
    · next legal => exact .flen _ legal
    · exact .raised .cfgReject
  case cmd => exact .command
  case ctrl => exact .ctrl _ _
  case echo => exact .echo _ _
  case maxEmpty => exact .maxEmpty _
  case floor => exact .floor _
  case ie => exact .ie
  case err => exact .err
  case txhLen | txhSeq | txhScheme | txhCw | txhOffsh => exact .txh _
  all_goals exact .raised .bus

/-- A place in a sample window has an address there (R81). -/
theorem place?_sampleWindow {a : Nat} {pl : Place} (h : place? a = some pl) (hpl : pl = .hdrIn ∨ pl = .rxSoft) :
    InHdrIn a ∨ InRxSoft a := by
  unfold place? at h
  split at h
  · rcases hpl with rfl | rfl <;> simp at h
  · split_ifs at h with h1 h2 h3 h4
    · rcases hpl with rfl | rfl <;> simp at h
    · exact .inl h2
    · rcases hpl with rfl | rfl <;> simp at h
    · exact .inr h4

/-- A word access to a sample window lies in the window with its four bytes (R81, R82). -/
theorem target?_sampleWindow {a : BitVec 16} {size : Nat} {pl : Place} (h : target? a size = some pl)
    (hpl : pl = .hdrIn ∨ pl = .rxSoft) : ∀ i < 4, inWindow (a.toNat + i) = true := by
  intro i hi
  rw [target?, Option.ite_none_right_eq_some] at h
  obtain ⟨⟨_, haligned⟩, hplace⟩ := h
  simp only [inWindow, Bool.or_eq_true, Bool.and_eq_true, decide_eq_true_eq]
  rcases place?_sampleWindow hplace hpl with ⟨_, _⟩ | ⟨_, _⟩ <;> omega

/-- Everything a bus write can do: record a cause, store a word in a sample window, or write a register (R253, R254). -/
theorem execWr_effects (a : BitVec 16) (v : Word) (size : Nat) (s : State) :
    (∃ c, execWr a v size s = .next (raise c s)) ∨
      ((∀ i < 4, inWindow (a.toNat + i) = true) ∧
        execWr a v size s = .next { s with mem := writeWord s.mem a.toNat v }) ∨
      ∃ r, execWr a v size s = writeReg r v s := by
  rcases execWr_cases a v size s with ⟨_, e⟩ | ⟨pl, hpl, hacc, e⟩
  · exact .inl ⟨.bus, e⟩
  · cases pl with
    | reg r => exact .inr (.inr ⟨r, e⟩)
    | hdrIn => exact .inr (.inl ⟨target?_sampleWindow hpl (.inl rfl), e⟩)
    | rxSoft => exact .inr (.inl ⟨target?_sampleWindow hpl (.inr rfl), e⟩)
    | hdrOut | payloadOut => exact absurd rfl hacc

/-- Where a property holds after a recorded cause and after every instruction but a bus write, it holds after a command
word written to CMD (R256). -/
theorem dispatchCommand_answers {P : State → Prop} {s : State} (hraise : ∀ c, P (raise c s))
    (hexec : ∀ i, (∀ a v z, i ≠ .wr a v z) → Answers P (exec i s)) (w : Word) : Answers P (dispatchCommand w s) := by
  cases h : decodeCommand w with
  | ok i => rw [dispatchCommand_ok h]; exact hexec i (decodeCommand_ne_bus h).2
  | error e => rw [dispatchCommand_error h]; exact answers_next.2 (hraise _)

/-! ## No step changes the parameters (R30, R301) -/

/-- A command or a read keeps the parameters, SOFT_RESET among them. -/
theorem exec_params_of_not_wr {i : Instr} (hwr : ∀ a v z, i ≠ .wr a v z) (s : State) :
    Answers (·.params = s.params) (exec i s) := by
  by_cases hreset : i = .softReset
  · subst hreset; exact answers_next.2 rfl
  · exact (exec_sameConfig hreset hwr s).mono fun t ⟨hp, _⟩ => hp.symm

/-- A register write keeps the parameters. -/
theorem RegEffect.params {v : Word} {s : State} {o : Host.Outcome State Fault Refusal} (h : RegEffect v s o) :
    Answers (·.params = s.params) o := by
  cases h
  case command => exact dispatchCommand_answers (fun _ => rfl) (fun i hwr => exec_params_of_not_wr hwr s) v
  all_goals exact answers_next.2 rfl

/-- Every instruction keeps the parameters. -/
theorem exec_params (i : Instr) (s : State) : Answers (·.params = s.params) (exec i s) := by
  by_cases hi : ∃ a v z, i = .wr a v z
  · obtain ⟨a, v, size, rfl⟩ := hi
    rcases execWr_effects a v size s with ⟨_, e⟩ | ⟨_, e⟩ | ⟨r, e⟩ <;> rw [exec, e]
    · exact answers_next.2 rfl
    · exact answers_next.2 rfl
    · exact (writeReg_effect r v s).params
  · exact exec_params_of_not_wr (fun a v z h => hi ⟨a, v, z, h⟩) s

/-- Settles O14: taking an access from the port and every instruction keep the parameters. -/
theorem parametersNeverChange : Obligations.ParametersNeverChange := by
  intro s t ht
  rcases step_cases s with ⟨_, e⟩ | ⟨a, rest, _, e⟩ <;> rw [e] at ht
  · cases ht; rfl
  · exact exec_params (decodeAccess a) { s with bus := rest } t ht

end Sys2Proof.Machine
end

section
/-!
# Every step keeps the good states (10_state.md)

One lemma per operation that says what it keeps of `Inv`, in the order of the model's definitions: recording a cause, the
memory, the header parser, the frame build, the deframing, the register writes; then one per instruction and the step.
-/

namespace Sys2Proof.Machine

/-! ## Recorded causes and the host's side -/

/-- A recorded cause sets one implemented bit of ERR (R45, R271, R272). -/
theorem errBit_reserved (c : Cause) : ((1 : Word) <<< causeCode c) &&& ~~~(0x00001FFE : Word) = 0 := by
  cases c <;> decide

/-- Recording a cause keeps the good states (R272). -/
theorem inv_raise {s : State} (hi : Inv s) (c : Cause) : Inv (raise c s) :=
  { hi with
    err := by rw [raise_err, BitVec.and_or_distrib_right, hi.err, errBit_reserved]; rfl
    cause := by
      have := causeCode_bounds c
      rw [raise_cause, BitVec.toNat_ofNat]
      omega
    noFec := hi.noFec }

/-- Recording causes keeps the good states (R277). -/
theorem inv_raiseAll {s : State} (hi : Inv s) (cs : List Cause) : Inv (raiseAll cs s) := by
  induction cs generalizing s with
  | nil => exact hi
  | cons c cs ih => exact ih (inv_raise hi c)

/-- Clearing bits of ERR keeps the good states (R255). -/
theorem inv_clearErr {s : State} (hi : Inv s) (v : Word) : Inv (clearErr v s) :=
  { hi with
    err := by
      rw [clearErr_err, BitVec.and_assoc, BitVec.and_comm (~~~(v &&& errMask)), ← BitVec.and_assoc, hi.err]
      exact BitVec.zero_and
    noFec := hi.noFec }

/-- The host's pending accesses and the value it read are no part of a good state. -/
theorem inv_host {s : State} (hi : Inv s) (bus : List BusAccess) (rdata : Word) :
    Inv { s with bus := bus, rdata := rdata } := { hi with noFec := hi.noFec }

/-- The mark of a valid header is free in a good state (R55). -/
theorem inv_hdrValid {s : State} (hi : Inv s) (b : Bool) : Inv { s with hdrValid := b } :=
  { hi with noFec := hi.noFec }

/-- On an FEC link the frame buffer and the deframer may hold anything. -/
theorem idleWithoutFec_of_fecEn {s : State} (hf : s.params.fecEn = true) : idleWithoutFec s = true := by
  simp [idleWithoutFec, hf]

/-! ## The memory (R61, R81) -/

/-- Every listed byte lies in a window. -/
def OnlyWindows (m : Memory) : Prop := ∀ c ∈ m, inWindow c.1 = true

/-- The clause `windows` of a good state (R61, R81). -/
theorem onlyWindows_iff {m : Memory} : OnlyWindows m ↔ m.all (fun c => inWindow c.1) = true := by
  simp only [OnlyWindows, List.all_eq_true]

/-- A byte stored in a window. -/
theorem onlyWindows_writeByte {m : Memory} (hm : OnlyWindows m) {a : Nat} (ha : inWindow a = true) (b : Byte) :
    OnlyWindows (writeByte m a b) := by
  intro c hc
  rcases mem_writeByte hc with hc | ⟨_, rfl⟩
  · exact hm c hc
  · exact ha

/-- A word stored in a window (R87, R254). -/
theorem onlyWindows_writeWord {m : Memory} (hm : OnlyWindows m) {a : Nat}
    (ha : ∀ i < 4, inWindow (a + i) = true) (v : Word) : OnlyWindows (writeWord m a v) := by
  have h0 := onlyWindows_writeByte hm (ha 0 (by omega)) (v.extractLsb' 0 8)
  have h1 := onlyWindows_writeByte h0 (ha 1 (by omega)) (v.extractLsb' 8 8)
  have h2 := onlyWindows_writeByte h1 (ha 2 (by omega)) (v.extractLsb' 16 8)
  exact onlyWindows_writeByte h2 (ha 3 (by omega)) (v.extractLsb' 24 8)

/-- A range of addresses replaced, all of them in windows. -/
theorem onlyWindows_replaceWindow {m : Memory} (hm : OnlyWindows m) {base len : Nat}
    (hw : ∀ a, base ≤ a → a < base + len → inWindow a = true) (bytes : List Byte) :
    OnlyWindows (replaceWindow m base len bytes) := by
  intro c hc
  simp only [replaceWindow, List.mem_append] at hc
  rcases hc with (hc | hc) | hc
  · exact hm c (List.mem_of_mem_filter hc)
  · obtain ⟨hlow, hhigh⟩ := mem_cellsFrom hc
    have hlen := length_take_le len bytes
    exact hw _ hlow (by omega)
  · exact hm c (List.mem_of_mem_filter hc)

/-- A header is written inside HDR_OUT (R151, R182). -/
theorem onlyWindows_writeHdrOut {m : Memory} (hm : OnlyWindows m) (h : Bits) : OnlyWindows (writeHdrOut m h) := by
  refine onlyWindows_replaceWindow hm (fun a hlow hhigh => ?_) _
  simp only [hdrOutBase, Config.hbMax] at hlow hhigh
  simp [inWindow, hlow, show a ≤ 0x11F by omega]

/-- A payload is written inside PAYLOAD_OUT (R182). -/
theorem onlyWindows_writePayloadOut {m : Memory} (hm : OnlyWindows m) (x : Bits) :
    OnlyWindows (writeBits m payloadOutBase Config.pmaxBits x) := by
  refine onlyWindows_replaceWindow hm (fun a hlow hhigh => ?_) _
  simp only [payloadOutBase, Config.pmaxBits] at hlow hhigh
  simp [inWindow, hlow, show a ≤ 0x1FFF by omega]

/-- A new canonical memory that holds nothing outside the windows keeps the good states. -/
theorem inv_mem {s : State} (hi : Inv s) {m : Memory} (hwf : Memory.wf m) (hwin : OnlyWindows m) :
    Inv { s with mem := m } :=
  { hi with memory := hwf, windows := onlyWindows_iff.1 hwin, noFec := hi.noFec }

/-! ## Parsed headers (R55, R149) -/

/-- The width of a header field on the link, 0 for a field that the link's layout leaves out (R141). -/
def fieldWidth (p : Params) : HdrField → Nat
  | .plen => p.wPlen
  | .seq => p.wSeq
  | .mod => Config.wMod
  | .fec => Config.wMod
  | .flen => p.wFlen
  | .cwid => if p.fecEn then p.wCwid else 0
  | .off => if p.fecEn then p.wOff else 0
  | .short => if p.fecEn then p.wShort else 0
  | .emod => if p.fecEn then Config.wMod else 0
  | .efec => if p.fecEn then Config.wMod else 0

/-- The layout lists its fields with their widths. -/
theorem snd_of_mem_layout (p : Params) : ∀ l ∈ layout p, l.2 = fieldWidth p l.1 := by
  cases hf : p.fecEn <;> simp [layout, fieldWidth, hf]

/-- The header fields are those of R141. -/
theorem HdrField.forall_iff {P : HdrField → Prop} :
    (∀ f, P f) ↔
      P .plen ∧ P .seq ∧ P .mod ∧ P .fec ∧ P .flen ∧ P .cwid ∧ P .off ∧ P .short ∧ P .emod ∧ P .efec :=
  ⟨fun h => ⟨h _, h _, h _, h _, h _, h _, h _, h _, h _, h _⟩, fun h f => by cases f <;> simp [h]⟩

/-- A field set is in the layout when every field fits its width, a field left out being 0 (R55, R149). -/
theorem headerInLayout_iff {p : Params} {h : Header} :
    headerInLayout p h = true ↔ ∀ f, h.get f < 2 ^ fieldWidth p f := by
  rw [HdrField.forall_iff]
  cases hf : p.fecEn <;>
    simp only [headerInLayout, headerFits, layout, hf, if_true, if_false, Bool.false_eq_true, List.all_append,
      List.all_cons, List.all_nil, Bool.and_eq_true, decide_eq_true_eq, fieldWidth] <;>
    simp [Header.get, BitVec.toNat_eq, and_assoc]

/-- Setting a field leaves it at most the value given (R149). -/
theorem Header.get_set_self_le (h : Header) (f : HdrField) (v : Nat) : (h.set f v).get f ≤ v := by
  cases f <;> exact (BitVec.toNat_ofNat ..).trans_le (Nat.mod_le ..)

/-- Setting a field leaves the others as they are (R149). -/
theorem Header.get_set_of_ne (h : Header) {f g : HdrField} (hfg : g ≠ f) (v : Nat) : (h.set f v).get g = h.get g := by
  cases f <;> cases g <;> first | rfl | exact absurd rfl hfg

/-- Parsed fields fit the widths they are read with (R149). -/
theorem parseFields_fits {W : HdrField → Nat} {ls : List (HdrField × Nat)} (hls : ∀ l ∈ ls, l.2 = W l.1) (d : Bits)
    {h : Header} (hh : ∀ f, h.get f < 2 ^ W f) (f : HdrField) : (parseFields ls d h).get f < 2 ^ W f := by
  induction ls generalizing d h with
  | nil => exact hh f
  | cons l ls ih =>
    obtain ⟨g, w⟩ := l
    obtain ⟨hw, hls⟩ := List.forall_mem_cons.1 hls
    refine ih hls _ fun f => ?_
    by_cases hfg : f = g
    · subst hfg
      calc (h.set f (val (d.take w))).get f ≤ val (d.take w) := Header.get_set_self_le ..
        _ < 2 ^ (d.take w).length := val_lt _
        _ ≤ 2 ^ W f := Nat.pow_le_pow_right (by omega) ((List.length_take_le ..).trans hw.le)
    · rw [Header.get_set_of_ne h hfg]; exact hh f

/-- A parsed header is in the link's layout (R55, R149). -/
theorem headerInLayout_headerParse {p : Params} {seed : BitVec 7} {x : List Sample} {h : Header}
    (hx : headerParse p seed x = some h) : headerInLayout p h = true := by
  simp only [headerParse, Option.ite_none_right_eq_some, Option.some.injEq] at hx
  obtain ⟨_, rfl⟩ := hx
  exact headerInLayout_iff.2
    (parseFields_fits (snd_of_mem_layout p) _ (headerInLayout_iff.1 (headerInLayout_zero p)))

/-! ## The frame build (R50, R182 to R189) -/

/-- The remnant's check, condition by condition (R50). -/
theorem remnantOk_iff {p : Params} {r : Remnant} :
    remnantOk p r = true ↔
      ∃ c, code? p r.fec = some c ∧ 1 ≤ r.bits.length ∧ 1 ≤ r.off ∧ r.off + r.bits.length = c.n ∧
        r.id.toNat < 2 ^ p.wCwid := by
  unfold remnantOk
  cases code? p r.fec <;> simp [and_assoc]

/-- What the frame build keeps of the Tx state (R49 to R51). -/
structure BuildOk (p : Params) (a : BuildAcc) : Prop where
  txq : a.txq.length ≤ p.txqCap
  nextCwId : a.nextCwId.toNat < 2 ^ p.wCwid
  rem : ∀ r, a.rem = some r → remnantOk p r = true

/-- The remnant's part leaves no remnant, or a later tail of the same codeword (R185). -/
theorem buildOk_placeRemnant {p : Params} {a : BuildAcc} (ha : BuildOk p a) (cap : Nat) :
    BuildOk p (placeRemnant cap a) := by
  rcases placeRemnant_cases cap a with ⟨_, e⟩ | ⟨r, hr, ⟨_, e⟩ | ⟨hcap, e⟩⟩ <;> rw [e]
  · exact ha
  · exact { ha with rem := fun _ h => nomatch h }
  · refine { ha with rem := ?_ }
    rintro _ ⟨⟩
    obtain ⟨c, hc, _, hoff, hn, hid⟩ := remnantOk_iff.1 (ha.rem r hr)
    exact remnantOk_iff.2 ⟨c, hc, by simp only [List.length_drop]; omega, by simp only; omega,
      by simp only [List.length_drop]; omega, hid⟩

/-- A new codeword leaves the remnant as it is, or its own tail, of a code that the table names (R186). -/
theorem buildOk_placeCodeword {p : Params} (hp : paramsWf p = true) {c : Code} (hc : code? p c.id = some c)
    {cap : Nat} {a : BuildAcc} (ha : BuildOk p a) (hroom : 1 ≤ cap - a.out.length) :
    BuildOk p (placeCodeword p c cap a) := by
  obtain ⟨cw, _, hcw, htxq, hnext, _, ⟨_, _, hrem⟩ | ⟨hcut, _, hrem⟩⟩ := placeCodeword_cases p c cap a
  all_goals
    refine ⟨by rw [htxq, List.length_drop]; have := ha.txq; omega,
      by rw [hnext]; exact incMod_lt _ (paramsWf_good hp).wCwid.2, ?_⟩
    rw [hrem]
  · exact ha.rem
  · rintro _ ⟨⟩
    exact remnantOk_iff.2 ⟨c, hc, by simp only [List.length_drop]; omega, hroom,
      by simp only [List.length_drop]; omega, ha.nextCwId⟩

/-- A build from a good state leaves the Tx state good (R182). -/
theorem buildOk_buildPayload {s : State} (hi : Inv s) {b : Nat} (hb : 1 ≤ b) {c : Code}
    (hc : code? s.params (frameCode s) = some c) : BuildOk s.params (buildPayload s b c) := by
  have hrem (r : Remnant) (hr : s.rem = some r) : remnantOk s.params r = true := by
    simpa [hr] using hi.rem
  have h0 := buildOk_placeRemnant (a := { out := [], txq := s.txq, nextCwId := s.nextCwId, rem := s.rem, short := 0 })
    ⟨hi.txq, hi.nextCwId, hrem⟩ (frameCapacity s b)
  have hid : code? s.params c.id = some c := (code?_some hc).2 ▸ hc
  rw [buildPayload]
  split
  · exact placeCodewords_induct (fun a ha hroom _ => buildOk_placeCodeword hi.params hid ha (hb.trans hroom)) _ _ h0
  · exact h0

/-- The payload as sent, with its fill, is no longer than the frame, and fits PAYLOAD_OUT (R39, R183, R189). -/
theorem ceilDiv_buildPayload_le {s : State} (hflen : legalFlen s.params s.flen = true) {b : Nat}
    (hb : 1 ≤ b ∧ b ≤ 4) (c : Code) : ceilDiv (buildPayload s b c).out.length b * b ≤ 32768 := by
  obtain ⟨_, _, _, hmax⟩ := legalFlen_iff.1 hflen
  obtain ⟨_, hlt⟩ := ceilDiv_spec (buildPayload s b c).out.length hb.1
  have hcap : (buildPayload s b c).out.length ≤ s.flen.toNat * s.params.nc * b := length_buildPayload_le s b c
  have hsymbols : ceilDiv (buildPayload s b c).out.length b ≤ s.flen.toNat * s.params.nc := by
    refine Nat.le_of_lt_succ (Nat.lt_of_mul_lt_mul_right (a := b) ?_)
    rw [Nat.succ_mul]
    omega
  exact (Nat.mul_le_mul hsymbols hb.2).trans hmax

/-- A frame build keeps the good states (R182). -/
theorem inv_buildFrame {s : State} (hi : Inv s) (hf : s.params.fecEn = true) {b : Nat} (hb : 1 ≤ b ∧ b ≤ 4) {c : Code}
    (hc : code? s.params (frameCode s) = some c) : Inv (buildFrame s b c) := by
  have hok := buildOk_buildPayload hi hb.1 hc
  have hwidth := (paramsWf_good hi.params).wSeq.2
  have hbits := ceilDiv_buildPayload_le hi.flen hb c
  exact { hi with
    txq := hok.txq
    rem := by rw [Option.all_eq_true]; exact hok.rem
    nextCwId := hok.nextCwId
    frameNo := incMod_lt _ hwidth
    txPbits := (BitVec.toNat_ofNat _ _).trans_le ((Nat.mod_le _ _).trans hbits)
    memory := wf_writeBits (wf_writeHdrOut hi.memory _) _ _ _
    windows := onlyWindows_iff.1
      (onlyWindows_writePayloadOut (onlyWindows_writeHdrOut (onlyWindows_iff.2 hi.windows) _) _)
    noFec := idleWithoutFec_of_fecEn hf }

/-! ## The deframing (R56, R58, R212 to R217) -/

/-- The partial's check, condition by condition (R56). -/
theorem partialOk_iff {p : Params} {q : Partial} :
    partialOk p q = true ↔
      ∃ c, code? p q.fec = some c ∧ 1 ≤ q.y.length ∧ q.y.length < c.n ∧ q.short < c.k ∧ q.id.toNat < 2 ^ p.wCwid := by
  unfold partialOk
  cases code? p q.fec <;> simp [and_assoc]

/-- What a deframing keeps: its reports and the partial are as R58 and R56 say. -/
structure RxAccOk (p : Params) (a : RxAcc) : Prop where
  reps : ∀ e ∈ a.reps, reportOk p e = true
  part : ∀ q, a.part = some q → partialOk p q = true

/-- Without a partial there is nothing to check of one (R56). -/
theorem RxAccOk.noPart {p : Params} {a : RxAcc} (ha : RxAccOk p a) : RxAccOk p { a with part := none } :=
  { ha with part := fun _ h => nomatch h }

/-- Adding a report of a legal id keeps the reports, whatever bits and causes go with it (R58). -/
theorem RxAccOk.report {p : Params} {a a' : RxAcc} (ha : RxAccOk p a) {e : Report} (he : reportOk p e = true)
    (hreps : a'.reps = a.reps ++ [e]) (hpart : a'.part = a.part) : RxAccOk p a' where
  reps := by
    rw [hreps, List.forall_mem_append]
    exact ⟨ha.reps, by simpa using he⟩
  part := hpart ▸ ha.part

/-- A decoded codeword of a legal id (R215). -/
theorem RxAccOk.decodeInto {p : Params} {a : RxAcc} (ha : RxAccOk p a) {id : BitVec 16}
    (hid : id.toNat < 2 ^ p.wCwid) (ff : Bool) (c : Code) (y : List Sample) (short : Nat) :
    RxAccOk p (decodeInto ff c id y short a) := by
  rcases decodeInto_cases ff c id y short a with ⟨_, e⟩ | ⟨_, _, e⟩ | ⟨_, _, e⟩ <;> rw [e]
  all_goals exact ha.report (by simp [reportOk, hid]) rfl rfl

/-- A lost codeword of a legal id (R216). -/
theorem RxAccOk.reportLost {p : Params} {a : RxAcc} (ha : RxAccOk p a) {id : BitVec 16}
    (hid : id.toNat < 2 ^ p.wCwid) : RxAccOk p (reportLost id a) :=
  ha.report (e := ⟨id, .lost, 0⟩) (by simp [reportOk, hid]) rfl rfl

/-- A frame with `OFF = 0` loses a pending partial (R212). -/
theorem RxAccOk.dropPartial {p : Params} {a : RxAcc} (ha : RxAccOk p a) : RxAccOk p (dropPartial a) := by
  unfold Machine.dropPartial
  split
  · exact ha
  · next q hq =>
    obtain ⟨_, _, _, _, _, hid⟩ := partialOk_iff.1 (ha.part q hq)
    exact (ha.reportLost hid).noPart

/-- The leading codeword of a frame with `OFF > 0` (R212). -/
theorem RxAccOk.continueCodeword {p : Params} {a : RxAcc} (ha : RxAccOk p a) {h : Header} {c : Code}
    (hc : code? p h.fec = some c) (hid : h.cwid.toNat < 2 ^ p.wCwid) (ff : Bool) (y : List Sample) :
    RxAccOk p (continueCodeword ff c h y a) := by
  have lostHere {a : RxAcc} (ha : RxAccOk p a) (t need : Nat) :
      RxAccOk p (if t = need then Machine.reportLost h.cwid a else a) := by
    split
    · exact ha.reportLost hid
    · exact ha
  unfold Machine.continueCodeword
  cases hq : a.part with
  | none => exact lostHere ha _ _
  | some q =>
    obtain ⟨c', hc', hpos, _, hshort, hqid⟩ := partialOk_iff.1 (ha.part q hq)
    simp only
    split_ifs with hmatch ht hsame
    · exact ha.noPart.decodeInto hqid ff c _ _
    · simp only [matchesPartial, Bool.and_eq_true, beq_iff_eq, decide_eq_true_eq] at hmatch
      obtain ⟨⟨_, hfec⟩, hoff⟩ := hmatch
      obtain rfl : c = c' := Option.some.inj (by rw [← hc, ← hc', hfec])
      refine { ha with part := ?_ }
      rintro _ ⟨⟩
      refine partialOk_iff.2 ⟨c, hc', ?_, ?_, hshort, hqid⟩ <;>
        simp only [List.length_append, List.length_take] <;> omega
    · exact (ha.noPart).reportLost hid
    · exact (ha.reportLost hqid).noPart.reportLost hid
    · exact ha.noPart
    · exact (ha.reportLost hqid).noPart

/-- The new codewords: each has an id of `W_CWID` bits, and one that is cut short is a partial (R213, R214). -/
theorem RxAccOk.newCodewords {p : Params} (hw : p.wCwid ≤ 16) {h : Header} {c : Code} (hc : code? p h.fec = some c)
    (hshort : h.short.toNat < c.k) (ff : Bool) {y : List Sample} {starts : List (Nat × Nat)}
    (hstarts : ∀ st ∈ starts, 1 ≤ st.2 ∧ st.2 ≤ c.n ∧ st.1 + st.2 ≤ y.length) {id : BitVec 16}
    (hid : id.toNat < 2 ^ p.wCwid) {a : RxAcc} (ha : RxAccOk p a) :
    RxAccOk p (newCodewords p ff c h y starts id a) := by
  induction starts generalizing id a with
  | nil => exact ha
  | cons st rest ih =>
    obtain ⟨q, ln⟩ := st
    obtain ⟨⟨hpos, hle, hin⟩, hrest⟩ := List.forall_mem_cons.1 hstarts
    rw [Machine.newCodewords]
    refine ih hrest (incMod_lt id hw) ?_
    split
    · exact ha.decodeInto hid ff c _ _
    · next hcut =>
      refine { ha with part := ?_ }
      rintro _ ⟨⟩
      have hlen : ((y.drop q).take ln).length = ln := by simp only [List.length_take, List.length_drop]; omega
      refine partialOk_iff.2 ⟨c, hc, by simp only [hlen]; omega, by simp only [hlen]; omega, ?_, hid⟩
      simp only
      split <;> omega

/-- What a deframing of a checked header computes from a good state is good (R212 to R216). -/
theorem rxAccOk_deframe {s : State} (hi : Inv s) (hf : s.params.fecEn = true) {b : Nat} {c : Code}
    (hrange : rangeCheck s.params s.rxh = some (b, c)) : RxAccOk s.params (deframe s b c) := by
  obtain ⟨rfl, ⟨hb, _⟩, hc, _, _, _, hoff, hshort⟩ := rangeCheck_some.1 hrange
  have hw := (paramsWf_good hi.params).wCwid.2
  have hid : s.rxh.cwid.toNat < 2 ^ s.params.wCwid := by
    have := headerInLayout_iff.1 hi.rxh .cwid
    simpa [Header.get, fieldWidth, hf] using this
  have h0 : RxAccOk s.params { out := [], reps := [], causes := [], part := s.part } :=
    ⟨by simp, by rw [← Option.all_eq_true]; exact hi.part⟩
  have hstarts (fuel pos : Nat) : ∀ st ∈ codewordStarts c.n s.rxh.mod.toNat
      (frameSamples s s.rxh.mod.toNat).length fuel pos,
      1 ≤ st.2 ∧ st.2 ≤ c.n ∧ st.1 + st.2 ≤ (frameSamples s s.rxh.mod.toNat).length := by
    intro st hst
    have := codewordStarts_bounds hst
    omega
  rw [deframe]
  split
  · exact (h0.continueCodeword hc hid _ _).newCodewords hw hc hshort _ (hstarts _ _) (incMod_lt _ hw)
  · exact h0.dropPartial.newCodewords hw hc hshort _ (hstarts _ _) hid

/-- Committing a good deframing keeps the good states (R217). -/
theorem inv_commitFrame {s : State} (hi : Inv s) (hf : s.params.fecEn = true) {a : RxAcc} (ha : RxAccOk s.params a) :
    Inv (commitFrame s a) := by
  rcases commitFrame_cases s a with ⟨_, e⟩ | ⟨⟨hrxq, hrep⟩, e⟩ <;> rw [e]
  · exact inv_raise hi _
  · refine inv_raiseAll (s := { s with rxq := _, rep := _, part := _, hdrValid := false }) { hi with
      part := ?_, rxq := ?_, rep := ?_, reports := ?_, noFec := idleWithoutFec_of_fecEn hf } _
    · rw [Option.all_eq_true]; exact ha.part
    · simpa only [List.length_append] using hrxq
    · simpa only [List.length_append] using hrep
    · rw [List.all_append, hi.reports, Bool.true_and, List.all_eq_true]; exact ha.reps

/-! ## The popped values (R59, R60) -/

/-- A word below `2^n` has none of the bits that a mask sets from bit `n` on. -/
theorem and_eq_zero_of_lt {x mask : Word} {n : Nat} (hx : x.toNat < 2 ^ n)
    (hmask : ∀ i < n, mask.getLsbD i = false) : x &&& mask = 0 := by
  refine BitVec.eq_of_getLsbD_eq fun i _ => ?_
  rw [BitVec.getLsbD_and]
  by_cases hi : i < n
  · simp [hmask i hi]
  · have : x.getLsbD i = false :=
      Nat.testBit_lt_two_pow (hx.trans_le (Nat.pow_le_pow_right (by omega) (not_lt.1 hi)))
    simp [this]

/-- The reserved bits of RXOUT are 0 (R59): at most eight bits are popped. -/
theorem rxoutWord_reserved {g : Bits} (hg : g.length ≤ 8) : rxoutWord g &&& (0xFFFFF000 : Word) = 0 := by
  have hval : val (fitLen 8 g) < 2 ^ 8 := by simpa using val_lt (fitLen 8 g)
  have hlt : (rxoutWord g).toNat < 2 ^ 12 := by rw [rxoutWord, BitVec.toNat_ofNat]; omega
  exact and_eq_zero_of_lt hlt (by decide)

/-- The reserved bits of CWREP are 0 (R60). -/
theorem cwrepWord_reserved (e : Report) : cwrepWord e &&& (0xFFF40000 : Word) = 0 := by
  have hmask : ∀ i < 32, (0xFFF40000 : Word).getLsbD i = decide (i = 18 ∨ 20 ≤ i) := by decide
  refine BitVec.eq_of_getLsbD_eq fun i hi => ?_
  rw [BitVec.getLsbD_and, hmask i hi, cwrepWord, BitVec.getLsbD_append, BitVec.getLsbD_append, BitVec.getLsbD_append]
  by_cases hres : i = 18 ∨ 20 ≤ i
  · rcases hres with rfl | hres
    · simp
    · simp [show ¬i < 16 by omega, show ¬i - 16 < 2 by omega, show ¬i - 16 - 2 < 1 by omega,
        show i - 16 - 2 - 1 ≠ 0 by omega]
  · simp [hres]

/-- The reserved bits of CWREP_NB are 0 (R60). -/
theorem nbits_reserved (n : BitVec 16) : n.setWidth 32 &&& (0xFFFF0000 : Word) = 0 :=
  and_eq_zero_of_lt (n := 16) (by rw [BitVec.toNat_setWidth_of_le (by decide)]; exact n.isLt) (by decide)

/-! ## The queue commands (R181, R219, R220) -/

/-- Pushed bits that fit the queue keep the good states (R181). -/
theorem inv_push {s : State} (hi : Inv s) (hf : s.params.fecEn = true) {data : BitVec 8} {cnt : BitVec 4}
    (hroom : s.txq.length + cnt.toNat ≤ s.params.txqCap) : Inv { s with txq := s.txq ++ pushBits data cnt } := by
  have hlen : (pushBits data cnt).length ≤ cnt.toNat := List.length_take_le ..
  exact { hi with
    txq := by rw [List.length_append]; exact (Nat.add_le_add_left hlen _).trans hroom
    noFec := idleWithoutFec_of_fecEn hf }

/-- Popping at most eight bits keeps the good states (R219). -/
theorem inv_pop {s : State} (hi : Inv s) (hf : s.params.fecEn = true) {cnt : BitVec 4} (hcnt : cntLegal cnt = true) :
    Inv { s with rxout := rxoutWord (s.rxq.take cnt.toNat), rxq := s.rxq.drop cnt.toNat } := by
  obtain ⟨_, h8⟩ : 1 ≤ cnt.toNat ∧ cnt.toNat ≤ 8 := by simpa [cntLegal] using hcnt
  exact { hi with
    rxq := (List.length_drop ▸ Nat.sub_le ..).trans hi.rxq
    rxout := rxoutWord_reserved ((List.length_take_le ..).trans h8)
    noFec := idleWithoutFec_of_fecEn hf }

/-- Taking the oldest report keeps the good states (R220). -/
theorem inv_takeReport {s : State} (hi : Inv s) (hf : s.params.fecEn = true) {e : Report} {rest : List Report}
    (hrep : s.rep = e :: rest) :
    Inv { s with cwrep := cwrepWord e, cwrepNb := e.nbits.setWidth 32, rep := rest } := by
  have hlen := hi.rep
  have hall := hi.reports
  rw [hrep] at hlen hall
  obtain ⟨_, hrest⟩ := (Bool.and_eq_true ..).mp (List.all_cons ▸ hall)
  exact { hi with
    cwrep := cwrepWord_reserved e
    cwrepNb := nbits_reserved e.nbits
    rep := (Nat.le_succ _).trans hlen
    reports := hrest
    noFec := idleWithoutFec_of_fecEn hf }

/-! ## Every instruction and the step -/

/-- Every instruction but a bus write keeps the good states. -/
theorem exec_inv_of_not_wr {i : Instr} (hwr : ∀ a v z, i ≠ .wr a v z) {s : State} (hi : Inv s) :
    Answers Inv (exec i s) := by
  cases i with
  | nop => exact answers_next.2 hi
  | softReset => exact answers_next.2 (inv_host (inv_resetWith hi.params) s.bus s.rdata)
  | txPush data cnt =>
    rcases execTxPush_cases data cnt s with ⟨_, e⟩ | ⟨_, _, e⟩ | ⟨_, _, _, e⟩ | ⟨hf, hcnt, hroom, e⟩ <;>
      rw [exec, e, answers_next]
    · exact inv_raise hi _
    · exact inv_raise hi _
    · exact inv_raise hi _
    · exact inv_push hi hf hroom
  | txBuild =>
    rcases execTxBuild_cases s with ⟨_, e⟩ | ⟨_, _, e⟩ | ⟨b, c, hf, hb, hc, e⟩ <;> rw [exec, e]
    · exact answers_next.2 (inv_raise hi _)
    · exact answers_fault _ _
    · obtain ⟨rfl, hmod⟩ := bps?_some.1 hb
      exact answers_next.2 (inv_buildFrame hi hf hmod hc)
  | hdrBuild =>
    rcases execHdrBuild_cases s with ⟨_, e⟩ | ⟨_, e⟩ <;> rw [exec, e, answers_next]
    · exact inv_mem hi (wf_writeHdrOut hi.memory _) (onlyWindows_writeHdrOut (onlyWindows_iff.2 hi.windows) _)
    · exact inv_raise hi _
  | hdrParse =>
    rcases execHdrParse_cases s with ⟨_, e⟩ | ⟨h, hh, e⟩ <;> rw [exec, e, answers_next]
    · exact inv_raise (inv_hdrValid hi false) _
    · exact { hi with rxh := headerInLayout_headerParse hh, noFec := hi.noFec }
  | rxFrame =>
    rcases execRxFrame_cases s with ⟨_, e⟩ | ⟨_, _, e⟩ | ⟨_, _, _, e⟩ | ⟨b, c, hf, _, hrange, e⟩ <;>
      rw [exec, e, answers_next]
    · exact inv_raise hi _
    · exact inv_raise hi _
    · exact inv_raise (inv_hdrValid hi false) _
    · exact inv_commitFrame hi hf (rxAccOk_deframe hi hf hrange)
  | rxPop cnt =>
    rcases execRxPop_cases cnt s with ⟨_, e⟩ | ⟨_, _, e⟩ | ⟨hf, hcnt, e⟩ <;> rw [exec, e, answers_next]
    · exact inv_raise hi _
    · exact inv_raise hi _
    · exact inv_pop hi hf hcnt
  | cwrepPop =>
    rcases execCwrepPop_cases s with ⟨_, e⟩ | ⟨hf, _, e⟩ | ⟨r, rest, hf, hrep, e⟩ <;> rw [exec, e, answers_next]
    · exact inv_raise hi _
    · exact { hi with cwrep := BitVec.zero_and, cwrepNb := BitVec.zero_and, noFec := idleWithoutFec_of_fecEn hf }
    · exact inv_takeReport hi hf hrep
  | rd a size =>
    rcases execRd_cases a size s with ⟨_, e⟩ | ⟨_, _, e⟩ <;> rw [exec, e, answers_next]
    · exact inv_raise (inv_host hi s.bus 0) _
    · exact inv_host hi s.bus _
  | wr a v size => exact absurd rfl (hwr a v size)

/-- A register write keeps the good states: what it stores is checked or masked (R38, R39, R43, R254). -/
theorem RegEffect.inv {v : Word} {s : State} {o : Host.Outcome State Fault Refusal} (h : RegEffect v s o) (hi : Inv s) :
    Answers Inv o := by
  cases h
  case raised c => exact answers_next.2 (inv_raise hi c)
  case command => exact dispatchCommand_answers (inv_raise hi) (fun i hwr => exec_inv_of_not_wr hwr hi) v
  case mcs m f legal => exact answers_next.2 { hi with mcs := legal, noFec := hi.noFec }
  case flen l legal => exact answers_next.2 { hi with flen := legal, noFec := hi.noFec }
  case ie =>
    have hie : v &&& ieMask &&& ~~~(0x00011FFE : Word) = 0 := by
      rw [BitVec.and_assoc, show ieMask &&& ~~~(0x00011FFE : Word) = 0 by decide]
      exact BitVec.and_zero
    exact answers_next.2 { hi with ie := hie, noFec := hi.noFec }
  case err => exact answers_next.2 (inv_clearErr hi v)
  all_goals exact answers_next.2 { hi with noFec := hi.noFec }

/-- Every instruction keeps the good states. -/
theorem exec_inv (i : Instr) {s : State} (hi : Inv s) : Answers Inv (exec i s) := by
  by_cases hwr : ∃ a v z, i = .wr a v z
  · obtain ⟨a, v, size, rfl⟩ := hwr
    rcases execWr_effects a v size s with ⟨c, e⟩ | ⟨hwin, e⟩ | ⟨r, e⟩ <;> rw [exec, e]
    · exact answers_next.2 (inv_raise hi c)
    · exact answers_next.2 (inv_mem hi (wf_writeWord hi.memory _ v)
        (onlyWindows_writeWord (onlyWindows_iff.2 hi.windows) hwin v))
    · exact (writeReg_effect r v s).inv hi
  · exact exec_inv_of_not_wr (fun a v z h => hwr ⟨a, v, z, h⟩) hi

/-- Settles O11: taking an access from the port and every instruction keep the good states. -/
theorem stepKeepsGoodStates : Obligations.StepKeepsGoodStates := by
  intro s t hi ht
  rcases step_cases s with ⟨_, e⟩ | ⟨a, rest, _, e⟩ <;> rw [e] at ht
  · cases ht; exact hi
  · exact exec_inv (decodeAccess a) (inv_host hi rest s.rdata) t ht

end Sys2Proof.Machine
end

section
/-!
# A step runs the instruction of the host's access (R92, R110 to R118)

A command word by its fields, so that the decoder and the encoder undo each other, and the step as the instruction whose
access is pending.
-/

namespace Sys2Proof.Machine

/-! ## A command word by its fields (R111) -/

/-- The word with the given CNT, DATA and OP, and 0 above them. -/
def fieldsWord (cnt : BitVec 4) (data op : BitVec 8) : Word := (0 : BitVec 12) ++ cnt ++ data ++ op

/-- The number of a field of a word. -/
theorem toNat_extractLsb'_div {n : Nat} (w : BitVec n) (start len : Nat) :
    (w.extractLsb' start len).toNat = w.toNat / 2 ^ start % 2 ^ len := by
  rw [BitVec.extractLsb'_toNat, Nat.shiftRight_eq_div_pow]

/-- The number that the fields spell. -/
theorem toNat_fieldsWord (cnt : BitVec 4) (data op : BitVec 8) :
    (fieldsWord cnt data op).toNat = 65536 * cnt.toNat + 256 * data.toNat + op.toNat := by
  simp only [fieldsWord, toNat_append_add, BitVec.ofNat_eq_ofNat, BitVec.toNat_ofNat]; omega

@[simp] theorem opField_fieldsWord (cnt : BitVec 4) (data op : BitVec 8) : opField (fieldsWord cnt data op) = op := by
  apply BitVec.eq_of_toNat_eq
  rw [opField, toNat_extractLsb'_div, toNat_fieldsWord]; omega

@[simp] theorem dataField_fieldsWord (cnt : BitVec 4) (data op : BitVec 8) :
    dataField (fieldsWord cnt data op) = data := by
  apply BitVec.eq_of_toNat_eq
  rw [dataField, toNat_extractLsb'_div, toNat_fieldsWord]; omega

@[simp] theorem cntField_fieldsWord (cnt : BitVec 4) (data op : BitVec 8) :
    cntField (fieldsWord cnt data op) = cnt := by
  apply BitVec.eq_of_toNat_eq
  rw [cntField, toNat_extractLsb'_div, toNat_fieldsWord]; omega

@[simp] theorem above19_fieldsWord (cnt : BitVec 4) (data op : BitVec 8) :
    (fieldsWord cnt data op).extractLsb' 20 12 = 0 := by
  apply BitVec.eq_of_toNat_eq
  simp only [toNat_extractLsb'_div, toNat_fieldsWord, BitVec.ofNat_eq_ofNat, BitVec.toNat_zero]; omega

/-- A word whose bits above CNT are 0 is the word of its fields. -/
theorem eq_fieldsWord {w : Word} (h : w.extractLsb' 20 12 = 0) :
    w = fieldsWord (cntField w) (dataField w) (opField w) := by
  have high := congrArg BitVec.toNat h
  simp only [toNat_extractLsb'_div, BitVec.ofNat_eq_ofNat, BitVec.toNat_zero] at high
  apply BitVec.eq_of_toNat_eq
  rw [toNat_fieldsWord, cntField, dataField, opField]
  simp only [toNat_extractLsb'_div]
  omega

/-- A word whose bits above OP are 0 is the word of its opcode alone. -/
theorem eq_fieldsWord_op {w : Word} (h : w.extractLsb' 8 24 = 0) : w = fieldsWord 0 0 (opField w) := by
  have high := congrArg BitVec.toNat h
  simp only [toNat_extractLsb'_div, BitVec.ofNat_eq_ofNat, BitVec.toNat_zero] at high
  apply BitVec.eq_of_toNat_eq
  simp only [toNat_fieldsWord, opField, toNat_extractLsb'_div, BitVec.ofNat_eq_ofNat, BitVec.toNat_zero]
  omega

/-- The encoder's word is the word of its fields (R113, R118). -/
theorem shiftedFields_eq_fieldsWord (cnt : BitVec 4) (data op : BitVec 8) :
    (cnt.setWidth 32 <<< 16) ||| (data.setWidth 32 <<< 8) ||| op.setWidth 32 = fieldsWord cnt data op := by
  apply BitVec.eq_of_getLsbD_eq
  intro j hj
  simp only [fieldsWord, BitVec.getLsbD_or, BitVec.getLsbD_shiftLeft, BitVec.getLsbD_setWidth, BitVec.getLsbD_append]
  have hop (h : 8 ≤ j) : op.getLsbD j = false := BitVec.getLsbD_of_ge op j h
  have hdata (h : 16 ≤ j) : data.getLsbD (j - 8) = false := BitVec.getLsbD_of_ge data (j - 8) (by omega)
  have hcnt (h : 20 ≤ j) : cnt.getLsbD (j - 16) = false := BitVec.getLsbD_of_ge cnt (j - 16) (by omega)
  grind

/-! ## Encoding and decoding undo each other (R110, R113, R114, R118) -/

theorem encode_txPush (data : BitVec 8) (cnt : BitVec 4) :
    encode (.txPush data cnt) = commandAccess (fieldsWord cnt data 0x10) := by
  rw [← shiftedFields_eq_fieldsWord]; rfl

theorem encode_rxPop (cnt : BitVec 4) : encode (.rxPop cnt) = commandAccess (fieldsWord cnt 0 0x31) := by
  rw [← shiftedFields_eq_fieldsWord, encode]
  simp

theorem decodeCommand_txPush (data : BitVec 8) (cnt : BitVec 4) :
    decodeCommand (fieldsWord cnt data 0x10) = .ok (.txPush data cnt) := by
  simp [decodeCommand, unlessReserved]

theorem decodeCommand_rxPop (cnt : BitVec 4) : decodeCommand (fieldsWord cnt 0 0x31) = .ok (.rxPop cnt) := by
  simp [decodeCommand, unlessReserved]

/-- The word that a command is the write of decodes to the command. -/
theorem decodeCommand_of_encode {i : Instr} (hi : Laws.isCommand i = true) {w : Word}
    (he : encode i = commandAccess w) : decodeCommand w = .ok i := by
  cases i with
  | nop | softReset | txBuild | hdrBuild | hdrParse | rxFrame | cwrepPop =>
    rw [← Laws.commandAccess_inj he]; rfl
  | txPush data cnt => rw [← Laws.commandAccess_inj ((encode_txPush data cnt).symm.trans he), decodeCommand_txPush]
  | rxPop cnt => rw [← Laws.commandAccess_inj ((encode_rxPop cnt).symm.trans he), decodeCommand_rxPop]
  | rd | wr => exact absurd hi (by simp [Laws.isCommand])

/-- The word that decodes to a command is the one that the command is the write of: the opcode's row fixes the rest. -/
theorem encode_of_decodeCommand {w : Word} {i : Instr} (h : decodeCommand w = .ok i) : encode i = commandAccess w := by
  have alone (hw : (w.extractLsb' 8 24 != 0) = false) {n : Nat} (hop : (opField w).toNat = n) :
      fieldsWord 0 0 (BitVec.ofNat 8 n) = w := by
    rw [← hop, BitVec.ofNat_toNat, BitVec.setWidth_eq, ← eq_fieldsWord_op (by simpa using hw)]
  unfold decodeCommand at h
  simp only at h
  split at h <;> simp only [unlessReserved_ok, reduceCtorEq] at h <;> obtain ⟨hw, rfl⟩ := h
  case h_3 hop =>
    have hop : opField w = 0x10 := BitVec.eq_of_toNat_eq hop
    rw [encode_txPush, ← hop, ← eq_fieldsWord (by simpa using hw)]
  case h_8 hop =>
    have hop : opField w = 0x31 := BitVec.eq_of_toNat_eq hop
    simp only [Bool.or_eq_false_iff, bne_eq_false_iff_eq] at hw
    rw [encode_rxPop, ← hop, ← hw.2, ← eq_fieldsWord hw.1]
  all_goals
    next hop => rw [← alone hw hop]; rfl

/-- A word that decodes to a command lies in the opcode map (R113, R114). -/
theorem isCommandWord_of_decodeCommand {w : Word} {i : Instr} (h : decodeCommand w = .ok i) :
    isCommandWord w = true := by
  have he : encode i = commandAccess w := encode_of_decodeCommand h
  rcases decodeCommand_cases h with ⟨_, rfl⟩ | ⟨_, rfl⟩ | ⟨_, rfl⟩ | ⟨_, rfl⟩ | ⟨_, rfl⟩ | ⟨_, rfl⟩ | ⟨_, rfl⟩ |
    ⟨_, rfl⟩ | ⟨_, rfl⟩
  · exact Laws.OpcodeMap.nop rfl w he
  · exact Laws.OpcodeMap.softReset rfl w he
  · exact Laws.OpcodeMap.txPush _ _ rfl w he
  · exact Laws.OpcodeMap.txBuild rfl w he
  · exact Laws.OpcodeMap.hdrBuild rfl w he
  · exact Laws.OpcodeMap.hdrParse rfl w he
  · exact Laws.OpcodeMap.rxFrame rfl w he
  · exact Laws.OpcodeMap.rxPop _ rfl w he
  · exact Laws.OpcodeMap.cwrepPop rfl w he

/-- A well-formed bus write to CMD carries no command word (R118). -/
theorem decodeCommand_of_wellFormed_wr {v : Word} (h : (Instr.wr cmdAddr v 4).wellFormed = true) :
    ∃ e, decodeCommand v = .error e := by
  cases hv : decodeCommand v with
  | error e => exact ⟨e, rfl⟩
  | ok i => simp [Instr.wellFormed, isCommandWord_of_decodeCommand hv] at h

/-- The write of a command word to CMD decodes to the command (R118). -/
theorem decodeAccess_commandAccess {w : Word} {i : Instr} (h : decodeCommand w = .ok i) :
    decodeAccess (commandAccess w) = i := by
  simp [decodeAccess, commandAccess, h]

/-- Decoding the access of a well-formed instruction gives it back (R110, R118). -/
theorem decodeAccess_encode {i : Instr} (hi : i.wellFormed = true) : decodeAccess (encode i) = i := by
  cases i with
  | nop | softReset | txBuild | hdrBuild | hdrParse | rxFrame | cwrepPop =>
    exact decodeAccess_commandAccess (decodeCommand_of_encode rfl rfl)
  | txPush | rxPop => exact decodeAccess_commandAccess (decodeCommand_of_encode rfl rfl)
  | rd a size => rfl
  | wr a v size =>
    by_cases hcmd : a = cmdAddr ∧ size = 4
    · obtain ⟨rfl, rfl⟩ := hcmd
      obtain ⟨e, he⟩ := decodeCommand_of_wellFormed_wr hi
      simp [encode, decodeAccess, he]
    · simp [encode, decodeAccess, hcmd]

/-- A word of the opcode table that decodes is a command word (R116). -/
theorem decodeCommand_of_decodeTableWord {w : Nat} {i : Instr} (h : decodeTableWord 32 w = some i) :
    decodeCommand (BitVec.ofNat 32 w) = .ok i := by
  unfold decodeTableWord at h
  split_ifs at h
  cases hw : decodeCommand (BitVec.ofNat 32 w) with
  | ok j => simp_all
  | error e => simp [hw] at h

/-! ## The step (R92, R286) -/

/-- A step with an access pending runs the instruction it decodes to, the access taken from the port (R92). -/
theorem step_of_bus {s : State} {a : BusAccess} {rest : List BusAccess} (h : s.bus = a :: rest) :
    step s = exec (decodeAccess a) { s with bus := rest } := by
  rcases step_cases s with ⟨hidle, _⟩ | ⟨_, _, hbus, e⟩
  · cases h.symm.trans hidle
  · cases h.symm.trans hbus; exact e

/-- A step with no access pending changes nothing (R286). -/
theorem step_of_idle {s : State} (h : s.bus = []) : step s = .next s := by
  rcases step_cases s with ⟨_, e⟩ | ⟨_, _, hbus, _⟩
  · exact e
  · cases h.symm.trans hbus

/-- Settles O5: the pending access is the instruction's own, and decoding gives the instruction back. -/
theorem stepRunsTheHostAccess : Obligations.StepRunsTheHostAccess := by
  refine ⟨fun s i rest hi hbus => ?_, fun _ => step_of_idle, fun s w i h => ?_⟩
  · rw [step_of_bus hbus, decodeAccess_encode hi]
  · rw [step_of_bus (withFetchWord_bus s 32 w), decodeAccess_commandAccess (decodeCommand_of_decodeTableWord h)]
    rfl

end Sys2Proof.Machine
end

section
/-!
# The host address space (20_memory.md)

What lies at an address (R81), bad accesses, register writes, words read and stored in the windows, and everything an
instruction can do to the memory.
-/

namespace Sys2Proof.Machine

/-! ## What lies at an address (R81, R82) -/

/-- An address that a register row names is the row's. -/
theorem mem_regMap_of_lookup {a : Nat} {r : Reg} (h : regMap.lookup a = some r) : (a, r) ∈ regMap := by
  obtain ⟨l₁, l₂, hl, _⟩ := List.lookup_eq_some_iff.1 h
  simp [hl]

/-- The registers end below 0x090, and none lies in the hole at 0x064 (R81). -/
theorem regMap_addresses : ∀ row ∈ regMap, row.1 < 0x090 ∧ ¬(0x064 ≤ row.1 ∧ row.1 ≤ 0x06C) := by decide

/-- Every register row at a read-only address is a read-only register (R81). -/
theorem regAccess_of_readOnlyWord : ∀ row ∈ regMap, ReadOnlyWord row.1 → regAccess row.2 = .ro := by
  unfold ReadOnlyWord InHdrOut InPayloadOut; decide

/-- CMD is the register at 0x030 alone (R47, R81). -/
theorem regMap_cmd : ∀ row ∈ regMap, row.2 = .cmd → row.1 = 0x030 := by decide

/-- What lies at a mapped address: a register of its row, or the window around it (R81). -/
theorem place?_cases {a : Nat} {pl : Place} (h : place? a = some pl) :
    (∃ r, pl = .reg r ∧ (a, r) ∈ regMap) ∨ (pl = .hdrOut ∧ InHdrOut a) ∨ (pl = .hdrIn ∧ InHdrIn a) ∨
      (pl = .payloadOut ∧ InPayloadOut a) ∨ (pl = .rxSoft ∧ InRxSoft a) := by
  unfold place? at h
  split at h
  · next r hr => exact .inl ⟨r, (Option.some.inj h).symm, mem_regMap_of_lookup hr⟩
  · unfold InHdrOut InHdrIn InPayloadOut InRxSoft
    split_ifs at h <;> simp_all

/-- No register lies beyond 0x08F or in the hole at 0x064 (R81). -/
theorem lookup_regMap_eq_none {a : Nat} (h : 0x090 ≤ a ∨ (0x064 ≤ a ∧ a ≤ 0x06C)) : regMap.lookup a = none := by
  cases hr : regMap.lookup a with
  | none => rfl
  | some r => have := regMap_addresses _ (mem_regMap_of_lookup hr); omega

theorem place?_hdrOut {a : Nat} (h : InHdrOut a) : place? a = some .hdrOut := by
  obtain ⟨low, high⟩ := h
  rw [place?, lookup_regMap_eq_none (by omega)]
  exact if_pos ⟨low, high⟩

theorem place?_hdrIn {a : Nat} (h : InHdrIn a) : place? a = some .hdrIn := by
  obtain ⟨low, high⟩ := h
  rw [place?, lookup_regMap_eq_none (by omega)]
  simp only [low, high, show ¬a ≤ 0x11F by omega, and_false, and_self, if_true, if_false]

theorem place?_payloadOut {a : Nat} (h : InPayloadOut a) : place? a = some .payloadOut := by
  obtain ⟨low, high⟩ := h
  rw [place?, lookup_regMap_eq_none (by omega)]
  simp only [low, high, show ¬a ≤ 0x11F by omega, show ¬a ≤ 0x2FF by omega, and_false, and_self, if_true, if_false]

theorem place?_rxSoft {a : Nat} (h : InRxSoft a) : place? a = some .rxSoft := by
  obtain ⟨low, high⟩ := h
  rw [place?, lookup_regMap_eq_none (by omega)]
  simp only [low, high, show ¬a ≤ 0x11F by omega, show ¬a ≤ 0x2FF by omega, show ¬a ≤ 0x1FFF by omega, and_false,
    and_self, if_true, if_false]

/-- Nothing lies at an unmapped address (R81, R83). -/
theorem place?_unmapped {a : Nat} (h : UnmappedWord a) : place? a = none := by
  cases hp : place? a with
  | none => rfl
  | some pl =>
    unfold UnmappedWord at h
    rcases place?_cases hp with ⟨r, _, hr⟩ | ⟨_, hw⟩ | ⟨_, hw⟩ | ⟨_, hw⟩ | ⟨_, hw⟩
    · have := regMap_addresses _ hr; omega
    · unfold InHdrOut at hw; omega
    · unfold InHdrIn at hw; omega
    · unfold InPayloadOut at hw; omega
    · unfold InRxSoft at hw; omega

/-- What lies at a read-only address is read-only (R81, R84). -/
theorem placeAccess_of_readOnlyWord {a : Nat} {pl : Place} (hp : place? a = some pl) (h : ReadOnlyWord a) :
    placeAccess pl = .ro := by
  rcases place?_cases hp with ⟨r, rfl, hr⟩ | ⟨rfl, _⟩ | ⟨rfl, hw⟩ | ⟨rfl, _⟩ | ⟨rfl, hw⟩
  · exact regAccess_of_readOnlyWord _ hr h
  · rfl
  · unfold ReadOnlyWord InHdrOut InPayloadOut at h; unfold InHdrIn at hw; omega
  · rfl
  · unfold ReadOnlyWord InHdrOut InPayloadOut at h; unfold InRxSoft at hw; omega

/-- An access reaches a place exactly when it is a word access to the place's aligned address (R82, R83). -/
theorem target?_eq_some_iff {a : BitVec 16} {size : Nat} {pl : Place} :
    target? a size = some pl ↔ (size = 4 ∧ a.toNat % 4 = 0) ∧ place? a.toNat = some pl :=
  Option.ite_none_right_eq_some

/-- A bad access reaches nothing (R82, R83). -/
theorem target?_of_bad {a : BitVec 16} {size : Nat} (h : size ≠ 4 ∨ a.toNat % 4 ≠ 0 ∨ UnmappedWord a.toNat) :
    target? a size = none := by
  cases ht : target? a size with
  | none => rfl
  | some pl =>
    obtain ⟨⟨hsize, haligned⟩, hplace⟩ := target?_eq_some_iff.1 ht
    rcases h with h | h | h
    · exact absurd hsize h
    · exact absurd haligned h
    · cases (place?_unmapped h).symm.trans hplace

/-! ## Bad accesses (R82, R83, R84) -/

/-- Settles O44: a bad access reaches nothing, and what lies at a read-only address is a read-only place. -/
theorem badAccessesRaiseBus : Obligations.BadAccessesRaiseBus := by
  intro s a v size
  refine ⟨fun hbad => ?_, fun hro => ?_, ?_⟩
  · have hnone : target? a size = none := target?_of_bad hbad
    rw [exec, exec, execRd, execWr, hnone]
    exact ⟨congrArg Host.Outcome.next (raise_eq_recorded _ .bus), congrArg Host.Outcome.next (raise_eq_recorded s .bus)⟩
  · rcases execWr_cases a v size s with ⟨_, e⟩ | ⟨pl, hpl, hacc, _⟩
    · exact e.trans (congrArg Host.Outcome.next (raise_eq_recorded s .bus))
    · exact absurd (placeAccess_of_readOnlyWord (target?_eq_some_iff.1 hpl).2 hro) hacc
  · exact exec_rd_reg (r := .cmd) (by decide) s

/-! ## Register writes (R85, R254) -/

/-- Settles O45: each address is its register's, whose write effect stores the fields. -/
theorem registerWritesStoreTheirFields : Obligations.RegisterWritesStoreTheirFields := by
  intro s v
  exact ⟨
    exec_wr_reg (r := .ctrl) (by decide) (by decide) v s,
    exec_wr_reg (r := .echo) (by decide) (by decide) v s,
    exec_wr_reg (r := .maxEmpty) (by decide) (by decide) v s,
    exec_wr_reg (r := .floor) (by decide) (by decide) v s,
    exec_wr_reg (r := .ie) (by decide) (by decide) v s,
    exec_wr_reg (r := .txhLen) (by decide) (by decide) v s,
    exec_wr_reg (r := .txhSeq) (by decide) (by decide) v s,
    exec_wr_reg (r := .txhScheme) (by decide) (by decide) v s,
    exec_wr_reg (r := .txhCw) (by decide) (by decide) v s,
    exec_wr_reg (r := .txhOffsh) (by decide) (by decide) v s⟩

/-! ## Words of the windows (R86, R87) -/

/-- Bit `31 − r` of word `q` of a bit window is its stream bit `32 q + r` (R86). -/
theorem getLsbD_readWord (m : Memory) (base q : Nat) {r : Nat} (hr : r < 32) :
    (readWord m (base + 4 * q)).getLsbD (31 - r) = readBit m base (32 * q + r) := by
  rw [readBit, show (32 * q + r) / 32 = q by omega, show (32 * q + r) % 32 = r by omega]

/-- Lane `r` of a word is the byte `r` places on (R87). -/
theorem extractLsb'_readWord (m : Memory) (a : Nat) {r : Nat} (hr : r < 4) :
    (readWord m a).extractLsb' (8 * r) 8 = readByte m (a + r) := by
  apply BitVec.eq_of_toNat_eq
  simp only [readWord, toNat_extractLsb'_div, toNat_append_add]
  obtain rfl | rfl | rfl | rfl : r = 0 ∨ r = 1 ∨ r = 2 ∨ r = 3 := by omega
  all_goals simp only [Nat.add_zero, Nat.reduceMul, Nat.reducePow]; omega

/-- Lane `r` of word `q` of a sample window is its sample `4 q + r` (R87). -/
theorem extractLsb'_readWord_sample (m : Memory) (base q : Nat) {r : Nat} (hr : r < 4) :
    (readWord m (base + 4 * q)).extractLsb' (8 * r) 8 = readSample m base (4 * q + r) := by
  rw [extractLsb'_readWord m _ hr, readSample, Nat.add_assoc]

/-- A word read in a window answers the word of the memory and changes nothing (R86, R87, R89). -/
theorem exec_rd_window {a : Nat} {pl : Place} (ha : a < 2 ^ 16) (haligned : a % 4 = 0) (hplace : place? a = some pl)
    (hpl : ∀ r, pl ≠ .reg r) (s : State) :
    exec (.rd (BitVec.ofNat 16 a) 4) s = .next { s with rdata := readWord s.mem a } := by
  have hnat : (BitVec.ofNat 16 a).toNat = a := by rw [BitVec.toNat_ofNat, Nat.mod_eq_of_lt ha]
  have htarget : target? (BitVec.ofNat 16 a) 4 = some pl :=
    target?_eq_some_iff.2 ⟨⟨rfl, by rw [hnat, haligned]⟩, by rw [hnat, hplace]⟩
  have hvalue : readValue s pl (BitVec.ofNat 16 a) = readWord s.mem a := by
    cases pl with
    | reg r => exact absurd rfl (hpl r)
    | hdrOut | hdrIn | payloadOut | rxSoft => rw [readValue, hnat]
  rw [exec, execRd, htarget]
  simp only [hvalue]

/-- Settles O42: a window word is read as the word of the memory, whose bits and lanes are the window's. -/
theorem windowReadsReturnBitsAndSamples : Obligations.WindowReadsReturnBitsAndSamples := by
  intro s
  refine ⟨fun q hq => ⟨_, ?_, fun r hr => getLsbD_readWord _ _ _ hr⟩,
    fun q hq => ⟨_, ?_, fun r hr => getLsbD_readWord _ _ _ hr⟩,
    fun q hq => ⟨_, ?_, fun r hr => extractLsb'_readWord_sample _ _ _ hr⟩,
    fun q hq => ⟨_, ?_, fun r hr => extractLsb'_readWord_sample _ _ _ hr⟩⟩
  · exact exec_rd_window (by omega) (by omega) (place?_hdrOut ⟨by omega, by omega⟩) (by simp) s
  · exact exec_rd_window (by omega) (by omega) (place?_payloadOut ⟨by omega, by omega⟩) (by simp) s
  · exact exec_rd_window (by omega) (by omega) (place?_hdrIn ⟨by omega, by omega⟩) (by simp) s
  · exact exec_rd_window (by omega) (by omega) (place?_rxSoft ⟨by omega, by omega⟩) (by simp) s

/-- The bytes of a stored word are its lanes, the lowest first (R87, R254). -/
theorem readByte_writeWord_lane {m : Memory} (hm : Memory.wf m) (a : Nat) (v : Word) {r : Nat} (hr : r < 4) :
    readByte (writeWord m a v) (a + r) = v.extractLsb' (8 * r) 8 := by
  rw [← extractLsb'_readWord _ _ hr, readWord_writeWord hm]

/-- A word store keeps the bytes outside its four (R254). -/
theorem sameBytes_writeWord {m : Memory} (hm : Memory.wf m) (a : Nat) (v : Word) :
    SameBytes (fun x => x < a ∨ a + 4 ≤ x) m (writeWord m a v) := by
  intro x hx
  rw [readByte_writeWord hm, if_neg (by omega), if_neg (by omega), if_neg (by omega), if_neg (by omega)]

/-- A word write in a sample window stores the word there (R253, R254). -/
theorem exec_wr_sampleWindow {a : BitVec 16} (h : InHdrIn a.toNat ∨ InRxSoft a.toNat) (haligned : a.toNat % 4 = 0)
    (v : Word) (s : State) : exec (.wr a v 4) s = .next { s with mem := writeWord s.mem a.toNat v } := by
  have htarget {pl : Place} (hpl : place? a.toNat = some pl) : target? a 4 = some pl :=
    target?_eq_some_iff.2 ⟨⟨rfl, haligned⟩, hpl⟩
  rcases h with h | h
  · rw [exec, execWr, htarget (place?_hdrIn h)]; rfl
  · rw [exec, execWr, htarget (place?_rxSoft h)]; rfl

/-- Settles O43: the write is a word store, which keeps every byte but its four lanes. -/
theorem sampleWindowWritesStoreFourSamples : Obligations.SampleWindowWritesStoreFourSamples := by
  intro s a v hm hwindow haligned
  exact ⟨writeWord s.mem a.toNat v, exec_wr_sampleWindow hwindow haligned v s,
    fun _ hr => readByte_writeWord_lane hm a.toNat v hr, sameBytes_writeWord hm a.toNat v⟩

/-! ## Everything an instruction can do to the memory (R97) -/

/-- The effects an instruction other than SOFT_RESET can have on the memory `m`: none, a header in HDR_OUT, a header and
a payload in the output windows, or a word the host stores in a sample window. -/
inductive MemEffect (i : Instr) (m : Memory) : Memory → Prop
  | kept : MemEffect i m m
  | header (h : Bits) (hi : i = .hdrBuild) : MemEffect i m (writeHdrOut m h)
  | frame (h x : Bits) (hi : i = .txBuild) :
      MemEffect i m (writeBits (writeHdrOut m h) payloadOutBase Config.pmaxBits x)
  | store (a : BitVec 16) (v : Word) (hi : i = .wr a v 4) (haligned : a.toNat % 4 = 0)
      (hwindow : InHdrIn a.toNat ∨ InRxSoft a.toNat) : MemEffect i m (writeWord m a.toNat v)

/-- An outcome that keeps the memory. -/
theorem memEffect_of_kept {i : Instr} {s : State} {o : Host.Outcome State Fault Refusal}
    (h : Answers (·.mem = s.mem) o) : Answers (fun t => MemEffect i s.mem t.mem) o :=
  h.mono fun _ ht => ht ▸ .kept

/-- A write to a register other than CMD keeps the memory (R254). -/
theorem writeReg_mem {r : Reg} (hr : r ≠ .cmd) (v : Word) (s : State) : Answers (·.mem = s.mem) (writeReg r v s) := by
  cases r
  case cmd => exact absurd rfl hr
  case mcs => rw [writeReg]; split <;> exact answers_next.2 rfl
  case flen => rw [writeReg]; split <;> exact answers_next.2 rfl
  all_goals exact answers_next.2 rfl

/-- A well-formed bus write keeps the memory or stores a word in a sample window: none of them is a command (R118). -/
theorem execWr_memEffect {a : BitVec 16} {v : Word} {size : Nat} (hi : (Instr.wr a v size).wellFormed = true)
    (s : State) : Answers (fun t => MemEffect (.wr a v size) s.mem t.mem) (execWr a v size s) := by
  rcases execWr_cases a v size s with ⟨_, e⟩ | ⟨pl, hpl, hacc, e⟩ <;> rw [e]
  · exact answers_next.2 .kept
  · obtain ⟨⟨rfl, haligned⟩, hplace⟩ := target?_eq_some_iff.1 hpl
    rcases place?_cases hplace with ⟨r, rfl, hr⟩ | ⟨rfl, _⟩ | ⟨rfl, hw⟩ | ⟨rfl, _⟩ | ⟨rfl, hw⟩
    · by_cases hcmd : r = .cmd
      · subst hcmd
        have ha : a = cmdAddr := BitVec.eq_of_toNat_eq (regMap_cmd _ hr rfl)
        subst ha
        obtain ⟨err, herr⟩ := decodeCommand_of_wellFormed_wr hi
        rw [writePlace, writeReg, dispatchCommand_error herr]
        exact answers_next.2 .kept
      · exact memEffect_of_kept (writeReg_mem hcmd v s)
    · exact absurd rfl hacc
    · exact answers_next.2 (.store a v rfl haligned (.inl hw))
    · exact absurd rfl hacc
    · exact answers_next.2 (.store a v rfl haligned (.inr hw))

/-- Committing a deframing keeps the memory (R217). -/
theorem commitFrame_mem (s : State) (a : RxAcc) : (commitFrame s a).mem = s.mem := by
  rcases commitFrame_cases s a with ⟨_, e⟩ | ⟨_, e⟩ <;> simp [e]

/-- Every well-formed instruction but SOFT_RESET has one of these effects on the memory. -/
theorem exec_memEffect {i : Instr} (hi : i.wellFormed = true) (hreset : i ≠ .softReset) (s : State) :
    Answers (fun t => MemEffect i s.mem t.mem) (exec i s) := by
  cases i with
  | nop => exact answers_next.2 .kept
  | softReset => exact absurd rfl hreset
  | txPush data cnt =>
    rcases execTxPush_cases data cnt s with ⟨_, e⟩ | ⟨_, _, e⟩ | ⟨_, _, _, e⟩ | ⟨_, _, _, e⟩ <;> rw [exec, e] <;>
      exact answers_next.2 .kept
  | txBuild =>
    rcases execTxBuild_cases s with ⟨_, e⟩ | ⟨_, _, e⟩ | ⟨_, _, _, _, _, e⟩ <;> rw [exec, e]
    · exact answers_next.2 .kept
    · exact answers_fault _ _
    · exact answers_next.2 (.frame _ _ rfl)
  | hdrBuild =>
    rcases execHdrBuild_cases s with ⟨_, e⟩ | ⟨_, e⟩ <;> rw [exec, e]
    · exact answers_next.2 (.header _ rfl)
    · exact answers_next.2 .kept
  | hdrParse => rcases execHdrParse_cases s with ⟨_, e⟩ | ⟨_, _, e⟩ <;> rw [exec, e] <;> exact answers_next.2 .kept
  | rxFrame =>
    rcases execRxFrame_cases s with ⟨_, e⟩ | ⟨_, _, e⟩ | ⟨_, _, _, e⟩ | ⟨_, _, _, _, _, e⟩ <;> rw [exec, e]
    · exact answers_next.2 .kept
    · exact answers_next.2 .kept
    · exact answers_next.2 .kept
    · exact memEffect_of_kept (answers_next.2 (commitFrame_mem s _))
  | rxPop cnt =>
    rcases execRxPop_cases cnt s with ⟨_, e⟩ | ⟨_, _, e⟩ | ⟨_, _, e⟩ <;> rw [exec, e] <;> exact answers_next.2 .kept
  | cwrepPop =>
    rcases execCwrepPop_cases s with ⟨_, e⟩ | ⟨_, _, e⟩ | ⟨_, _, _, _, e⟩ <;> rw [exec, e] <;>
      exact answers_next.2 .kept
  | rd a size => rcases execRd_cases a size s with ⟨_, e⟩ | ⟨_, _, e⟩ <;> rw [exec, e] <;> exact answers_next.2 .kept
  | wr a v size => exact execWr_memEffect hi s

/-- Writing a header keeps every byte outside HDR_OUT (R151). -/
theorem readByte_writeHdrOut {x : Nat} (hx : ¬InHdrOut x) (m : Memory) (h : Bits) :
    readByte (writeHdrOut m h) x = readByte m x := by
  refine readByte_writeBits_outside fun hin => hx ?_
  unfold InHdrOut
  simp only [hdrOutBase, Config.hbMax] at hin
  omega

/-- Writing a payload keeps every byte outside PAYLOAD_OUT (R182). -/
theorem readByte_writePayloadOut {x : Nat} (hx : ¬InPayloadOut x) (m : Memory) (y : Bits) :
    readByte (writeBits m payloadOutBase Config.pmaxBits y) x = readByte m x := by
  refine readByte_writeBits_outside fun hin => hx ?_
  unfold InPayloadOut
  simp only [payloadOutBase, Config.pmaxBits] at hin
  omega

/-- A window, given by the place of its addresses, keeps its bytes under an effect whose writers reach other places. -/
theorem MemEffect.sameBytes {i : Instr} {m n : Memory} (h : MemEffect i m n) (hm : Memory.wf m) {P : Nat → Prop}
    {pl : Place} (hP : ∀ x, P x → place? x = some pl) (hheader : i = .hdrBuild ∨ i = .txBuild → pl ≠ .hdrOut)
    (hpayload : i = .txBuild → pl ≠ .payloadOut)
    (hstore : ∀ a v, i = .wr a v 4 → (InHdrIn a.toNat → pl ≠ .hdrIn) ∧ (InRxSoft a.toNat → pl ≠ .rxSoft)) :
    SameBytes P m n := by
  intro x hx
  have other {Q : Nat → Prop} {pl' : Place} (hQ : ∀ y, Q y → place? y = some pl') (hne : pl ≠ pl') : ¬Q x :=
    fun hq => hne (Option.some.inj ((hP x hx).symm.trans (hQ x hq)))
  have header (hi : i = .hdrBuild ∨ i = .txBuild) : ¬InHdrOut x := other (fun _ => place?_hdrOut) (hheader hi)
  cases h with
  | kept => rfl
  | header h hi => exact readByte_writeHdrOut (header (.inl hi)) m h
  | frame h y hi =>
    have payload : ¬InPayloadOut x := other (fun _ => place?_payloadOut) (hpayload hi)
    rw [readByte_writePayloadOut payload, readByte_writeHdrOut (header (.inr hi))]
  | store a v hi haligned hwindow =>
    obtain ⟨hin, hsoft⟩ := hstore a v hi
    refine sameBytes_writeWord hm a.toNat v x ?_
    rcases hwindow with hw | hw
    · have := other (fun _ => place?_hdrIn) (hin hw)
      unfold InHdrIn at hw this; omega
    · have := other (fun _ => place?_rxSoft) (hsoft hw)
      unfold InRxSoft at hw this; omega

/-- Settles O50: every effect on the memory is a writer's, and reaches no window but the writer's. -/
theorem windowsChangeOnlyByTheirWriters : Obligations.WindowsChangeOnlyByTheirWriters := by
  intro i s t hinv hi ht hreset
  have effect : MemEffect i s.mem t.mem := exec_memEffect hi hreset s t ht
  refine ⟨fun hhdr htx => ?_, fun htx => ?_, fun hwr => ?_, fun hwr => ?_⟩
  · exact effect.sameBytes hinv.memory (fun _ => place?_hdrOut) (fun h => absurd h (not_or.2 ⟨hhdr, htx⟩)) nofun
      fun _ _ _ => ⟨nofun, nofun⟩
  · exact effect.sameBytes hinv.memory (fun _ => place?_payloadOut) nofun (fun h => absurd h htx)
      fun _ _ _ => ⟨nofun, nofun⟩
  · exact effect.sameBytes hinv.memory (fun _ => place?_hdrIn) nofun nofun
      fun a v h => ⟨fun hin => absurd hin (hwr a v h), nofun⟩
  · exact effect.sameBytes hinv.memory (fun _ => place?_rxSoft) nofun nofun
      fun a v h => ⟨nofun, fun hin => absurd hin (hwr a v h)⟩

end Sys2Proof.Machine
end

section
/-!
# Every word is one command or illegal (R110 to R118, R256)

The rows of the opcode map against the decoder, a command and the write of its word to CMD, and which commands a no-FEC
link refuses.
-/

namespace Sys2Proof.Machine

/-! ## A row of the opcode map (R113, R114) -/

/-- The fields under a row's mask are the row's own in every word that lies in it. -/
theorem extractLsb'_of_has {r : OpRow} {w : Word} (h : r.has w = true) (start : Nat) {len : Nat}
    (hmask : r.mask.extractLsb' start len = BitVec.allOnes len) :
    w.extractLsb' start len = r.pattern.extractLsb' start len := by
  have hw : w &&& r.mask = r.pattern := by simpa [OpRow.has] using h
  rw [← hw, BitVec.extractLsb'_and, hmask, BitVec.and_allOnes]

/-- The rows' opcodes are pairwise different. -/
theorem nodup_opcodes : (opcodeMap.map fun r => opField r.pattern).Nodup := by decide

/-- Every row fixes the opcode. -/
theorem opField_mask : ∀ r ∈ opcodeMap, opField r.mask = BitVec.allOnes 8 := by decide

/-- No word lies in two rows: they would have its opcode both. -/
theorem length_filter_has_le_one (w : Word) : (opcodeMap.filter (·.has w)).length ≤ 1 := by
  have nodup : ((opcodeMap.filter (·.has w)).map fun r => opField r.pattern).Nodup :=
    nodup_opcodes.sublist (List.filter_sublist.map _)
  have opcode : ∀ op ∈ (opcodeMap.filter (·.has w)).map (fun r => opField r.pattern), op = opField w := by
    simp only [List.forall_mem_map, List.mem_filter]
    exact fun r ⟨hr, hw⟩ => (extractLsb'_of_has hw 0 (opField_mask r hr)).symm
  rw [List.eq_replicate_of_mem opcode, List.nodup_replicate, List.length_map] at nodup
  exact nodup

/-- A command word lies in exactly one row (R114). -/
theorem length_filter_has_eq_one {w : Word} (h : isCommandWord w = true) :
    (opcodeMap.filter (·.has w)).length = 1 := by
  have row : 0 < (opcodeMap.filter (·.has w)).length := by
    simpa [List.length_pos_iff_exists_mem, isCommandWord] using h
  have := length_filter_has_le_one w
  omega

/-- A word that lies in a row decodes to the row's command: each row masks what its command's decoding checks. -/
theorem exists_decodeCommand_of_has {w : Word} : ∀ r ∈ opcodeMap, r.has w = true → ∃ i, decodeCommand w = .ok i := by
  have whole {p : Word} (h : OpRow.has ⟨0xFFFFFFFF, p⟩ w = true) : w = p := by
    simpa using extractLsb'_of_has h 0 (len := 32) rfl
  simp only [opcodeMap, List.forall_mem_cons]
  refine ⟨fun h => ⟨.nop, whole h ▸ rfl⟩, fun h => ⟨.softReset, whole h ▸ rfl⟩, fun h => ?txPush,
    fun h => ⟨.txBuild, whole h ▸ rfl⟩, fun h => ⟨.hdrBuild, whole h ▸ rfl⟩, fun h => ⟨.hdrParse, whole h ▸ rfl⟩,
    fun h => ⟨.rxFrame, whole h ▸ rfl⟩, fun h => ?rxPop, fun h => ⟨.cwrepPop, whole h ▸ rfl⟩, nofun⟩
  case txPush =>
    have hop : opField w = 0x10 := extractLsb'_of_has h 0 rfl
    have hw := eq_fieldsWord (extractLsb'_of_has h 20 rfl)
    rw [hop] at hw
    exact ⟨_, (congrArg decodeCommand hw).trans (decodeCommand_txPush (dataField w) (cntField w))⟩
  case rxPop =>
    have hop : opField w = 0x31 := extractLsb'_of_has h 0 rfl
    have hdata : dataField w = 0 := extractLsb'_of_has h 8 rfl
    have hw := eq_fieldsWord (extractLsb'_of_has h 20 rfl)
    rw [hop, hdata] at hw
    exact ⟨_, (congrArg decodeCommand hw).trans (decodeCommand_rxPop (cntField w))⟩

/-- A word that decodes to no command lies in no row (R114). -/
theorem has_eq_false_of_decodeCommand_error {w : Word} {e : DecodeError} (h : decodeCommand w = .error e) :
    ∀ r ∈ opcodeMap, r.has w = false := by
  intro r hr
  by_contra hw
  obtain ⟨i, hi⟩ := exists_decodeCommand_of_has r hr (Bool.eq_true_of_not_eq_false hw)
  cases h.symm.trans hi

/-! ## Accesses and instructions are in one-to-one correspondence (R110, R113, R114, R118) -/

/-- Settles O1: a command's word decodes to the command, and a well-formed bus access is no command's. -/
theorem decodeOfEncode : Obligations.DecodeOfEncode := fun _ hi => decodeAccess_encode hi

/-- What a command word decodes to is well-formed: it is no bus write. -/
theorem wellFormed_of_decodeCommand {w : Word} {i : Instr} (h : decodeCommand w = .ok i) : i.wellFormed = true := by
  cases i with
  | wr a v size => exact absurd rfl ((decodeCommand_ne_bus h).2 a v size)
  | _ => rfl

/-- The bus write of a word that is no command is well-formed, wherever it goes. -/
theorem wellFormed_wr_of_decodeCommand_error {w : Word} {e : DecodeError} (h : decodeCommand w = .error e)
    (a : BitVec 16) (size : Nat) : (Instr.wr a w size).wellFormed = true := by
  have hw : isCommandWord w = false := by simpa [isCommandWord] using has_eq_false_of_decodeCommand_error h
  simp [Instr.wellFormed, hw]

/-- Settles O2: a read, a command word or another word written to CMD, and a write anywhere else. -/
theorem encodeOfDecode : Obligations.EncodeOfDecode := by
  rintro ⟨a, size, _ | v⟩
  · exact ⟨rfl, rfl⟩
  · by_cases hcmd : a = cmdAddr ∧ size = 4
    · obtain ⟨rfl, rfl⟩ := hcmd
      cases hv : decodeCommand v with
      | ok i =>
        rw [show decodeAccess ⟨cmdAddr, 4, some v⟩ = i from decodeAccess_commandAccess hv]
        exact ⟨wellFormed_of_decodeCommand hv, encode_of_decodeCommand hv⟩
      | error e =>
        have hwr : decodeAccess ⟨cmdAddr, 4, some v⟩ = .wr cmdAddr v 4 := by simp [decodeAccess, hv]
        rw [hwr]
        exact ⟨wellFormed_wr_of_decodeCommand_error hv cmdAddr 4, rfl⟩
    · have hwr : decodeAccess ⟨a, size, some v⟩ = .wr a v size := if_neg hcmd
      rw [hwr]
      refine ⟨?_, rfl⟩
      simp only [Instr.wellFormed, Bool.not_eq_true', Bool.and_eq_false_iff, beq_eq_false_iff_ne]
      exact .inl (not_and_or.1 hcmd)

/-! ## A word written to CMD (R114, R118, R256) -/

/-- Writing a word to CMD dispatches it (R256). -/
theorem exec_wr_cmd (w : Word) (s : State) : exec (.wr 0x030 w 4) s = dispatchCommand w s :=
  exec_wr_reg (show target? 0x030 4 = some (.reg .cmd) by decide) (by decide) w s

/-- Settles O3: the decoder accepts exactly the words of the opcode map, whose rows exclude each other. -/
theorem everyWordIsOneCommandOrIllegal : Obligations.EveryWordIsOneCommandOrIllegal := by
  intro w s
  cases h : decodeCommand w with
  | ok i => exact .inl ⟨⟨i, rfl⟩, length_filter_has_eq_one (isCommandWord_of_decodeCommand h)⟩
  | error e =>
    refine .inr ⟨⟨e, rfl⟩, has_eq_false_of_decodeCommand_error h, ?_⟩
    rw [exec_wr_cmd, dispatchCommand_error h, raise_eq_recorded, causeCode]

/-- Settles O6: the write dispatches the word, and dispatching runs the command it decodes to. -/
theorem commandIsItsWriteToCmd : Obligations.CommandIsItsWriteToCmd := by
  intro w i s h
  rw [exec_wr_cmd, dispatchCommand_ok h]

/-- A command is one 32-bit word: no other length decodes (R116). -/
theorem decodeTableWord_of_ne {nbits : Nat} (h : nbits ≠ 32) (w : Nat) : decodeTableWord nbits w = none :=
  if_neg fun hw => h hw.1

/-- Settles O4: thirteen words evaluated, and the length check of the decoder. -/
theorem specWordsDecode : Obligations.SpecWordsDecode := by
  refine ⟨?_, ?_, ?_, ?_, ?_, ?_, ?_, ?_, ?_, ?_, ?_, ?_, ?_, fun nbits w h => decodeTableWord_of_ne h w⟩ <;> decide

/-! ## The link kind (R117) -/

/-- Recording a cause leaves the bit of every other cause (R272). -/
theorem getLsbD_raise_err {c : Cause} {n : Nat} (h : n ≠ causeCode c) (s : State) :
    (raise c s).err.getLsbD n = s.err.getLsbD n := by
  simp [raise_eq_recorded, BitVec.getLsbD_twoPow, h.symm]

/-- Settles O16: the five FEC commands check the link kind first; of the other four, only HDR_BUILD and HDR_PARSE
record a cause, and each another one. -/
theorem fecCommandsNeedAnFecLink : Obligations.FecCommandsNeedAnFecLink := by
  refine ⟨fun s hnofec => ?_, fun s i hi => ?_⟩
  · have refused : raise .cmdUnsupported s = recorded 2 s := raise_eq_recorded s .cmdUnsupported
    rw [← refused]
    exact ⟨fun data cnt => ((execTxPush_cases data cnt s).resolve_right (by simp [hnofec])).2,
      ((execTxBuild_cases s).resolve_right (by simp [hnofec])).2,
      ((execRxFrame_cases s).resolve_right (by simp [hnofec])).2,
      fun cnt => ((execRxPop_cases cnt s).resolve_right (by simp [hnofec])).2,
      ((execCwrepPop_cases s).resolve_right (by simp [hnofec])).2⟩
  · simp only [List.mem_cons, List.not_mem_nil, or_false] at hi
    rcases hi with rfl | rfl | rfl | rfl
    · exact ⟨s, rfl, id⟩
    · exact ⟨_, rfl, fun h => absurd h (by simp [State.resetWith])⟩
    · rcases execHdrBuild_cases s with ⟨_, e⟩ | ⟨_, e⟩
      · exact ⟨_, e, id⟩
      · exact ⟨_, e, fun h => (getLsbD_raise_err (by decide) _).symm.trans h⟩
    · rcases execHdrParse_cases s with ⟨_, e⟩ | ⟨_, _, e⟩
      · exact ⟨_, e, fun h => (getLsbD_raise_err (by decide) { s with hdrValid := false }).symm.trans h⟩
      · exact ⟨_, e, id⟩

end Sys2Proof.Machine
end

section
/-!
# The header codec (40_header_codec.md)

The scrambler, the CRC and the layout, each with the rules that later proofs cite; the header parser said once as its
CRC check and the fields it reads; HDR_BUILD and HDR_PARSE in full, the round trip, and the error bursts that the CRC
catches.
-/

namespace Sys2Proof.Machine

/-! ## The scrambler (R146) -/

/-- The sequence that the scrambler adds depends on the seed alone, so adding it twice undoes it. -/
theorem scramble_scramble (r : BitVec 7) (s : Bits) : scramble r (scramble r s) = s := by
  induction s generalizing r with
  | nil => rfl
  | cons b s ih => simp [scramble, ih]

/-- With its register at 0 the scrambler stays there and adds nothing. -/
theorem scramble_zero (s : Bits) : scramble 0 s = s := by
  induction s with
  | nil => rfl
  | cons b s ih =>
    have stays : scramble 0 (b :: s) = b :: scramble 0 s := by simp [scramble]
    rw [stays, ih]

/-- Settles O30: by induction over the string, at every register for the first half. -/
theorem scramblerUndoesItself : Obligations.ScramblerUndoesItself := ⟨scramble_scramble, scramble_zero⟩

/-- The scrambler adds to the bit at each place one bit of its sequence, whatever the string. -/
theorem exists_getElem?_scramble (r : BitVec 7) (i : Nat) :
    ∃ k, ∀ s : Bits, (scramble r s)[i]? = s[i]?.map (· ^^ k) := by
  induction i generalizing r with
  | zero =>
    refine ⟨r.getLsbD 6 ^^ r.getLsbD 3, fun s => ?_⟩
    cases s with
    | nil => rfl
    | cons b s => rfl
  | succ i ih =>
    obtain ⟨k, hk⟩ := ih ((r <<< 1) ||| (BitVec.ofBool (r.getLsbD 6 ^^ r.getLsbD 3)).setWidth 7)
    refine ⟨k, fun s => ?_⟩
    cases s with
    | nil => rfl
    | cons b s => exact hk s

/-- Strings with the same bit at a place have the same scrambled bit there. -/
theorem getElem?_scramble_congr {s t : Bits} {i : Nat} (h : s[i]? = t[i]?) (r : BitVec 7) :
    (scramble r s)[i]? = (scramble r t)[i]? := by
  obtain ⟨k, hk⟩ := exists_getElem?_scramble r i
  rw [hk, hk, h]

/-! ## The CRC register (R144) -/

/-- Bit `i` of the register after one bit: the register shifted, and the generator where the feedback is 1. -/
theorem getLsbD_crcStep (r : BitVec 8) (b : Bool) (i : Nat) :
    (crcStep r b).getLsbD i = ((r <<< 1).getLsbD i ^^ ((r.getLsbD 7 ^^ b) && (0x07#8).getLsbD i)) := by
  unfold crcStep
  split <;> simp_all

/-- Registers that agree in their low `m + 1` bits after a step had the same feedback, and agreed in their low `m` bits
before it: bit 0 is the feedback, and the bits above it are the shifted register. -/
theorem crcStep_agree {a b : BitVec 8} {x y : Bool} {m : Nat} (hm : m ≤ 7)
    (h : ∀ i < m + 1, (crcStep a x).getLsbD i = (crcStep b y).getLsbD i) :
    (a.getLsbD 7 ^^ x) = (b.getLsbD 7 ^^ y) ∧ ∀ i < m, a.getLsbD i = b.getLsbD i := by
  have feedback : (a.getLsbD 7 ^^ x) = (b.getLsbD 7 ^^ y) := by
    have low := h 0 (by omega)
    rw [getLsbD_crcStep, getLsbD_crcStep] at low
    simpa using low
  refine ⟨feedback, fun i hi => ?_⟩
  have shifted := h (i + 1) (by omega)
  rw [getLsbD_crcStep, getLsbD_crcStep, feedback] at shifted
  simpa [-BitVec.getLsbD_eq_getElem, BitVec.getLsbD_shiftLeft, show i + 1 < 8 by omega] using shifted

/-- A step is injective in the register. -/
theorem crcStep_injective {a b : BitVec 8} {x : Bool} (h : crcStep a x = crcStep b x) : a = b := by
  obtain ⟨feedback, low⟩ := crcStep_agree (m := 7) le_rfl fun i _ => congrArg (·.getLsbD i) h
  refine BitVec.eq_of_getLsbD_eq fun i hi => ?_
  obtain rfl | hi : i = 7 ∨ i < 7 := by omega
  · simpa using feedback
  · exact low i hi

/-- A run over one string is injective in the register. -/
theorem foldl_crcStep_injective {s : Bits} {a b : BitVec 8} (h : s.foldl crcStep a = s.foldl crcStep b) : a = b := by
  induction s generalizing a b with
  | nil => exact h
  | cons x s ih => exact crcStep_injective (ih h)

/-- Runs over `n ≤ 8` bits that end in one register began in registers that agree in their low `8 − n` bits. -/
theorem foldl_crcStep_agree {s t : Bits} (hlen : s.length = t.length) (h8 : s.length ≤ 8) {a b : BitVec 8}
    (h : s.foldl crcStep a = t.foldl crcStep b) : ∀ i < 8 - s.length, a.getLsbD i = b.getLsbD i := by
  induction s generalizing t a b with
  | nil =>
    cases t with
    | nil => exact fun i _ => congrArg (·.getLsbD i) h
    | cons y t => cases hlen
  | cons x s ih =>
    cases t with
    | nil => cases hlen
    | cons y t =>
      simp only [List.length_cons] at hlen h8 ⊢
      have after := ih (t := t) (by omega) (by omega) h
      exact (crcStep_agree (m := 8 - (s.length + 1)) (by omega) fun i hi => after i (by omega)).2

/-- From one register, two strings of the same length of at most 8 bits end in the same register only if they are
equal: the first bit in which they differ moves the low bit of the register, and fewer than 8 bits cannot undo that. -/
theorem eq_of_foldl_crcStep_eq {s t : Bits} (hlen : s.length = t.length) (h8 : s.length ≤ 8) {a : BitVec 8}
    (h : s.foldl crcStep a = t.foldl crcStep a) : s = t := by
  induction s generalizing t a with
  | nil => exact (List.length_eq_zero_iff.1 hlen.symm).symm
  | cons x s ih =>
    cases t with
    | nil => cases hlen
    | cons y t =>
      simp only [List.length_cons] at hlen h8
      have after := foldl_crcStep_agree (s := s) (t := t) (by omega) (by omega) h
      have hxy : x = y := by
        simpa using (crcStep_agree (m := 0) (by omega) fun i hi => after i (by omega)).1
      subst hxy
      rw [ih (by omega) (by omega) h]

/-- Strings that differ inside eight successive places only, and have one CRC, are equal (R154). -/
theorem eq_of_crc8_eq {s t : Bits} {j : Nat} (hlen : s.length = t.length)
    (hout : ∀ i, i < j ∨ j + 8 ≤ i → s[i]? = t[i]?) (hcrc : crc8 s = crc8 t) : s = t := by
  have split (u : Bits) : u = u.take j ++ ((u.drop j).take 8 ++ u.drop (j + 8)) := by
    rw [← List.drop_drop, List.take_append_drop, List.take_append_drop]
  have before : s.take j = t.take j := by
    refine List.ext_getElem? fun i => ?_
    by_cases hi : i < j
    · rw [List.getElem?_take_of_lt hi, List.getElem?_take_of_lt hi, hout i (.inl hi)]
    · rw [List.getElem?_eq_none (by simp; omega), List.getElem?_eq_none (by simp; omega)]
  have behind : s.drop (j + 8) = t.drop (j + 8) := by
    refine List.ext_getElem? fun i => ?_
    rw [List.getElem?_drop, List.getElem?_drop, hout _ (.inr (by omega))]
  have burst : (s.drop j).take 8 = (t.drop j).take 8 := by
    rw [crc8, crc8, split s, split t, before, behind, List.foldl_append, List.foldl_append, List.foldl_append,
      List.foldl_append] at hcrc
    exact eq_of_foldl_crcStep_eq (by simp [hlen]) (by simp) (foldl_crcStep_injective hcrc)
  rw [split s, split t, before, behind, burst]

/-- `bin_W` most significant bit first (R12). -/
theorem bin_succ (w v : Nat) : bin (w + 1) v = v.testBit w :: bin w v := by
  simp only [bin, List.range_succ_eq_map, List.map_cons, List.map_map]
  congr 1
  refine List.map_congr_left fun i _ => ?_
  simp only [Function.comp_apply]
  congr 1
  omega

/-- Each bit that the register meets at its top is undone by that bit, and only the shift is left. -/
theorem crcStep_top (r : BitVec 8) : crcStep r (r.getLsbD 7) = r <<< 1 := by
  simp [crcStep]

/-- A register that has shifted out all but its low `k` bits is 0 after a run over those. -/
theorem foldl_crcStep_bin (r : BitVec 8) {k : Nat} (hk : k ≤ 8) :
    (bin k r.toNat).foldl crcStep (r <<< (8 - k)) = 0 := by
  induction k with
  | zero => simp [bin]
  | succ k ih =>
    have top : r.toNat.testBit k = (r <<< (8 - (k + 1))).getLsbD 7 := by
      rw [BitVec.getLsbD_shiftLeft, BitVec.testBit_toNat, show 7 - (8 - (k + 1)) = k by omega,
        decide_eq_false (show ¬7 < 8 - (k + 1) by omega)]
      rfl
    rw [bin_succ, List.foldl_cons, top, crcStep_top, ← BitVec.shiftLeft_add, show 8 - (k + 1) + 1 = 8 - k by omega]
    exact ih (by omega)

/-- A string followed by its own CRC has CRC 0 (R145). -/
theorem crc8_append_crc8 (s : Bits) : crc8 (s ++ bin 8 (crc8 s).toNat) = 0 := by
  have run := foldl_crcStep_bin (crc8 s) le_rfl
  rw [Nat.sub_self, BitVec.shiftLeft_zero] at run
  rw [crc8, List.foldl_append]
  exact run

/-! ## The layout (R141, R148, R151) -/

/-- Settles O24: the body lists the fields of the link's layout, and its length is fixed by the header length. -/
theorem headerFollowsTheLayout : Obligations.HeaderFollowsTheLayout := by
  intro p f
  refine ⟨headerBody p f, headerLen p - 8 - layoutWidth p, ?_, fun hp => ?_, fun seed => rfl⟩
  · rw [headerBody, length_layoutBits]
    cases hf : p.fecEn <;> simp [layout, hf, Header.get, Config.wMod, Config.wCrc, zeros]
  · have hfits := (paramsWf_good hp).layoutFits
    rw [length_headerBody hp, Nat.sub_add_cancel (by omega)]
    rfl

/-- Every field fits exactly when the fields of a variable width do: MOD, FEC, EMOD and EFEC fill theirs (R151). -/
theorem headerFits_iff {p : Params} {f : Header} :
    headerFits p f = true ↔
      f.plen.toNat < 2 ^ p.wPlen ∧ f.seq.toNat < 2 ^ p.wSeq ∧ f.flen.toNat < 2 ^ p.wFlen ∧
        (p.fecEn = true → f.cwid.toNat < 2 ^ p.wCwid ∧ f.off.toNat < 2 ^ p.wOff ∧ f.short.toNat < 2 ^ p.wShort) := by
  have four (x : BitVec 4) : x.toNat < 2 ^ Config.wMod := x.isLt
  cases hf : p.fecEn <;>
    simp only [headerFits, layout, hf, if_true, if_false, Bool.false_eq_true, List.all_append, List.all_cons,
      List.all_nil, Bool.and_eq_true, decide_eq_true_eq] <;>
    simp [Header.get, four, and_assoc]

/-- The bits of a header in HDR_OUT after it is written (R151). -/
theorem readBit_writeHdrOut_headerBits {p : Params} (hp : paramsWf p = true) (seed : BitVec 7) (f : Header) (m : Memory)
    {j : Nat} (hj : j < headerLen p) :
    some (readBit (writeHdrOut m (headerBits p seed f)) hdrOutBase j) = (headerBits p seed f)[j]? := by
  have hmax := (paramsWf_good hp).hbMax
  rw [readBit_writeHdrOut _ _ (by omega), List.getD_eq_getElem?_getD,
    List.getElem?_eq_getElem (by rw [length_headerBits hp]; exact hj)]
  rfl

/-- HDR_OUT is 0 beyond a header that is written there (R151, R182). -/
theorem readBit_writeHdrOut_tail {p : Params} (hp : paramsWf p = true) (seed : BitVec 7) (f : Header) (m : Memory)
    {j : Nat} (hj : headerLen p ≤ j) (hj' : j < 256) :
    readBit (writeHdrOut m (headerBits p seed f)) hdrOutBase j = false := by
  rw [readBit_writeHdrOut _ _ hj', List.getD_eq_default _ _ (by rw [length_headerBits hp]; exact hj)]

/-- Settles O25: HDR_BUILD checks the layout, then writes the header and nothing else. -/
theorem hdrBuildWritesTheHeader : Obligations.HdrBuildWritesTheHeader := by
  refine ⟨by decide, fun s hp => ?_⟩
  intro p f fits
  rcases execHdrBuild_cases s with ⟨hfits, e⟩ | ⟨hfits, e⟩
  · refine ⟨fun _ => ⟨_, e, fun j hj => ?_, fun j => ?_, fun x hx => ?_⟩, fun h => absurd (headerFits_iff.1 hfits) h⟩
    · exact readBit_writeHdrOut_headerBits hp _ _ _ hj
    · exact readBit_writeHdrOut_tail hp _ _ _
    · exact readByte_writeHdrOut hx _ _
  · refine ⟨fun h => absurd (headerFits_iff.2 h) ((Bool.not_eq_true _).mpr hfits), fun _ => ?_⟩
    exact e.trans (congrArg Host.Outcome.next (raise_eq_recorded s .cmdArg))

/-! ## Reading a header (R145, R149) -/

/-- A bit string of `W` bits has a value of `W` bits exactly when it spells it (R12). -/
theorem val_eq_iff {w v : Nat} {s : Bits} (hs : s.length = w) (hv : v < 2 ^ w) : val s = v ↔ s = bin w v := by
  subst hs
  exact ⟨fun h => h ▸ (bin_val s).symm, fun h => h ▸ val_bin hv⟩

/-- Reading the fields of a layout looks at no bit behind them (R149). -/
theorem parseFields_take {ls : List (HdrField × Nat)} {d : Bits} {n : Nat} (hn : (ls.map (·.2)).sum ≤ n)
    (hd : n ≤ d.length) (h : Header) : parseFields ls (d.take n) h = parseFields ls d h := by
  set w := (ls.map (·.2)).sum
  have fields (e : Bits) (he : w ≤ e.length) : parseFields ls (e.take w) h = parseFields ls e h := by
    rw [← parseFields_append ls (e.take w) (e.drop w) h (List.length_take_of_le he), List.take_append_drop]
  rw [← fields d (by omega), ← fields (d.take n) (by rw [List.length_take]; omega), List.take_take,
    Nat.min_eq_left hn]

/-- What the parser answers for the descrambled bits `d` of a received header: its last 8 bits must be the CRC of those
before them, and then the fields are read in the layout's order (R149). -/
theorem headerParse_eq {p : Params} (hp : paramsWf p = true) {seed : BitVec 7} {x : List Sample} {d : Bits}
    (hd : scramble seed (x.map hard) = d) (hlen : x.length = headerLen p) :
    headerParse p seed x =
      if d.drop (headerLen p - 8) = bin 8 (crc8 (d.take (headerLen p - 8))).toNat then
        some (parseFields (layout p) d Header.zero) else none := by
  have hfits := (paramsWf_good hp).layoutFits
  have hdlen : d.length = headerLen p := by rw [← hd, length_scramble, List.length_map, hlen]
  have check := val_eq_iff (w := 8) (s := d.drop (headerLen p - 8)) (by rw [List.length_drop]; omega)
    (crc8 (d.take (headerLen p - 8))).isLt
  have fields : parseFields (layout p) (d.take (headerLen p - 8)) Header.zero = parseFields (layout p) d Header.zero :=
    parseFields_take (by rw [layoutWidth] at hfits; omega) (by omega) _
  simp only [headerParse, hd, Config.wCrc, check, fields]

/-! ## The round trip (R150 to R153) -/

/-- Reading back the bits of fields that fit sets those fields (R149). -/
theorem parseFields_flatMap_bin {ls : List (HdrField × Nat)} {f : Header} (hfits : ∀ l ∈ ls, f.get l.1 < 2 ^ l.2)
    (h : Header) :
    parseFields ls (ls.flatMap fun l => bin l.2 (f.get l.1)) h = ls.foldl (fun g l => g.set l.1 (f.get l.1)) h := by
  induction ls generalizing h with
  | nil => rfl
  | cons l ls ih =>
    obtain ⟨hl, hls⟩ := List.forall_mem_cons.1 hfits
    rw [List.flatMap_cons, parseFields, List.drop_left' (length_bin ..), List.take_left' (length_bin ..), val_bin hl,
      ih hls, List.foldl_cons]

/-- Setting the fields of the layout in the zero field set gives the field set restricted to the layout (R149, R153). -/
theorem foldl_set_layout (p : Params) (f : Header) :
    (layout p).foldl (fun g l => g.set l.1 (f.get l.1)) Header.zero = restrictToLayout p f := by
  cases hf : p.fecEn <;> simp [layout, restrictToLayout, hf, Header.set, Header.get, Header.zero]

/-- The fields read from a header before scrambling (R148, R149). -/
theorem parseFields_plainHeader {p : Params} {f : Header} (hfits : headerFits p f = true) :
    parseFields (layout p) (plainHeader p f) Header.zero = restrictToLayout p f := by
  have hfits' : ∀ l ∈ layout p, f.get l.1 < 2 ^ l.2 := by simpa [headerFits] using hfits
  rw [plainHeader, headerBody, List.append_assoc, parseFields_append _ _ _ _ (length_layoutBits p f),
    parseFields_flatMap_bin hfits', foldl_set_layout]

/-- Settles O27: descrambling undoes scrambling, so the parser sees the plain header, which ends in the CRC of its body
and begins with the fields. -/
theorem headerRoundTrip : Obligations.HeaderRoundTrip := by
  intro p f seed hp hfits
  have hd : scramble seed (((headerBits p seed f).map softIdeal).map hard) = plainHeader p f := by
    rw [map_hard_softIdeal, headerBits, scramble_scramble]
  have hbody := length_headerBody hp f
  rw [headerParse_eq hp hd (by rw [List.length_map, length_headerBits hp]), parseFields_plainHeader hfits, if_pos]
  rw [plainHeader, List.drop_left' hbody, List.take_left' hbody]
  rfl

/-- The samples a noiseless line carries from a block whose HDR_OUT holds a header (R150, R151). -/
theorem lineHeader_writeHdrOut {p : Params} (hp : paramsWf p = true) (seed : BitVec 7) (f : Header) {T : State}
    (hT : T.params = p) {m : Memory} (hm : T.mem = writeHdrOut m (headerBits p seed f)) :
    lineHeader T = (headerBits p seed f).map softIdeal := by
  refine List.ext_getElem? fun j => ?_
  rw [lineHeader, hT, hm, List.getElem?_map, List.getElem?_map]
  by_cases hj : j < headerLen p
  · rw [List.getElem?_range hj, ← readBit_writeHdrOut_headerBits hp seed f m hj]
    rfl
  · rw [List.getElem?_eq_none (by simpa using hj), List.getElem?_eq_none (by rw [length_headerBits hp]; omega)]
    rfl

/-- The samples the host has written to HDR_IN are those HDR_PARSE takes (R152). -/
theorem hdrInSamples_withHdrIn {R : State} {x : List Sample} (hlen : x.length = headerLen R.params)
    (hmax : headerLen R.params ≤ 256) : hdrInSamples (withHdrIn R x) = x := by
  rw [hdrInSamples, show headerLen (withHdrIn R x).params = x.length from hlen.symm]
  exact readSamples_replaceWindow R.mem hdrInBase 0x100 x (by omega)

/-- Settles O28: the line carries the header bits that HDR_BUILD wrote, and the round trip gives the fields back. -/
theorem builtHeaderIsParsedBack : Obligations.BuiltHeaderIsParsedBack := by
  intro T T' R hp hparams hscr hfits hbuild
  rcases execHdrBuild_cases T with ⟨_, e⟩ | ⟨hno, _⟩
  · have hT' := Host.Outcome.next.inj (hbuild.symm.trans e)
    rw [lineHeader_writeHdrOut hp (headerSeed T) T.txh (by rw [hT']) (by rw [hT'])]
    set x := (headerBits T.params (headerSeed T) T.txh).map softIdeal with hx
    have hlen : x.length = headerLen R.params := by rw [hx, List.length_map, length_headerBits hp, hparams]
    have hmax : headerLen R.params ≤ 256 := hparams ▸ (paramsWf_good hp).hbMax
    have hseed : headerSeed (withHdrIn R x) = headerSeed T := by simp [headerSeed, withHdrIn, hparams, hscr]
    have parsed : headerParse (withHdrIn R x).params (headerSeed (withHdrIn R x)) (hdrInSamples (withHdrIn R x)) =
        some (restrictToLayout T.params T.txh) := by
      rw [hdrInSamples_withHdrIn hlen hmax, hseed, show (withHdrIn R x).params = T.params from hparams]
      exact headerRoundTrip T.params T.txh (headerSeed T) hp hfits
    rw [exec, execHdrParse, parsed]
  · exact absurd hfits (by simp [hno])

/-! ## HDR_PARSE in full (R145, R147, R149, R152) -/

/-- A field of at most the register's width holds the value read (R149). -/
theorem toNat_ofNat_val_take {w n : Nat} (hw : w ≤ n) (s : Bits) :
    (BitVec.ofNat n (val (s.take w))).toNat = val (s.take w) := by
  rw [BitVec.toNat_ofNat, Nat.mod_eq_of_lt]
  exact (val_lt _).trans_le (Nat.pow_le_pow_right (by omega) ((List.length_take_le ..).trans hw))

/-- HDR_PARSE by its CRC check, on the descrambled decisions `d` of the header samples (R152). -/
theorem exec_hdrParse {s : State} (hp : paramsWf s.params = true) {d : Bits}
    (hd : scramble (headerSeed s) ((hdrInSamples s).map hard) = d) :
    exec .hdrParse s = .next (
      if d.drop (headerLen s.params - 8) = bin 8 (crc8 (d.take (headerLen s.params - 8))).toNat then
        { s with rxh := parseFields (layout s.params) d Header.zero, hdrValid := true }
      else recorded 7 { s with hdrValid := false }) := by
  rw [exec, execHdrParse, headerParse_eq hp hd (length_readSamples ..)]
  split_ifs
  · rfl
  · exact congrArg Host.Outcome.next (raise_eq_recorded _ .hdrCrc)

/-- The fields read from a no-FEC header, at their places in the layout (R141, R149). -/
theorem parseFields_layout_noFec {p : Params} (hf : p.fecEn = false) (d : Bits) :
    parseFields (layout p) d Header.zero =
      { Header.zero with
        plen := BitVec.ofNat 16 (val ((d.drop 0).take p.wPlen))
        seq := BitVec.ofNat 16 (val ((d.drop p.wPlen).take p.wSeq))
        mod := BitVec.ofNat 4 (val ((d.drop (p.wPlen + p.wSeq)).take 4))
        fec := BitVec.ofNat 4 (val ((d.drop (p.wPlen + p.wSeq + 4)).take 4))
        flen := BitVec.ofNat 16 (val ((d.drop (p.wPlen + p.wSeq + 8)).take p.wFlen)) } := by
  simp [layout, hf, Config.wMod, parseFields, Header.set, Header.zero, List.drop_drop, Nat.add_assoc]

/-- The fields read from an FEC header, at their places in the layout (R141, R149). -/
theorem parseFields_layout_fec {p : Params} (hf : p.fecEn = true) (d : Bits) :
    parseFields (layout p) d Header.zero =
      { plen := BitVec.ofNat 16 (val ((d.drop 0).take p.wPlen))
        seq := BitVec.ofNat 16 (val ((d.drop p.wPlen).take p.wSeq))
        mod := BitVec.ofNat 4 (val ((d.drop (p.wPlen + p.wSeq)).take 4))
        fec := BitVec.ofNat 4 (val ((d.drop (p.wPlen + p.wSeq + 4)).take 4))
        flen := BitVec.ofNat 16 (val ((d.drop (p.wPlen + p.wSeq + 8)).take p.wFlen))
        cwid := BitVec.ofNat 16 (val ((d.drop (p.wPlen + p.wSeq + 8 + p.wFlen)).take p.wCwid))
        off := BitVec.ofNat 16 (val ((d.drop (p.wPlen + p.wSeq + 8 + p.wFlen + p.wCwid)).take p.wOff))
        short := BitVec.ofNat 16
          (val ((d.drop (p.wPlen + p.wSeq + 8 + p.wFlen + p.wCwid + p.wOff)).take p.wShort))
        emod := BitVec.ofNat 4
          (val ((d.drop (p.wPlen + p.wSeq + 8 + p.wFlen + p.wCwid + p.wOff + p.wShort)).take 4))
        efec := BitVec.ofNat 4
          (val ((d.drop (p.wPlen + p.wSeq + 8 + p.wFlen + p.wCwid + p.wOff + p.wShort + 4)).take 4)) } := by
  simp [layout, hf, Config.wMod, parseFields, Header.set, Header.zero, List.drop_drop, Nat.add_assoc]

/-- Settles O26: the parser's answer, with the fields at their places in the layout of either link kind. -/
theorem hdrParseChecksTheCrc : Obligations.HdrParseChecksTheCrc := by
  refine ⟨by decide, fun s hp => ?_⟩
  intro p d body at_ o1 o2 o3
  have hd : scramble (headerSeed s) ((hdrInSamples s).map hard) = d := by
    rw [hdrInSamples, readSamples, List.map_map]; rfl
  have e := exec_hdrParse hp hd
  have good := paramsWf_good hp
  refine ⟨fun hcrc => ⟨_, e.trans (congrArg Host.Outcome.next (if_pos hcrc)), ?_⟩,
    fun hcrc => e.trans (congrArg Host.Outcome.next (if_neg hcrc))⟩
  cases hf : s.params.fecEn with
  | false =>
    rw [parseFields_layout_noFec hf]
    exact ⟨toNat_ofNat_val_take good.wPlen.2 _, toNat_ofNat_val_take good.wSeq.2 _, toNat_ofNat_val_take le_rfl _,
      toNat_ofNat_val_take le_rfl _, toNat_ofNat_val_take good.wFlen.2 _, nofun,
      fun _ => ⟨rfl, rfl, rfl, rfl, rfl⟩⟩
  | true =>
    rw [parseFields_layout_fec hf]
    exact ⟨toNat_ofNat_val_take good.wPlen.2 _, toNat_ofNat_val_take good.wSeq.2 _, toNat_ofNat_val_take le_rfl _,
      toNat_ofNat_val_take le_rfl _, toNat_ofNat_val_take good.wFlen.2 _,
      fun _ => ⟨toNat_ofNat_val_take good.wCwid.2 _, toNat_ofNat_val_take good.wOff.2 _,
        toNat_ofNat_val_take good.wShort.2 _, toNat_ofNat_val_take le_rfl _, toNat_ofNat_val_take le_rfl _⟩,
      nofun⟩

/-! ## Error bursts (R154) -/

/-- Bits that pass the check of a header have CRC 0 (R145). -/
theorem crc8_eq_zero_of_check {d : Bits} {n : Nat} (h : d.drop n = bin 8 (crc8 (d.take n)).toNat) : crc8 d = 0 := by
  rw [← List.take_append_drop n d, h]
  exact crc8_append_crc8 _

/-- The decision on header sample `i` (R13, R152). -/
theorem getElem?_hdrIn_hard (m : Memory) (count i : Nat) :
    ((readSamples m hdrInBase count).map hard)[i]? =
      if i < count then some (hard (readByte m (0x200 + i))) else none := by
  by_cases hi : i < count <;> simp [readSamples, readSample, hdrInBase, hi]

/-- Settles O29: had both headers passed their check, both would have CRC 0 and so be equal, as they differ inside eight
successive places only; but they differ. -/
theorem headerBurstErrorsAreCaught : Obligations.HeaderBurstErrorsAreCaught := by
  rintro s t m j hinv ht hvalid hout ⟨i, hi, hdiff⟩
  set n := headerLen s.params with hn
  set x := (readSamples s.mem hdrInBase n).map hard with hx
  set y := (readSamples m hdrInBase n).map hard with hy
  have passed : crc8 (scramble (headerSeed s) x) = 0 := by
    refine crc8_eq_zero_of_check (n := n - 8) ?_
    by_contra hfail
    rw [exec_hdrParse hinv.params (d := scramble (headerSeed s) x) rfl, if_neg hfail] at ht
    obtain rfl := Host.Outcome.next.inj ht
    exact absurd hvalid (by simp)
  refine (exec_hdrParse (s := { s with mem := m }) hinv.params (d := scramble (headerSeed s) y) rfl).trans ?_
  refine congrArg Host.Outcome.next (if_neg fun hcheck => hdiff ?_)
  have passed' : crc8 (scramble (headerSeed s) y) = 0 := crc8_eq_zero_of_check hcheck
  have hlen : x.length = n ∧ y.length = n := by simp [hx, hy]
  have outside (k : Nat) (hk : k < j ∨ j + 8 ≤ k) :
      (scramble (headerSeed s) y)[k]? = (scramble (headerSeed s) x)[k]? := by
    refine getElem?_scramble_congr ?_ _
    rw [hx, hy, getElem?_hdrIn_hard, getElem?_hdrIn_hard]
    split_ifs with hkn
    · rw [hout k hkn hk]
    · rfl
  have same : y = x := by
    have descrambled := eq_of_crc8_eq (by simp [hlen]) outside (passed'.trans passed.symm)
    rw [← scramble_scramble (headerSeed s) y, descrambled, scramble_scramble]
  have decision := congrArg (·[i]?) same
  simpa only [hx, hy, getElem?_hdrIn_hard, if_pos hi, Option.some.injEq] using decision

end Sys2Proof.Machine
end

section
/-!
# Every step keeps the output windows zero beyond header and payload (R151, R182)

What keeps the tails of HDR_OUT and PAYLOAD_OUT: an instruction that leaves both windows, the header length and TX_PBITS
as they are, or one that writes the windows whole.
-/

namespace Sys2Proof.Machine

/-- A bit of HDR_OUT depends on the bytes of HDR_OUT alone (R81, R86). -/
theorem readBit_hdrOut_congr {m n : Memory} (h : SameBytes InHdrOut m n) {j : Nat} (hj : j < 256) :
    readBit n hdrOutBase j = readBit m hdrOutBase j :=
  readBit_congr fun i hi => h _ (by simp only [InHdrOut, hdrOutBase]; omega)

/-- A bit of PAYLOAD_OUT depends on the bytes of PAYLOAD_OUT alone (R81, R86). -/
theorem readBit_payloadOut_congr {m n : Memory} (h : SameBytes InPayloadOut m n) {j : Nat} (hj : j < 32768) :
    readBit n payloadOutBase j = readBit m payloadOutBase j :=
  readBit_congr fun i hi => h _ (by simp only [InPayloadOut, payloadOutBase]; omega)

/-- Leaving the output windows, the parameters and TX_PBITS as they are keeps the tails. -/
theorem OutputTailsZero.of_same {s t : State} (h : OutputTailsZero s) (hp : t.params = s.params)
    (hpbits : t.txPbits = s.txPbits) (hhdr : SameBytes InHdrOut s.mem t.mem)
    (hpayload : SameBytes InPayloadOut s.mem t.mem) : OutputTailsZero t := by
  obtain ⟨hdr, payload⟩ := h
  refine ⟨fun j hj hj' => ?_, fun j hj hj' => ?_⟩
  · rw [readBit_hdrOut_congr hhdr hj']; exact hdr j (hp ▸ hj) hj'
  · rw [readBit_payloadOut_congr hpayload hj']; exact payload j (hpbits ▸ hj) hj'

/-- A header written to HDR_OUT keeps the tails: HDR_OUT is written whole, and PAYLOAD_OUT is left (R151). -/
theorem outputTailsZero_writeHdrOut {s : State} (hp : paramsWf s.params = true) (h : OutputTailsZero s)
    (seed : BitVec 7) (f : Header) :
    OutputTailsZero { s with mem := writeHdrOut s.mem (headerBits s.params seed f) } := by
  obtain ⟨_, payload⟩ := h
  refine ⟨fun j => readBit_writeHdrOut_tail hp seed f s.mem, fun j hj hj' => ?_⟩
  refine (readBit_payloadOut_congr (fun a ha => readByte_writeHdrOut ?_ _ _) hj').trans (payload j hj hj')
  unfold InPayloadOut at ha
  unfold InHdrOut
  omega

/-- A frame build writes both output windows whole: the header and 0, then the payload with its fill, TX_PBITS bits, and
0 (R182, R189). -/
theorem outputTailsZero_buildFrame {s : State} (hi : Inv s) {b : Nat} (hb : 1 ≤ b ∧ b ≤ 4) (c : Code) :
    OutputTailsZero (buildFrame s b c) := by
  have hbits := ceilDiv_buildPayload_le hi.flen hb c
  refine ⟨fun j hj hj' => ?_, fun j hj hj' => ?_⟩
  · refine (readBit_hdrOut_congr (fun a ha => readByte_writePayloadOut ?_ _ _) hj').trans
      (readBit_writeHdrOut_tail hi.params _ _ _ hj hj')
    unfold InHdrOut at ha
    unfold InPayloadOut
    omega
  · simp only [buildFrame, BitVec.toNat_ofNat, Nat.mod_eq_of_lt (hbits.trans_lt (by norm_num : 32768 < 2 ^ 16))] at hj
    refine (readBit_writeBits _ payloadOutBase Config.pmaxBits _ hj').trans (List.getD_eq_default _ _ ?_)
    rw [payloadBits, length_fitLen]
    exact hj

/-- A word stored in a sample window keeps the tails: the output windows are elsewhere (R81, R254). -/
theorem outputTailsZero_writeWord {s : State} (hm : Memory.wf s.mem) (h : OutputTailsZero s) {a : Nat}
    (haligned : a % 4 = 0) (hwindow : InHdrIn a ∨ InRxSoft a) (v : Word) :
    OutputTailsZero { s with mem := writeWord s.mem a v } := by
  unfold InHdrIn InRxSoft at hwindow
  refine h.of_same rfl rfl (fun x hx => sameBytes_writeWord hm a v x ?_) (fun x hx => sameBytes_writeWord hm a v x ?_)
  · unfold InHdrOut at hx; omega
  · unfold InPayloadOut at hx; omega

/-- Committing a deframing keeps the tails (R217). -/
theorem outputTailsZero_commitFrame {s : State} (h : OutputTailsZero s) (a : RxAcc) :
    OutputTailsZero (commitFrame s a) := by
  rcases commitFrame_cases s a with ⟨_, e⟩ | ⟨_, e⟩ <;> rw [e]
  · exact h
  · exact h.of_same (by simp) (by simp) (fun _ _ => by simp) (fun _ _ => by simp)

/-- Every instruction but a bus write keeps the tails. -/
theorem exec_outputTailsZero_of_not_wr {i : Instr} (hwr : ∀ a v z, i ≠ .wr a v z) {s : State} (hi : Inv s)
    (h : OutputTailsZero s) : Answers OutputTailsZero (exec i s) := by
  cases i with
  | nop => exact answers_next.2 h
  | softReset => exact answers_next.2 ⟨fun _ _ _ => readBit_nil _ _, fun _ _ _ => readBit_nil _ _⟩
  | txPush data cnt =>
    rcases execTxPush_cases data cnt s with ⟨_, e⟩ | ⟨_, _, e⟩ | ⟨_, _, _, e⟩ | ⟨_, _, _, e⟩ <;> rw [exec, e] <;>
      exact answers_next.2 h
  | txBuild =>
    rcases execTxBuild_cases s with ⟨_, e⟩ | ⟨_, _, e⟩ | ⟨b, c, _, hb, _, e⟩ <;> rw [exec, e]
    · exact answers_next.2 h
    · exact answers_fault _ _
    · obtain ⟨rfl, hmod⟩ := bps?_some.1 hb
      exact answers_next.2 (outputTailsZero_buildFrame hi hmod c)
  | hdrBuild =>
    rcases execHdrBuild_cases s with ⟨_, e⟩ | ⟨_, e⟩ <;> rw [exec, e, answers_next]
    · exact outputTailsZero_writeHdrOut hi.params h _ _
    · exact h
  | hdrParse => rcases execHdrParse_cases s with ⟨_, e⟩ | ⟨_, _, e⟩ <;> rw [exec, e] <;> exact answers_next.2 h
  | rxFrame =>
    rcases execRxFrame_cases s with ⟨_, e⟩ | ⟨_, _, e⟩ | ⟨_, _, _, e⟩ | ⟨_, _, _, _, _, e⟩ <;>
      rw [exec, e, answers_next]
    · exact h
    · exact h
    · exact h
    · exact outputTailsZero_commitFrame h _
  | rxPop cnt =>
    rcases execRxPop_cases cnt s with ⟨_, e⟩ | ⟨_, _, e⟩ | ⟨_, _, e⟩ <;> rw [exec, e] <;> exact answers_next.2 h
  | cwrepPop =>
    rcases execCwrepPop_cases s with ⟨_, e⟩ | ⟨_, _, e⟩ | ⟨_, _, _, _, e⟩ <;> rw [exec, e] <;> exact answers_next.2 h
  | rd a size => rcases execRd_cases a size s with ⟨_, e⟩ | ⟨_, _, e⟩ <;> rw [exec, e] <;> exact answers_next.2 h
  | wr a v size => exact absurd rfl (hwr a v size)

/-- A register write keeps the tails: the only one that reaches the memory or TX_PBITS is a command (R254, R256). -/
theorem RegEffect.outputTailsZero {v : Word} {s : State} {o : Host.Outcome State Fault Refusal} (h : RegEffect v s o)
    (hi : Inv s) (ht : OutputTailsZero s) : Answers OutputTailsZero o := by
  cases h
  case command => exact dispatchCommand_answers (fun _ => ht) (fun i hwr => exec_outputTailsZero_of_not_wr hwr hi ht) v
  all_goals exact answers_next.2 ht

/-- A bus write keeps the tails: it has no effect, is a register's, or reaches a sample window (R253, R254). -/
theorem execWr_outputTailsZero (a : BitVec 16) (v : Word) (size : Nat) {s : State} (hi : Inv s)
    (h : OutputTailsZero s) : Answers OutputTailsZero (execWr a v size s) := by
  rcases execWr_cases a v size s with ⟨_, e⟩ | ⟨pl, hpl, hacc, e⟩ <;> rw [e]
  · exact answers_next.2 h
  · obtain ⟨⟨_, haligned⟩, hplace⟩ := target?_eq_some_iff.1 hpl
    have store (hwindow : pl = .hdrIn ∨ pl = .rxSoft) : OutputTailsZero { s with mem := writeWord s.mem a.toNat v } :=
      outputTailsZero_writeWord hi.memory h haligned (place?_sampleWindow hplace hwindow) v
    cases pl with
    | reg r => exact (writeReg_effect r v s).outputTailsZero hi h
    | hdrIn => exact answers_next.2 (store (.inl rfl))
    | rxSoft => exact answers_next.2 (store (.inr rfl))
    | hdrOut | payloadOut => exact absurd rfl hacc

/-- Every instruction keeps the tails. -/
theorem exec_outputTailsZero (i : Instr) {s : State} (hi : Inv s) (h : OutputTailsZero s) :
    Answers OutputTailsZero (exec i s) := by
  by_cases hwr : ∃ a v z, i = .wr a v z
  · obtain ⟨a, v, size, rfl⟩ := hwr
    exact execWr_outputTailsZero a v size hi h
  · exact exec_outputTailsZero_of_not_wr (fun a v z e => hwr ⟨a, v, z, e⟩) hi h

/-- Settles O13: taking an access from the port and every instruction keep the tails. -/
theorem stepKeepsOutputTailsZero : Obligations.StepKeepsOutputTailsZero := by
  intro s t hi h ht
  rcases step_cases s with ⟨_, e⟩ | ⟨a, rest, _, e⟩ <;> rw [e] at ht
  · cases ht; exact h
  · exact exec_outputTailsZero (s := { s with bus := rest }) (decodeAccess a) (inv_host hi rest s.rdata) h t ht

end Sys2Proof.Machine
end

section
/-!
# TX_PUSH, and the payload that a frame build cuts from the codeword stream (R180 to R189)

The parts of a build are taken together once: `Carries` says what the bits placed so far are, and every clause of the
statements about TX_BUILD is read off from it.
-/

namespace Sys2Proof.Machine

/-! ## TX_PUSH (R181) -/

/-- The pushed bits, most significant first (R112, R181). -/
theorem pushBits_eq (data : BitVec 8) {cnt : BitVec 4} (h : cnt.toNat ≤ 8) :
    pushBits data cnt = (List.range cnt.toNat).map fun i => data.getLsbD (7 - i) := by
  rw [pushBits, bin, ← List.map_take, List.take_range, Nat.min_eq_left h]
  rfl

/-- Settles O17: the word's fields decode to the push, and the push answers its four cases in the order of R181. -/
theorem txPushAppendsItsBits : Obligations.TxPushAppendsItsBits := by
  refine ⟨fun w hop hrsv => ?_, fun data cnt s => ?_⟩
  · have hw : w = fieldsWord (cntField w) (dataField w) 0x10 :=
      (eq_fieldsWord hrsv).trans (congrArg (fieldsWord _ _) hop)
    exact (congrArg decodeCommand hw).trans (decodeCommand_txPush _ _)
  · have hlegal : cntLegal cnt = true ↔ ¬(cnt.toNat < 1 ∨ 8 < cnt.toNat) := by
      simp only [cntLegal, Bool.and_eq_true, decide_eq_true_eq]; omega
    rw [exec]
    rcases execTxPush_cases data cnt s with ⟨hf, e⟩ | ⟨hf, hcnt, e⟩ | ⟨hf, hcnt, hfull, e⟩ | ⟨hf, hcnt, hroom, e⟩ <;>
      rw [e]
    · rw [if_pos hf, raise_eq_recorded, causeCode]
    · have hbad : cnt.toNat < 1 ∨ 8 < cnt.toNat := by by_contra h; simp [hlegal.2 h] at hcnt
      rw [if_neg (by simp [hf]), if_pos hbad, raise_eq_recorded, causeCode]
    · rw [if_neg (by simp [hf]), if_neg (hlegal.1 hcnt), if_pos hfull, raise_eq_recorded, causeCode]
    · have hgood := hlegal.1 hcnt
      rw [if_neg (by simp [hf]), if_neg hgood, if_neg (by omega), pushBits_eq data (by omega)]

/-! ## The codeword stream of a build (R180, R182, R185, R186) -/

/-- The bits of a remnant, none without one (R50). -/
def pendingBits (r : Option Remnant) : Bits := r.elim [] Remnant.bits

@[simp] theorem pendingBits_none : pendingBits none = [] := rfl

@[simp] theorem pendingBits_some (r : Remnant) : pendingBits (some r) = r.bits := rfl

/-- What the statements call the remnant's bits (R50). -/
theorem remnantBits_eq (s : State) : remnantBits s = pendingBits s.rem := by
  unfold remnantBits
  cases s.rem <;> rfl

/-- What a build begins with: an empty payload and the Tx state (R182). -/
def startBuild (s : State) : BuildAcc where
  out := []
  txq := s.txq
  nextCwId := s.nextCwId
  rem := s.rem
  short := 0

/-- A build places the remnant, and new codewords only when no remnant is left and its code is `MCS.FEC` (R188). -/
theorem buildPayload_cases (s : State) (b : Nat) (c : Code) :
    let a := placeRemnant (frameCapacity s b) (startBuild s)
    ((a.rem = none ∧ frameCode s = s.mcsFec) ∧
        buildPayload s b c = placeCodewords s.params c b (frameCapacity s b) s.txq.length a) ∨
      (¬(a.rem = none ∧ frameCode s = s.mcsFec) ∧ buildPayload s b c = a) := by
  intro a
  by_cases h : a.rem = none ∧ frameCode s = s.mcsFec
  · exact .inl ⟨h, if_pos h⟩
  · exact .inr ⟨h, if_neg h⟩

/-- What a build of code `c` has placed in `a` when `infos` are the info words it has encoded since the state `s`. -/
structure Carries (s : State) (b : Nat) (c : Code) (infos : List Bits) (a : BuildAcc) : Prop where
  /-- every info word has `k` bits (R186) -/
  lengths : ∀ x ∈ infos, x.length = c.k
  /-- the stream: placed bits, then the pending ones (R180) -/
  stream : remnantBits s ++ infos.flatMap (encodeWord c) = a.out ++ pendingBits a.rem
  /-- the info words are the queue's bits, the last word filled up with zeros (R186) -/
  queue : s.txq ++ zeros a.short = infos.flatten ++ a.txq
  /-- only a codeword that empties the queue is shortened (R186) -/
  shortened : 0 < a.short → a.txq = []
  short_lt : a.short < c.k
  short_of_nil : infos = [] → a.short = 0
  /-- one id for each new codeword (R51, R186) -/
  nextCwId : a.nextCwId.toNat = (s.nextCwId.toNat + infos.length) % 2 ^ s.params.wCwid
  /-- bits stay pending only behind a full frame (R185, R186) -/
  full : a.rem ≠ none → frameCapacity s b ≤ a.out.length

/-- A build that has encoded nothing yet carries a first part of the remnant and leaves the queue (R185). -/
theorem carries_nil {s : State} (hid : s.nextCwId.toNat < 2 ^ s.params.wCwid) {b : Nat} {c : Code} (hk : 1 ≤ c.k)
    {a : BuildAcc} (hq : a.txq = s.txq) (hnext : a.nextCwId = s.nextCwId) (hshort : a.short = 0)
    (hstream : remnantBits s = a.out ++ pendingBits a.rem)
    (hfull : a.rem ≠ none → frameCapacity s b ≤ a.out.length) : Carries s b c [] a where
  lengths := by simp
  stream := by simpa using hstream
  queue := by simp [hq, hshort, zeros]
  shortened := by omega
  short_lt := by omega
  short_of_nil := fun _ => hshort
  nextCwId := by rw [hnext]; exact (Nat.mod_eq_of_lt hid).symm
  full := hfull

/-- The remnant's part sends the remnant's first bits, all of them or as many as the frame holds (R185). -/
theorem carries_placeRemnant {s : State} (hid : s.nextCwId.toNat < 2 ^ s.params.wCwid) (b : Nat) {c : Code}
    (hk : 1 ≤ c.k) : Carries s b c [] (placeRemnant (frameCapacity s b) (startBuild s)) := by
  rcases placeRemnant_cases (frameCapacity s b) (startBuild s) with
    ⟨hr, e⟩ | ⟨r, hr, ⟨_, e⟩ | ⟨hcap, e⟩⟩ <;> rw [e]
  all_goals
    have hr : s.rem = _ := hr
    refine carries_nil hid hk rfl rfl rfl (by rw [remnantBits_eq, hr]; simp [startBuild, hr]) fun hne => ?_
  · exact absurd hr hne
  · exact absurd rfl hne
  · rw [List.length_take]; omega

/-- A new codeword carries on the stream: its info word is the queue's next `k` bits, or the last and zeros (R186). -/
theorem carries_placeCodeword {s : State} (hw : s.params.wCwid ≤ 16) {b : Nat} {c : Code} {infos : List Bits}
    {a : BuildAcc} (h : Carries s b c infos a) (hroom : a.out.length < frameCapacity s b) (hq : 0 < a.txq.length) :
    Carries s b c (infos ++ [a.txq.take c.k ++ zeros (c.k - a.txq.length)])
      (placeCodeword s.params c (frameCapacity s b) a) := by
  have hrem : a.rem = none := by
    by_contra hne
    exact absurd (h.full hne) (by omega)
  have hshort : a.short = 0 := by
    by_contra hne
    simp [h.shortened (by omega)] at hq
  obtain ⟨cw, hcw, hlen, htxq, hnext, hs, hplace⟩ := placeCodeword_cases s.params c (frameCapacity s b) a
  have hplaced : (placeCodeword s.params c (frameCapacity s b) a).out ++
      pendingBits (placeCodeword s.params c (frameCapacity s b) a).rem = a.out ++ cw := by
    rcases hplace with ⟨_, ho, hr⟩ | ⟨_, ho, hr⟩ <;> simp [ho, hr, hrem]
  refine
    { lengths := ?_, stream := ?_, queue := ?_, shortened := ?_, short_lt := ?_, short_of_nil := ?_, nextCwId := ?_,
      full := ?_ }
  · simp only [List.mem_append, List.mem_singleton]
    rintro x (hx | rfl)
    · exact h.lengths x hx
    · exact length_infoWord c a.txq
  · have hstream := h.stream
    rw [hrem, pendingBits_none, List.append_nil] at hstream
    rw [hplaced, hcw, ← hstream]
    simp
  · have hqueue := h.queue
    rw [hshort, zeros, List.replicate_zero, List.append_nil] at hqueue
    rw [hs, htxq, hqueue]
    rcases Nat.le_total c.k a.txq.length with hle | hle
    · simp [Nat.sub_eq_zero_of_le hle, zeros]
    · simp [List.take_of_length_le hle, List.drop_of_length_le hle]
  · rw [hs, htxq, List.drop_eq_nil_iff]; omega
  · rw [hs]; have := h.short_lt; omega
  · simp
  · rw [hnext, toNat_incMod _ hw, h.nextCwId, Nat.mod_add_mod, List.length_append, List.length_singleton, Nat.add_assoc]
  · rcases hplace with ⟨_, _, hr⟩ | ⟨hcut, ho, _⟩
    · rw [hr]; exact fun hne => absurd hrem hne
    · rw [ho, List.length_append, List.length_take]; omega

/-- The payload of a build is the stream's next part (R180). -/
theorem exists_carries_buildPayload {s : State} (hi : Inv s) {b : Nat} (hb : 1 ≤ b) {c : Code} (hk : 1 ≤ c.k) :
    ∃ infos, Carries s b c infos (buildPayload s b c) := by
  have h0 := carries_placeRemnant hi.nextCwId b hk
  rcases buildPayload_cases s b c with ⟨_, e⟩ | ⟨_, e⟩ <;> rw [e]
  · refine placeCodewords_induct (P := fun a => ∃ infos, Carries s b c infos a) ?_ _ _ ⟨[], h0⟩
    rintro a ⟨infos, h⟩ hroom hq
    exact ⟨_, carries_placeCodeword (paramsWf_good hi.params).wCwid.2 h (by omega) hq⟩
  · exact ⟨[], h0⟩

/-- The remnant's part leaves the queue, the next id and the shortening as they are (R185). -/
theorem placeRemnant_frame (cap : Nat) (a : BuildAcc) :
    (placeRemnant cap a).txq = a.txq ∧ (placeRemnant cap a).nextCwId = a.nextCwId ∧
      (placeRemnant cap a).short = a.short := by
  rcases placeRemnant_cases cap a with ⟨_, e⟩ | ⟨r, _, ⟨_, e⟩ | ⟨_, e⟩⟩ <;> rw [e] <;> exact ⟨rfl, rfl, rfl⟩

/-- A build leaves a whole symbol of the frame unused only when nothing is left that it may send (R185, R187). -/
theorem capacity_lt_of_unsent {s : State} {b : Nat} (hb : 1 ≤ b) {c : Code} (hk : 1 ≤ c.k) {infos : List Bits}
    (h : Carries s b c infos (buildPayload s b c))
    (hunsent : (buildPayload s b c).rem ≠ none ∨ ((buildPayload s b c).txq ≠ [] ∧ frameCode s = s.mcsFec)) :
    frameCapacity s b < (buildPayload s b c).out.length + b := by
  by_cases hrem : (buildPayload s b c).rem = none
  · obtain ⟨hq, hcode⟩ := hunsent.resolve_left (absurd hrem)
    have hq := List.length_pos_of_ne_nil hq
    rcases buildPayload_cases s b c with ⟨_, e⟩ | ⟨hwait, e⟩
    · have hdone := placeCodewords_done (p := s.params) (b := b) (cap := frameCapacity s b) hk s.txq.length
        (placeRemnant (frameCapacity s b) (startBuild s)) (by rw [(placeRemnant_frame _ _).1]; rfl)
      rw [← e] at hdone
      omega
    · exact absurd ⟨e ▸ hrem, hcode⟩ hwait
  · have := h.full hrem
    omega

end Sys2Proof.Machine
end

section
/-!
# What TX_BUILD answers (R182 to R191)

A build from a good state completes; its header fields, counters and windows; the stream, the filled frame, the code
change and the progress of a build, all read off from `Carries`; and the run of builds that drains the transmitter.
-/

namespace Sys2Proof.Machine

/-! ## A build from a good state completes (R38, R50, R182) -/

/-- MCS names a modulation (R38). -/
theorem mcsMod_range {s : State} (hi : Inv s) : 1 ≤ s.mcsMod.toNat ∧ s.mcsMod.toNat ≤ 4 := (legalMcs_iff.1 hi.mcs).1

/-- The pending remnant is as R50 says. -/
theorem remnantOk_of_rem {s : State} (hi : Inv s) {r : Remnant} (hr : s.rem = some r) :
    remnantOk s.params r = true := by
  simpa [hr] using hi.rem

/-- The frame's code is in the code table (R38, R50, R188). -/
theorem exists_code?_frameCode {s : State} (hi : Inv s) (hf : s.params.fecEn = true) :
    ∃ c, code? s.params (frameCode s) = some c := by
  cases hr : s.rem with
  | none =>
    have hcode := (legalMcs_iff.1 hi.mcs).2
    rw [if_pos hf] at hcode
    simpa [frameCode, hr] using Option.isSome_iff_exists.1 (code?_isSome_iff.2 hcode)
  | some r =>
    obtain ⟨c, hc, _⟩ := remnantOk_iff.1 (remnantOk_of_rem hi hr)
    exact ⟨c, by simpa [frameCode, hr] using hc⟩

/-- TX_BUILD builds a frame of the modulation's bits per symbol and the frame's code (R182). -/
theorem exec_txBuild {s : State} (hi : Inv s) (hf : s.params.fecEn = true) {c : Code}
    (hc : code? s.params (frameCode s) = some c) : exec .txBuild s = .next (buildFrame s s.mcsMod.toNat c) := by
  have hb : bps? s.mcsMod = some s.mcsMod.toNat := bps?_some.2 ⟨rfl, mcsMod_range hi⟩
  simp [exec, execTxBuild, hf, hb, hc]

/-- A frame holds at least one symbol (R39, R183). -/
theorem le_frameCapacity {s : State} (hi : Inv s) (b : Nat) : b ≤ frameCapacity s b := by
  have hnc := (paramsWf_good hi.params).nc.1
  have hl := (legalFlen_iff.1 hi.flen).1
  exact Nat.le_mul_of_pos_left b (Nat.mul_pos hl hnc)

/-! ## The header fields (R182, R184, R189) -/

/-- `ceil_div(a, b)` is the number of symbols that `a` bits need (R11). -/
theorem ceilDiv_eq {a b n : Nat} (hb : 1 ≤ b) (hle : a ≤ n * b) (hlt : n * b < a + b) : ceilDiv a b = n := by
  obtain ⟨h1, h2⟩ := ceilDiv_spec a hb
  have hup : ceilDiv a b * b < (n + 1) * b := by rw [Nat.succ_mul]; omega
  have hdown : n * b < (ceilDiv a b + 1) * b := by rw [Nat.succ_mul]; omega
  have := Nat.lt_of_mul_lt_mul_right hup
  have := Nat.lt_of_mul_lt_mul_right hdown
  omega

/-- Bits that fit into `n` symbols need at most `n` (R11). -/
theorem ceilDiv_le {a b n : Nat} (hb : 1 ≤ b) (hle : a ≤ n * b) : ceilDiv a b ≤ n := by
  obtain ⟨_, h2⟩ := ceilDiv_spec a hb
  exact Nat.le_of_lt_succ (Nat.lt_of_mul_lt_mul_right (a := b) (by rw [Nat.succ_mul]; omega))

/-- PLEN counts the payload's symbols; it fits its field (R39, R189). -/
theorem toNat_buildFrame_plen {s : State} (hi : Inv s) {b : Nat} (hb : 1 ≤ b) (c : Code) :
    (buildFrame s b c).txh.plen.toNat = ceilDiv (buildPayload s b c).out.length b ∧
      (buildFrame s b c).txh.plen.toNat ≤ s.flen.toNat * s.params.nc := by
  have hle : ceilDiv (buildPayload s b c).out.length b ≤ s.flen.toNat * s.params.nc :=
    ceilDiv_le hb (length_buildPayload_le s b c)
  have hfit : s.flen.toNat * s.params.nc < 2 ^ 16 := by
    have := (legalFlen_iff.1 hi.flen).2.2.2
    omega
  have heq : (buildFrame s b c).txh.plen.toNat = ceilDiv (buildPayload s b c).out.length b :=
    (BitVec.toNat_ofNat _ _).trans (Nat.mod_eq_of_lt (by omega))
  exact ⟨heq, heq ▸ hle⟩

/-- TX_PBITS counts the payload's bits with their fill (R54, R189). -/
theorem toNat_buildFrame_txPbits {s : State} (hi : Inv s) {b : Nat} (hb : 1 ≤ b ∧ b ≤ 4) (c : Code) :
    (buildFrame s b c).txPbits.toNat = ceilDiv (buildPayload s b c).out.length b * b := by
  have := ceilDiv_buildPayload_le hi.flen hb c
  exact (BitVec.toNat_ofNat _ _).trans (Nat.mod_eq_of_lt (by omega))

/-- A count below a power of two of at most 16 bits is a 16-bit field's value. -/
theorem toNat_ofNat_of_lt_pow {w n : Nat} (hw : w ≤ 16) (h : n < 2 ^ w) : (BitVec.ofNat 16 n).toNat = n := by
  have : 2 ^ w ≤ 2 ^ 16 := Nat.pow_le_pow_right (by omega) hw
  exact (BitVec.toNat_ofNat _ _).trans (Nat.mod_eq_of_lt (by omega))

/-- SHORT counts the zeros of the last info word; it fits its field (R9, R186). -/
theorem toNat_buildFrame_short {s : State} (hi : Inv s) (hf : s.params.fecEn = true) {b : Nat} {c : Code}
    (hc : code? s.params (frameCode s) = some c) {infos : List Bits}
    (h : Carries s b c infos (buildPayload s b c)) :
    (buildFrame s b c).txh.short.toNat = (buildPayload s b c).short ∧
      (buildFrame s b c).txh.short.toNat < 2 ^ s.params.wShort := by
  obtain ⟨_, _, _, hshort, _⟩ := code?_legal hi.params hf hc
  have hlt := h.short_lt.trans_le hshort
  have heq : (buildFrame s b c).txh.short.toNat = (buildPayload s b c).short :=
    toNat_ofNat_of_lt_pow (paramsWf_good hi.params).wShort.2 hlt
  exact ⟨heq, heq ▸ hlt⟩

/-- CWID, OFF and FEC under a pending remnant are the remnant's; they fit their fields (R50, R184). -/
theorem buildFrame_leading_of_some {s : State} (hi : Inv s) (hf : s.params.fecEn = true) (b : Nat) (c : Code)
    {r : Remnant} (hr : s.rem = some r) :
    (buildFrame s b c).txh.cwid = r.id ∧ (buildFrame s b c).txh.off.toNat = r.off ∧
      (buildFrame s b c).txh.fec = r.fec ∧ r.id.toNat < 2 ^ s.params.wCwid ∧ r.off < 2 ^ s.params.wOff := by
  obtain ⟨c', hc', hbits, hoff, hn, hid⟩ := remnantOk_iff.1 (remnantOk_of_rem hi hr)
  obtain ⟨_, _, hnoff, _⟩ := code?_legal hi.params hf hc'
  have hlt : r.off < 2 ^ s.params.wOff := by omega
  refine ⟨?_, ?_, ?_, hid, hlt⟩
  · simp [buildFrame, buildHeader, leadingCodeword, hr]
  · simpa [buildFrame, buildHeader, leadingCodeword, hr] using
      toNat_ofNat_of_lt_pow (paramsWf_good hi.params).wOff.2 hlt
  · simp [buildFrame, buildHeader, frameCode, hr]

/-- CWID, OFF and FEC without a remnant are those of the next codeword (R184). -/
theorem buildFrame_leading_of_none {s : State} (b : Nat) (c : Code) (hr : s.rem = none) :
    (buildFrame s b c).txh.cwid = s.nextCwId ∧ (buildFrame s b c).txh.off = 0 ∧
      (buildFrame s b c).txh.fec = s.mcsFec := by
  simp [buildFrame, buildHeader, leadingCodeword, frameCode, hr]

/-- Every field of a build's header fits its width (R182). -/
theorem headerFits_buildFrame {s : State} (hi : Inv s) (hf : s.params.fecEn = true) {b : Nat} (hb : 1 ≤ b) {c : Code}
    (hc : code? s.params (frameCode s) = some c) {infos : List Bits}
    (h : Carries s b c infos (buildPayload s b c)) : headerFits s.params (buildFrame s b c).txh = true := by
  obtain ⟨_, hflen, hsymbols, _⟩ := legalFlen_iff.1 hi.flen
  refine headerFits_iff.2 ⟨(toNat_buildFrame_plen hi hb c).2.trans_lt hsymbols, hi.frameNo, hflen, fun _ => ?_⟩
  have hshort := (toNat_buildFrame_short hi hf hc h).2
  cases hr : s.rem with
  | none =>
    obtain ⟨hcwid, hoff, _⟩ := buildFrame_leading_of_none b c hr
    exact ⟨hcwid ▸ hi.nextCwId, hoff ▸ Nat.two_pow_pos _, hshort⟩
  | some r =>
    obtain ⟨hcwid, hoff, _, hid, hlt⟩ := buildFrame_leading_of_some hi hf b c hr
    exact ⟨hcwid ▸ hid, hoff ▸ hlt, hshort⟩

/-- The counter of empty builds saturates, and returns to 0 after any other build (R190). -/
theorem toNat_nextEmptyCount (s : State) :
    (nextEmptyCount s).toNat = if s.txq.length < s.floor.toNat then min (s.emptyCount.toNat + 1) 0xFFFF else 0 := by
  unfold nextEmptyCount buildIsEmpty
  by_cases h : s.txq.length < s.floor.toNat
  · simp only [h, decide_true, if_true, BitVec.toNat_ofNat]; omega
  · simp [h]

/-! ## The output windows (R182, R189) -/

/-- HDR_OUT holds the header of the build (R148, R182). -/
theorem readBit_hdrOut_buildFrame (s : State) (b : Nat) (c : Code) {j : Nat} (hj : j < 256) :
    readBit (buildFrame s b c).mem hdrOutBase j =
      (headerBits s.params (headerSeed s) (buildFrame s b c).txh).getD j false := by
  refine (readBit_hdrOut_congr (fun a ha => readByte_writePayloadOut ?_ _ _) hj).trans (readBit_writeHdrOut s.mem _ hj)
  unfold InHdrOut at ha
  unfold InPayloadOut
  omega

/-- PAYLOAD_OUT holds the codeword bits of the build, then 0 (R189). -/
theorem readBit_payloadOut_buildFrame (s : State) {b : Nat} (hb : 1 ≤ b) (c : Code) {j : Nat} (hj : j < 32768) :
    readBit (buildFrame s b c).mem payloadOutBase j = (buildPayload s b c).out.getD j false := by
  have hlen := (ceilDiv_spec (buildPayload s b c).out.length hb).1
  refine (readBit_writeBits _ payloadOutBase Config.pmaxBits _ hj).trans ?_
  rw [payloadBits, getD_fitLen]
  split
  · rfl
  · rw [List.getD_eq_default _ _ (by omega)]

/-- A build changes no byte outside the two output windows (R182). -/
theorem sameBytes_buildFrame (s : State) (b : Nat) (c : Code) :
    SameBytes (fun a => ¬InHdrOut a ∧ ¬InPayloadOut a) s.mem (buildFrame s b c).mem :=
  fun _ ⟨hhdr, hpayload⟩ => (readByte_writePayloadOut hpayload _ _).trans (readByte_writeHdrOut hhdr _ _)

/-! ## The statements about one build -/

/-- Settles O18: every clause is a fact about `buildFrame`. -/
theorem txBuildWritesHeaderAndCounters : Obligations.TxBuildWritesHeaderAndCounters := by
  intro s hi hf
  obtain ⟨c, hc⟩ := exists_code?_frameCode hi hf
  have hb := mcsMod_range hi
  obtain ⟨infos, h⟩ := exists_carries_buildPayload hi hb.1 (code?_legal hi.params hf hc).1
  obtain ⟨hplen, hsymbols⟩ := toNat_buildFrame_plen hi hb.1 c
  refine ⟨_, exec_txBuild hi hf hc, toNat_incMod _ (paramsWf_good hi.params).wSeq.2, toNat_nextEmptyCount s,
    ⟨rfl, rfl, rfl, rfl, rfl⟩, fun r hr => ?_, buildFrame_leading_of_none _ c, hsymbols,
    (toNat_buildFrame_txPbits hi hb c).trans (by rw [hplen]), headerFits_buildFrame hi hf hb.1 hc h,
    fun j => readBit_hdrOut_buildFrame s _ c, (outputTailsZero_buildFrame hi hb c).2, sameBytes_buildFrame s _ c, rfl⟩
  obtain ⟨hcwid, hoff, hfec, _⟩ := buildFrame_leading_of_some hi hf s.mcsMod.toNat c hr
  exact ⟨hcwid, hoff, hfec⟩

/-- Settles O19: the info words, the stream and the counter are those of `Carries`, the payload window is read bit by
bit. -/
theorem txBuildSendsTheCodewordStream : Obligations.TxBuildSendsTheCodewordStream := by
  intro s hi hf
  obtain ⟨c, hc⟩ := exists_code?_frameCode hi hf
  have hb := mcsMod_range hi
  obtain ⟨infos, h⟩ := exists_carries_buildPayload hi hb.1 (code?_legal hi.params hf hc).1
  obtain ⟨hfill, hless⟩ := ceilDiv_spec (buildPayload s s.mcsMod.toNat c).out.length hb.1
  have hshort := (toNat_buildFrame_short hi hf hc h).1
  refine ⟨_, exec_txBuild hi hf hc, c, infos, (buildPayload s s.mcsMod.toNat c).out, hc, h.lengths,
    h.stream.trans (by rw [remnantBits_eq]; rfl), hshort ▸ h.queue, hshort ▸ h.shortened, hshort ▸ h.short_lt,
    fun hnil => ?_, h.nextCwId, ?_, ?_, fun j => readBit_payloadOut_buildFrame s hb.1 c⟩
  · exact BitVec.eq_of_toNat_eq (hshort.trans (h.short_of_nil hnil))
  · rw [toNat_buildFrame_txPbits hi hb]; exact hfill
  · rw [toNat_buildFrame_txPbits hi hb]; exact hless

/-- Settles O20: less than a symbol of the frame is left, and the capacity is a whole number of symbols. -/
theorem txBuildFillsTheFrame : Obligations.TxBuildFillsTheFrame := by
  intro s t hi hf ht hunsent
  obtain ⟨c, hc⟩ := exists_code?_frameCode hi hf
  have hb := mcsMod_range hi
  have hk := (code?_legal hi.params hf hc).1
  obtain ⟨infos, h⟩ := exists_carries_buildPayload hi hb.1 hk
  obtain rfl := Host.Outcome.next.inj ((exec_txBuild hi hf hc).symm.trans ht)
  rw [(toNat_buildFrame_plen hi hb.1 c).1]
  exact ceilDiv_eq hb.1 (length_buildPayload_le s _ c) (capacity_lt_of_unsent hb.1 hk h hunsent)

/-- The remnant's part drops from the remnant what the frame holds (R185). -/
theorem pendingBits_placeRemnant (cap : Nat) (a : BuildAcc) :
    pendingBits (placeRemnant cap a).rem = (pendingBits a.rem).drop cap := by
  rcases placeRemnant_cases cap a with ⟨hr, e⟩ | ⟨r, hr, ⟨hle, e⟩ | ⟨_, e⟩⟩ <;> simp [e, hr]
  exact hle

/-- Settles O21: no new codeword may begin, so the build is the remnant's part. -/
theorem codeChangeWaitsForTheRemnant : Obligations.CodeChangeWaitsForTheRemnant := by
  intro s r hi hf hr hcode
  obtain ⟨c, hc⟩ := exists_code?_frameCode hi hf
  have hfec : frameCode s = r.fec := by simp [frameCode, hr]
  have hpayload : buildPayload s s.mcsMod.toNat c = placeRemnant (frameCapacity s s.mcsMod.toNat) (startBuild s) :=
    ((buildPayload_cases s _ c).resolve_left fun ⟨⟨_, h⟩, _⟩ => hcode (hfec.symm.trans h)).2
  obtain ⟨htxq, hnext, hshort⟩ := placeRemnant_frame (frameCapacity s s.mcsMod.toNat) (startBuild s)
  rw [← hpayload] at htxq hnext hshort
  refine ⟨_, exec_txBuild hi hf hc, htxq, hnext, hfec, rfl, congrArg (BitVec.ofNat 16) hshort, ?_⟩
  calc remnantBits (buildFrame s s.mcsMod.toNat c)
      = pendingBits (buildPayload s s.mcsMod.toNat c).rem := remnantBits_eq _
    _ = (pendingBits s.rem).drop (frameCapacity s s.mcsMod.toNat) := by rw [hpayload, pendingBits_placeRemnant]; rfl
    _ = r.bits.drop (s.flen.toNat * s.params.nc * s.mcsMod.toNat) := by rw [hr]; rfl

/-! ## Progress (R191) -/

/-- Encoding a codeword takes bits from the queue (R186). -/
theorem Carries.txq_length_lt {s : State} {b : Nat} {c : Code} {infos : List Bits} {a : BuildAcc}
    (h : Carries s b c infos a) (hne : infos ≠ []) : a.txq.length < s.txq.length := by
  have hsum : s.txq.length + a.short = infos.flatten.length + a.txq.length := by
    simpa using congrArg List.length h.queue
  obtain ⟨x, rest, rfl⟩ := List.exists_cons_of_ne_nil hne
  have hx := h.lengths x List.mem_cons_self
  rw [List.flatten_cons, List.length_append] at hsum
  have := h.short_lt
  omega

/-- A pending remnant has a bit, and fewer than the largest code has (R9, R50). -/
theorem length_remnantBits_of_some {s : State} (hi : Inv s) (hf : s.params.fecEn = true) {r : Remnant}
    (hr : s.rem = some r) : 1 ≤ (remnantBits s).length ∧ (remnantBits s).length ≤ 65536 := by
  obtain ⟨c, hc, hbits, hoff, hn, _⟩ := remnantOk_iff.1 (remnantOk_of_rem hi hr)
  obtain ⟨_, _, hnoff, _⟩ := code?_legal hi.params hf hc
  have : 2 ^ s.params.wOff ≤ 2 ^ 16 := Nat.pow_le_pow_right (by omega) (paramsWf_good hi.params).wOff.2
  rw [remnantBits_eq, hr, pendingBits_some]
  omega

/-- A build that encodes nothing leaves the queue, and sends a first part of the remnant (R185). -/
theorem Carries.of_nil {s : State} {b : Nat} {c : Code} {a : BuildAcc} (h : Carries s b c [] a) :
    a.txq = s.txq ∧ remnantBits s = a.out ++ pendingBits a.rem := by
  have hqueue := h.queue
  rw [h.short_of_nil rfl] at hqueue
  exact ⟨by simpa [zeros] using hqueue.symm, by simpa using h.stream⟩

/-- A build that encodes nothing though there is something to send sends a bit of the remnant: a payload without bits
would leave the whole frame unused (R187, R191). -/
theorem out_length_pos_of_nil {s : State} (hi : Inv s) (hf : s.params.fecEn = true) {b : Nat} (hb : 1 ≤ b) {c : Code}
    (hk : 1 ≤ c.k) (h : Carries s b c [] (buildPayload s b c)) (hsend : s.txq ≠ [] ∨ s.rem ≠ none) :
    0 < (buildPayload s b c).out.length := by
  obtain ⟨hqueue, hstream⟩ := h.of_nil
  by_contra hout
  have hout := List.eq_nil_of_length_eq_zero (Nat.eq_zero_of_not_pos hout)
  have hunsent : (buildPayload s b c).rem ≠ none ∨ ((buildPayload s b c).txq ≠ [] ∧ frameCode s = s.mcsFec) := by
    cases hr : s.rem with
    | none => exact .inr ⟨hqueue ▸ hsend.resolve_right (not_not.2 hr), by simp [frameCode, hr]⟩
    | some r =>
      refine .inl fun hnone => ?_
      have hpos := (length_remnantBits_of_some hi hf hr).1
      simp [hstream, hout, hnone] at hpos
  have hfull := capacity_lt_of_unsent hb hk h hunsent
  have hroom := le_frameCapacity hi b
  rw [hout, List.length_nil] at hfull
  omega

/-- With anything to send a build encodes queued bits, or sends bits of the remnant (R191). -/
theorem buildFrame_progress {s : State} (hi : Inv s) (hf : s.params.fecEn = true) {c : Code}
    (hc : code? s.params (frameCode s) = some c) (hsend : s.txq ≠ [] ∨ s.rem ≠ none) {t : State}
    (ht : t = buildFrame s s.mcsMod.toNat c) :
    t.txq.length < s.txq.length ∨ (t.txq = s.txq ∧ (remnantBits t).length < (remnantBits s).length) := by
  have hb := mcsMod_range hi
  have hk := (code?_legal hi.params hf hc).1
  obtain ⟨infos, h⟩ := exists_carries_buildPayload hi hb.1 hk
  have htxq : t.txq = (buildPayload s s.mcsMod.toNat c).txq := by rw [ht]; rfl
  by_cases hnil : infos = []
  · subst hnil
    obtain ⟨hqueue, hstream⟩ := h.of_nil
    have hsent := out_length_pos_of_nil hi hf hb.1 hk h hsend
    have hrem : remnantBits t = pendingBits (buildPayload s s.mcsMod.toNat c).rem := by rw [ht, remnantBits_eq]; rfl
    refine .inr ⟨htxq.trans hqueue, ?_⟩
    rw [hstream, hrem, List.length_append]
    omega
  · exact .inl (htxq ▸ h.txq_length_lt hnil)

/-- Settles O22: the build's state is `buildFrame`. -/
theorem txBuildMakesProgress : Obligations.TxBuildMakesProgress := by
  intro s t hi hf ht hsend
  obtain ⟨c, hc⟩ := exists_code?_frameCode hi hf
  exact buildFrame_progress hi hf hc hsend (Host.Outcome.next.inj (ht.symm.trans (exec_txBuild hi hf hc)))

/-! ## Draining (R191) -/

/-- What is left to send, so weighted that every build with anything to send lowers it: a queued bit outweighs every
remnant that its codeword can leave. -/
def unsent (s : State) : Nat := s.txq.length * 65537 + (remnantBits s).length

/-- A remnant has fewer bits than the weight of a queued bit in `unsent` (R9, R50). -/
theorem remnantBits_length_le {s : State} (hi : Inv s) (hf : s.params.fecEn = true) :
    (remnantBits s).length ≤ 65536 := by
  cases hr : s.rem with
  | none => simp [remnantBits_eq, hr]
  | some r => exact (length_remnantBits_of_some hi hf hr).2

/-- A build with anything to send lowers what is left (R191). -/
theorem unsent_buildFrame_lt {s : State} (hi : Inv s) (hf : s.params.fecEn = true) {c : Code}
    (hc : code? s.params (frameCode s) = some c) (hsend : s.txq ≠ [] ∨ s.rem ≠ none) :
    unsent (buildFrame s s.mcsMod.toNat c) < unsent s := by
  have hle := remnantBits_length_le (inv_buildFrame hi hf (mcsMod_range hi) hc) hf
  unfold unsent
  rcases buildFrame_progress hi hf hc hsend rfl with hlt | ⟨heq, hlt⟩
  · omega
  · rw [heq]; omega

/-- A run goes on from the next state of its first step. -/
theorem run_succ_of_step {M : Host.Core} {s t : M.State} (h : M.step s = .next t) (n : Nat) :
    M.run (n + 1) s = M.run n t := by
  rw [Host.Core.run, h]

/-- A step whose oldest access is TX_BUILD builds a frame and leaves the other accesses (R92). -/
theorem step_txBuild {s : State} (hi : Inv s) (hf : s.params.fecEn = true) {c : Code}
    (hc : code? s.params (frameCode s) = some c) (bus : List BusAccess) :
    step { s with bus := encode .txBuild :: bus } = .next { buildFrame s s.mcsMod.toNat c with bus := bus } := by
  rw [step_of_bus (s := { s with bus := encode .txBuild :: bus }) rfl, decodeAccess_encode (i := .txBuild) rfl]
  exact exec_txBuild (inv_host hi bus s.rdata) hf hc

/-- Builds run until nothing is left to send, by induction on what is left. -/
theorem exists_run_drained (s : State) (hi : Inv s) (hf : s.params.fecEn = true) :
    ∃ n t, n ≤ unsent s ∧
      Sys2Proof.core.run n { s with bus := List.replicate n (encode .txBuild) } = .next t ∧ t.txq = [] ∧
        t.rem = none := by
  induction hm : unsent s using Nat.strong_induction_on generalizing s with
  | _ m ih =>
    by_cases hsend : s.txq ≠ [] ∨ s.rem ≠ none
    · obtain ⟨c, hc⟩ := exists_code?_frameCode hi hf
      have hlt := unsent_buildFrame_lt hi hf hc hsend
      obtain ⟨n, t, hn, hrun, hdrained⟩ := ih _ (hm ▸ hlt) (buildFrame s s.mcsMod.toNat c)
        (inv_buildFrame hi hf (mcsMod_range hi) hc) hf rfl
      exact ⟨n + 1, t, by omega, (run_succ_of_step (step_txBuild hi hf hc _) n).trans hrun, hdrained⟩
    · obtain ⟨hq, hr⟩ := not_or.1 hsend
      exact ⟨0, _, Nat.zero_le _, rfl, not_not.1 hq, not_not.1 hr⟩

/-- Settles O23: the bound is `unsent`. -/
theorem txQueueDrains : Obligations.TxQueueDrains := exists_run_drained

end Sys2Proof.Machine
end

section
/-!
# A link over codewords shorter than a symbol (R182, R189, R213, R221; log 14)
-/

namespace Sys2Proof.Machine

/-- A code of one bit: `Encode(x) = x`, decoded by the sample's sign. -/
def oneBitCode : Code where
  id := 1
  k := 1
  n := 1
  enc := [.input 0]
  decOk := .const true
  decInfo := [.input 7]

/-- Configuration F with the one-bit code alone: in QPSK a symbol holds two of its codewords. -/
def oneBitParams : Params := { Config.configF with codes := [oneBitCode] }

/-- Four bits pushed and sent in one frame. -/
def fourBitsSent : List LinkEvent := [.push 0xF0 4, .build]

/-- The transmitter sends the four one-bit codewords in two symbols and is drained; of these four samples the receiver
begins no codeword at the last, which is less than a symbol (R213), and gives back three bits. -/
theorem linkRun_fourBitsSent :
    (linkRun fourBitsSent
      ({ State.resetWith oneBitParams with scrEn := false }, { State.resetWith oneBitParams with scrEn := false })).map
        (fun l => (l.1.err, l.1.txq, l.1.rem, l.2.rxq)) = some (0, [], none, [true, true, true]) := by
  decide +kernel

/-- The one-bit code is a code of R9, so the link is one of R221's. -/
theorem oneBitParams_wf : paramsWf oneBitParams = true := by decide +kernel

/-- Refutes O53: the link of `linkRun_fourBitsSent` loses the fourth of the bits pushed. -/
theorem not_linkReturnsTheBitsPushedForEveryCode : ¬ Obligations.LinkReturnsTheBitsPushedForEveryCode := by
  intro hlink
  obtain ⟨⟨T, R⟩, hrun, hend⟩ := Option.map_eq_some_iff.1 linkRun_fourBitsSent
  obtain ⟨herr, htxq, hrem, hrxq⟩ : T.err = 0 ∧ T.txq = [] ∧ T.rem = none ∧ R.rxq = [true, true, true] := by
    simpa using hend
  have hpushed : pushedBits fourBitsSent = [true, true, true, true] := by decide
  have hall := (hlink oneBitParams false fourBitsSent T R oneBitParams_wf rfl (by rw [hpushed]; decide)
    (by rw [hpushed]; decide) hrun (by rw [herr]; rfl) (by rw [herr]; rfl) htxq hrem).1
  rw [hrxq, hpushed] at hall
  exact absurd hall (by decide)

end Sys2Proof.Machine
end

section
/-!
# What the receiver's commands answer (R211, R218 to R220)

RX_POP and CWREP_POP in full, and what RX_FRAME refuses: a missing header, and one with a field out of range.
-/

namespace Sys2Proof.Machine

/-! ## RX_POP (R219) -/

/-- The value of a bit string as the sum of its bits' places, most significant first (R12). -/
theorem val_eq_sum (s : Bits) :
    val s = ((List.range s.length).map fun j => (s.getD j false).toNat * 2 ^ (s.length - 1 - j)).sum := by
  induction s using List.reverseRecOn with
  | nil => rfl
  | append_singleton s b ih =>
    have places : ∀ j ∈ List.range s.length,
        ((s ++ [b]).getD j false).toNat * 2 ^ (s.length - j) =
          2 * ((s.getD j false).toNat * 2 ^ (s.length - 1 - j)) := by
      intro j hj
      have hlt : j < s.length := List.mem_range.1 hj
      rw [List.getD_append _ _ _ _ hlt, show s.length - j = s.length - 1 - j + 1 by omega, Nat.pow_succ]
      ring
    rw [val_append_singleton, ih, List.length_append, List.length_singleton, List.range_succ, List.map_append,
      List.sum_append, Nat.add_sub_cancel, List.map_congr_left places, List.sum_map_mul_left]
    simp

/-- RXOUT holds the popped bits from bit 7 down, and their number from bit 8 up (R59, R219). -/
theorem rxoutWord_take (q : Bits) {m : Nat} (hm : m ≤ 8) (hq : m ≤ q.length) :
    rxoutWord (q.take m) =
      BitVec.ofNat 32 (((List.range m).map fun j => (q.getD j false).toNat * 2 ^ (7 - j)).sum + m * 2 ^ 8) := by
  have hlen : (q.take m).length = m := List.length_take_of_le hq
  have bits (j : Nat) (hj : j < 8) : (fitLen 8 (q.take m)).getD j false = if j < m then q.getD j false else false := by
    rw [getD_fitLen, if_pos hj]
    split
    · next hjm => rw [List.getD_eq_getElem?_getD, List.getElem?_take_of_lt hjm, ← List.getD_eq_getElem?_getD]
    · next hjm => exact List.getD_eq_default _ _ (by omega)
  have hval : val (fitLen 8 (q.take m)) = ((List.range m).map fun j => (q.getD j false).toNat * 2 ^ (7 - j)).sum := by
    rw [val_eq_sum, length_fitLen, show 8 = m + (8 - m) by omega, List.range_add, List.map_append, List.sum_append,
      List.map_map]
    have high : ∀ j ∈ List.range (8 - m), ((fun j => ((fitLen (m + (8 - m)) (q.take m)).getD j false).toNat *
        2 ^ (m + (8 - m) - 1 - j)) ∘ (m + ·)) j = 0 := by
      intro j hj
      have hlt := List.mem_range.1 hj
      simp only [Function.comp_apply, show m + (8 - m) = 8 by omega]
      rw [bits _ (by omega), if_neg (by omega)]
      simp
    rw [List.map_congr_left high, List.map_const', List.sum_replicate, smul_zero, Nat.add_zero]
    refine congrArg List.sum (List.map_congr_left fun j hj => ?_)
    have hlt := List.mem_range.1 hj
    rw [show m + (8 - m) = 8 by omega, bits j (by omega), if_pos hlt]
  rw [rxoutWord, hval, hlen, show (256 : Nat) = 2 ^ 8 from rfl]

/-- A count is legal in 1..8 (R112). -/
theorem cntLegal_iff {cnt : BitVec 4} : cntLegal cnt = true ↔ ¬(cnt.toNat < 1 ∨ 8 < cnt.toNat) := by
  simp only [cntLegal, Bool.and_eq_true, decide_eq_true_eq]; omega

/-- Settles O38: the word's fields decode to the pop, and the pop answers its three cases in the order of R219. -/
theorem rxPopTakesBitsIntoRxout : Obligations.RxPopTakesBitsIntoRxout := by
  refine ⟨fun w hop hdata hrsv => ?_, fun cnt s => ?_⟩
  · have hw : w = fieldsWord (cntField w) 0 0x31 := by
      rw [← show opField w = 0x31 from hop, ← show dataField w = 0 from hdata]; exact eq_fieldsWord hrsv
    exact (congrArg decodeCommand hw).trans (decodeCommand_rxPop _)
  · intro m
    rw [exec]
    rcases execRxPop_cases cnt s with ⟨hf, e⟩ | ⟨hf, hcnt, e⟩ | ⟨hf, hcnt, e⟩ <;> rw [e]
    · rw [if_pos hf, raise_eq_recorded, causeCode]
    · have hbad : cnt.toNat < 1 ∨ 8 < cnt.toNat := by by_contra h; simp [cntLegal_iff.2 h] at hcnt
      rw [if_neg (by simp [hf]), if_pos hbad, raise_eq_recorded, causeCode]
    · have hgood := cntLegal_iff.1 hcnt
      have htake : s.rxq.take cnt.toNat = s.rxq.take m := (List.take_eq_take_min ..)
      have hdrop : s.rxq.drop cnt.toNat = s.rxq.drop m := (List.drop_eq_drop_min ..)
      rw [if_neg (by simp [hf]), if_neg hgood, htake, hdrop, rxoutWord_take s.rxq (by omega) (by omega)]

/-! ## CWREP_POP (R220) -/

/-- CWREP: the id, the status code from bit 16 up, and VALID at bit 19 (R60, R220). -/
theorem cwrepWord_eq (e : Report) :
    cwrepWord e =
      e.id.setWidth 32 ||| BitVec.ofNat 32 ((statusCode e.status).toNat <<< 16) ||| BitVec.twoPow 32 19 := by
  refine BitVec.eq_of_getLsbD_eq fun i hi => ?_
  simp only [cwrepWord, BitVec.getLsbD_or, BitVec.getLsbD_append, BitVec.getLsbD_setWidth, BitVec.getLsbD_ofNat,
    Nat.testBit_shiftLeft, BitVec.testBit_toNat, BitVec.getLsbD_twoPow, hi, decide_true, Bool.true_and]
  have hid (h : 16 ≤ i) : e.id.getLsbD i = false := BitVec.getLsbD_of_ge _ i h
  have hstatus (h : 18 ≤ i) : (statusCode e.status).getLsbD (i - 16) = false :=
    BitVec.getLsbD_of_ge _ (i - 16) (by omega)
  grind

/-- Settles O39: an empty queue and the oldest report are the cases of the command, after the link kind. -/
theorem cwrepPopTakesTheOldestReport : Obligations.CwrepPopTakesTheOldestReport := by
  refine ⟨by decide, fun s => ?_⟩
  rw [exec]
  rcases execCwrepPop_cases s with ⟨hf, e⟩ | ⟨hf, hrep, e⟩ | ⟨r, rest, hf, hrep, e⟩ <;> rw [e]
  · rw [if_pos hf, raise_eq_recorded, causeCode]
  · rw [if_neg (by simp [hf]), hrep]
  · rw [if_neg (by simp [hf]), hrep, cwrepWord_eq]
    obtain ⟨id, status, nbits⟩ := r
    cases status <;> rfl

/-! ## What RX_FRAME refuses (R211, R218) -/

/-- Settles O31: the check of `hdrValid` comes right after the link kind. -/
theorem rxFrameNeedsAValidHeader : Obligations.RxFrameNeedsAValidHeader := by
  intro s hf hvalid
  rw [exec]
  rcases execRxFrame_cases s with ⟨hno, _⟩ | ⟨_, _, e⟩ | ⟨_, hv, _⟩ | ⟨_, _, _, hv, _⟩
  · exact absurd hf (by simp [hno])
  · rw [e, raise_eq_recorded, causeCode]
  · exact absurd hvalid (by simp [hv])
  · exact absurd hvalid (by simp [hv])

end Sys2Proof.Machine
end

section
/-!
# A deframing in closed form (R212 to R217, R277)

What RX_FRAME gives, written with the words of the statements: the result of the leading codeword, and one result for
each new codeword by its number. The causes of a frame are those of its reports.
-/

namespace Sys2Proof.Machine

/-! ## Bits and reports determine a result -/

/-- The cause that a report comes with: none for OK, CW_FAIL for a failed codeword, CW_LOST for a lost one. -/
def reportCause (e : Report) : Option Cause :=
  match e.status with
  | .ok => none
  | .failDropped => some .cwFail
  | .failFlagged => some .cwFail
  | .lost => some .cwLost

/-- A deframing's result whose causes are those of its reports (R215, R216). -/
def resultOf (out : Bits) (reps : List Report) (part : Option Partial) : RxAcc where
  out := out
  reps := reps
  causes := reps.filterMap reportCause
  part := part

@[simp] theorem resultOf_out (out : Bits) (reps : List Report) (part : Option Partial) :
    (resultOf out reps part).out = out := rfl

@[simp] theorem resultOf_reps (out : Bits) (reps : List Report) (part : Option Partial) :
    (resultOf out reps part).reps = reps := rfl

@[simp] theorem resultOf_causes (out : Bits) (reps : List Report) (part : Option Partial) :
    (resultOf out reps part).causes = reps.filterMap reportCause := rfl

@[simp] theorem resultOf_part (out : Bits) (reps : List Report) (part : Option Partial) :
    (resultOf out reps part).part = part := rfl

/-- Decoding a codeword adds the bits and the report of `codewordResult` (R215). -/
theorem decodeInto_resultOf (s : State) (c : Code) (id : BitVec 16) (y : List Sample) (short : Nat) (out : Bits)
    (reps : List Report) (part : Option Partial) :
    decodeInto s.failFlag c id y short (resultOf out reps part) =
      resultOf (out ++ (codewordResult s c id y short).1) (reps ++ [(codewordResult s c id y short).2]) part := by
  rcases decodeInto_cases s.failFlag c id y short (resultOf out reps part) with
    ⟨hok, e⟩ | ⟨hok, hff, e⟩ | ⟨hok, hff, e⟩ <;> rw [e]
  · simp [codewordResult, hok, resultOf, reportCause]
  · simp [codewordResult, hok, hff, resultOf, reportCause]
  · simp [codewordResult, hok, hff, resultOf, reportCause]

/-- A lost codeword adds its report (R216). -/
theorem reportLost_resultOf (id : BitVec 16) (out : Bits) (reps : List Report) (part : Option Partial) :
    reportLost id (resultOf out reps part) = resultOf out (reps ++ [⟨id, .lost, 0⟩]) part := by
  simp [reportLost, resultOf, reportCause]

/-! ## The samples of a frame (R210) -/

/-- The samples of the frame (R210). -/
def frameTotal (s : State) : Nat := s.rxh.plen.toNat * s.rxh.mod.toNat

@[simp] theorem length_rxSamples (s : State) (pos len : Nat) : (rxSamples s pos len).length = len := by
  simp [rxSamples]

/-- A run of the frame's samples is a run of RX_SOFT (R210). -/
theorem take_drop_frameSamples (s : State) {pos len : Nat} (h : pos + len ≤ frameTotal s) :
    ((frameSamples s s.rxh.mod.toNat).drop pos).take len = rxSamples s pos len := by
  refine List.ext_getElem? fun j => ?_
  by_cases hj : j < len
  · have hin : pos + j < s.rxh.plen.toNat * s.rxh.mod.toNat := by unfold frameTotal at h; omega
    simp [frameSamples, readSamples, readSample, rxSamples, List.getElem?_take_of_lt hj, hj, hin, rxSoftBase]
  · rw [List.getElem?_eq_none (by simp; omega), List.getElem?_eq_none (by simpa using hj)]

@[simp] theorem length_frameSamples (s : State) :
    (frameSamples s s.rxh.mod.toNat).length = frameTotal s := length_readSamples ..

/-! ## The leading codeword (R212) -/

/-- A frame with `OFF = 0` loses a pending partial (R212). -/
theorem dropPartial_eq_leadingResult {s : State} (hoff : s.rxh.off = 0) (c : Code) (total : Nat) :
    dropPartial (resultOf [] [] s.part) =
      resultOf (leadingResult s c total).1 (leadingResult s c total).2.1 (leadingResult s c total).2.2 := by
  unfold dropPartial leadingResult
  cases hq : s.part with
  | none => simp [hoff]
  | some q =>
    simp only [resultOf_part, hoff, if_true, reportLost_resultOf]
    rfl

/-- A partial matches as R212 says. -/
theorem matchesPartial_iff {h : Header} {q : Partial} :
    matchesPartial h q = true ↔ q.id = h.cwid ∧ q.fec = h.fec ∧ q.y.length = h.off.toNat := by
  simp [matchesPartial, and_assoc]

/-- The leading codeword of a frame with `OFF > 0` (R212). -/
theorem continueCodeword_eq_leadingResult {s : State} (hoff : s.rxh.off ≠ 0) (c : Code) :
    continueCodeword s.failFlag c s.rxh (frameSamples s s.rxh.mod.toNat) (resultOf [] [] s.part) =
      resultOf (leadingResult s c (frameTotal s)).1 (leadingResult s c (frameTotal s)).2.1
        (leadingResult s c (frameTotal s)).2.2 := by
  have hhere : min (c.n - s.rxh.off.toNat) (frameTotal s) = c.n - s.rxh.off.toNat ↔
      c.n - s.rxh.off.toNat ≤ frameTotal s := min_eq_left_iff
  have htake {t : Nat} (ht : t ≤ frameTotal s) :
      (frameSamples s s.rxh.mod.toNat).take t = rxSamples s 0 t := by
    simpa using take_drop_frameSamples s (pos := 0) (len := t) (by omega)
  unfold continueCodeword leadingResult
  simp only [length_frameSamples, hhere, resultOf_part, hoff, if_false]
  cases hq : s.part with
  | none =>
    simp only
    split_ifs <;> simp [reportLost_resultOf]
  | some q =>
    simp only [← matchesPartial_iff]
    by_cases hmatch : matchesPartial s.rxh q = true
    · by_cases hend : c.n - s.rxh.off.toNat ≤ frameTotal s
      · simp only [hmatch, hend, if_true, Nat.min_eq_left, htake]
        exact decodeInto_resultOf s c q.id _ q.short [] [] none
      · simp only [hmatch, hend, if_true, if_false, Nat.min_eq_right (Nat.le_of_not_le hend), htake le_rfl]
        rfl
    · by_cases hsame : q.id = s.rxh.cwid <;> by_cases hend : c.n - s.rxh.off.toNat ≤ frameTotal s <;>
        simp only [hmatch, hsame, hend, if_true, if_false, reportLost_resultOf, Bool.false_eq_true] <;> rfl

/-! ## Where the new codewords begin (R213) -/

/-- How many new codewords begin from position `pos` on (R213). -/
def startCount (n b total pos : Nat) : Nat := if total - pos < b then 0 else (total - pos - b) / n + 1

/-- A codeword begins where at least `b` samples are left, and the others after it (R213). -/
theorem startCount_of_le {n b total pos : Nat} (hn : 1 ≤ n) (hb : 1 ≤ b) (h : b ≤ total - pos) :
    startCount n b total pos = startCount n b total (pos + min n (total - pos)) + 1 := by
  unfold startCount
  rw [if_neg (by omega)]
  by_cases hlast : total - pos < n + b
  · rw [if_pos (by omega), Nat.div_eq_of_lt (by omega)]
  · rw [if_neg (by omega), Nat.min_eq_left (by omega), show total - pos - b = total - (pos + n) - b + n by omega,
      Nat.add_div_right _ hn]

/-- A codeword that begins has `b` samples of the frame left (R213). -/
theorem start_le_of_lt_startCount {n b total pos i : Nat} (hb : 1 ≤ b) (h : i < startCount n b total pos) :
    b ≤ total - pos ∧ pos + i * n + b ≤ total := by
  unfold startCount at h
  split at h
  · omega
  · have := Nat.mul_le_of_le_div n i (total - pos - b) (Nat.le_of_lt_succ h)
    omega

/-- The new codewords begin at every `n` samples (R213). -/
theorem codewordStarts_eq {n b total : Nat} (hn : 1 ≤ n) (hb : 1 ≤ b) (fuel : Nat) {pos : Nat}
    (hfuel : total - pos ≤ fuel) :
    codewordStarts n b total fuel pos =
      (List.range (startCount n b total pos)).map fun i => (pos + i * n, min n (total - (pos + i * n))) := by
  induction fuel generalizing pos with
  | zero => simp [codewordStarts, startCount, show total - pos < b by omega]
  | succ fuel ih =>
    rw [codewordStarts]
    by_cases h : b ≤ total - pos
    · rw [if_pos h, startCount_of_le hn hb h, List.range_succ_eq_map, ih (by omega), List.map_cons, List.map_map]
      refine List.cons_eq_cons.2 ⟨by simp, List.map_congr_left fun i hi => ?_⟩
      obtain ⟨hroom, _⟩ := start_le_of_lt_startCount hb (List.mem_range.1 hi)
      have hwhole : min n (total - pos) = n := by omega
      simp only [Function.comp_apply, hwhole, Nat.succ_mul, Nat.add_assoc, Nat.add_comm n]
    · rw [if_neg h, startCount, if_pos (by omega)]
      rfl

/-! ## The new codewords (R213, R214) -/

/-- The result of the `i`-th of the whole codewords that begin from `pos` on, the first with id `id`. -/
def wholeResult (s : State) (c : Code) (pos : Nat) (id : BitVec 16) (short : Nat → Nat) (i : Nat) : Bits × Report :=
  codewordResult s c ((incMod s.params.wCwid)^[i] id) (rxSamples s (pos + i * c.n) c.n) (short i)

/-- A run of `m` whole codewords, before those in `rest`: SHORT goes to the last of the frame (R214). -/
theorem newCodewords_whole_append (s : State) (c : Code) (rest : List (Nat × Nat)) (m : Nat) {pos : Nat}
    (hin : ∀ i < m, pos + i * c.n + c.n ≤ frameTotal s) (id : BitVec 16) (out : Bits)
    (reps : List Report) (part : Option Partial) :
    let results := (List.range m).map
      (wholeResult s c pos id fun i => if i + 1 = m ∧ rest = [] then s.rxh.short.toNat else 0)
    newCodewords s.params s.failFlag c s.rxh (frameSamples s s.rxh.mod.toNat)
        ((List.range m).map (fun i => (pos + i * c.n, c.n)) ++ rest) id (resultOf out reps part) =
      newCodewords s.params s.failFlag c s.rxh (frameSamples s s.rxh.mod.toNat) rest
        ((incMod s.params.wCwid)^[m] id)
        (resultOf (out ++ results.flatMap (·.1)) (reps ++ results.map (·.2)) part) := by
  induction m generalizing pos id out reps with
  | zero => simp
  | succ m ih =>
    have hlast : ((List.range m).map (fun i => (pos + c.n + i * c.n, c.n)) ++ rest).isEmpty = true ↔
        0 + 1 = m + 1 ∧ rest = [] := by
      simp only [List.isEmpty_iff, List.append_eq_nil_iff, List.map_eq_nil_iff, List.range_eq_nil]
      exact and_congr_left fun _ => by omega
    have hnext (i : Nat) : pos + (i + 1) * c.n = pos + c.n + i * c.n := by rw [Nat.succ_mul]; omega
    have hhead : pos + c.n ≤ frameTotal s := by simpa using hin 0 (Nat.succ_pos m)
    have htail := ih (fun i hi => hnext i ▸ hin (i + 1) (by omega)) (incMod s.params.wCwid id)
    simp only [List.range_succ_eq_map, List.map_cons, List.map_map, List.cons_append, Function.comp_def,
      Nat.succ_eq_add_one, hnext, Nat.zero_mul, Nat.add_zero, newCodewords, if_true, hlast,
      take_drop_frameSamples s hhead, decodeInto_resultOf, htail, wholeResult,
      Function.iterate_succ_apply, Function.iterate_zero, id_eq, List.flatMap_cons, List.append_assoc,
      Nat.add_right_cancel_iff, List.nil_append, List.flatMap_map]

/-! ## The whole frame -/

/-- Where the new codewords of the frame begin (R212, R213). -/
def newPos (s : State) (c : Code) : Nat :=
  if s.rxh.off = 0 then 0 else min (c.n - s.rxh.off.toNat) (frameTotal s)

/-- How many new codewords begin in the frame (R213). -/
def newCount (s : State) (c : Code) : Nat := startCount c.n s.rxh.mod.toNat (frameTotal s) (newPos s c)

/-- The first sample of new codeword `i` (R213). -/
def newStart (s : State) (c : Code) (i : Nat) : Nat := newPos s c + i * c.n

/-- The id of the first new codeword (R212). -/
def firstNewId (s : State) : BitVec 16 :=
  if s.rxh.off = 0 then s.rxh.cwid else incMod s.params.wCwid s.rxh.cwid

/-- The id of new codeword `i` (R213). -/
def newId (s : State) (i : Nat) : BitVec 16 := (incMod s.params.wCwid)^[i] (firstNewId s)

/-- The shortening of new codeword `i` (R214). -/
def newShort (s : State) (c : Code) (i : Nat) : Nat := if i + 1 = newCount s c then s.rxh.short.toNat else 0

/-- The numbers of the new codewords that the frame holds whole (R213). -/
def wholeNumbers (s : State) (c : Code) : List Nat :=
  (List.range (newCount s c)).filter fun i => newStart s c i + c.n ≤ frameTotal s

/-- The frame cuts its last new codeword (R213). -/
abbrev CutsLast (s : State) (c : Code) : Prop :=
  newCount s c ≠ 0 ∧ frameTotal s < newStart s c (newCount s c - 1) + c.n

/-- What the whole new codewords of the frame give (R213 to R215). -/
def newResults (s : State) (c : Code) : List (Bits × Report) :=
  (wholeNumbers s c).map fun i => codewordResult s c (newId s i) (rxSamples s (newStart s c i) c.n) (newShort s c i)

/-- The bits of the frame. -/
def frameBits (s : State) (c : Code) : Bits :=
  (leadingResult s c (frameTotal s)).1 ++ (newResults s c).flatMap (·.1)

/-- The reports of the frame. -/
def frameReports (s : State) (c : Code) : List Report :=
  (leadingResult s c (frameTotal s)).2.1 ++ (newResults s c).map (·.2)

/-- The partial that the frame leaves: the codeword it cuts, else the leading codeword's (R212, R213). -/
def framePartial (s : State) (c : Code) : Option Partial :=
  if CutsLast s c then
    some ⟨newId s (newCount s c - 1), s.rxh.fec,
      rxSamples s (newStart s c (newCount s c - 1)) (frameTotal s - newStart s c (newCount s c - 1)),
      newShort s c (newCount s c - 1)⟩
  else (leadingResult s c (frameTotal s)).2.2

/-- A new codeword has a symbol of samples left (R213). -/
theorem newStart_add_le {s : State} {c : Code} (hb : 1 ≤ s.rxh.mod.toNat) {i : Nat} (h : i < newCount s c) :
    newStart s c i + s.rxh.mod.toNat ≤ frameTotal s := (start_le_of_lt_startCount hb h).2

theorem newStart_succ (s : State) (c : Code) (i : Nat) : newStart s c (i + 1) = newStart s c i + c.n := by
  rw [newStart, newStart, Nat.succ_mul, Nat.add_assoc]

/-- Every new codeword but the last is whole, and the last one where the frame does not cut it (R213). -/
theorem newStart_add_n_le {s : State} {c : Code} (hb : 1 ≤ s.rxh.mod.toNat) {i : Nat} (h : i < newCount s c)
    (hlast : i + 1 < newCount s c ∨ ¬CutsLast s c) : newStart s c i + c.n ≤ frameTotal s := by
  by_cases hi : i + 1 < newCount s c
  · have := newStart_add_le hb hi
    rw [newStart_succ] at this
    omega
  · have huncut := hlast.resolve_left hi
    rw [CutsLast, not_and, show newCount s c - 1 = i by omega] at huncut
    exact not_lt.1 (huncut (by omega))

/-- In a frame that cuts no codeword every one is whole (R213). -/
theorem wholeNumbers_of_uncut {s : State} {c : Code} (hb : 1 ≤ s.rxh.mod.toNat) (h : ¬CutsLast s c) :
    wholeNumbers s c = List.range (newCount s c) :=
  List.filter_eq_self.2 fun _ hi =>
    decide_eq_true (newStart_add_n_le hb (List.mem_range.1 hi) (.inr h))

/-- In a frame that cuts a codeword all before it are whole (R213). -/
theorem wholeNumbers_of_cut {s : State} {c : Code} (hb : 1 ≤ s.rxh.mod.toNat) (h : CutsLast s c) {m : Nat}
    (hm : newCount s c = m + 1) : wholeNumbers s c = List.range m := by
  have hcut := h.2
  rw [hm, Nat.add_sub_cancel] at hcut
  rw [wholeNumbers, hm, List.range_succ, List.filter_append, List.filter_eq_self.2, List.filter_singleton,
    decide_eq_false (by omega)]
  · simp
  · exact fun i hi => decide_eq_true (newStart_add_n_le hb (by have := List.mem_range.1 hi; omega)
      (.inl (by have := List.mem_range.1 hi; omega)))

/-- The codeword that a frame cuts becomes the partial (R213). -/
theorem framePartial_of_cut {s : State} {c : Code} (h : CutsLast s c) {m : Nat} (hm : newCount s c = m + 1) :
    framePartial s c =
      some ⟨newId s m, s.rxh.fec, rxSamples s (newStart s c m) (frameTotal s - newStart s c m),
        s.rxh.short.toNat⟩ := by
  rw [framePartial, if_pos h, newShort, if_pos (by omega), show newCount s c - 1 = m by omega]

/-- The starts of whole codewords (R213). -/
theorem map_start_of_whole {s : State} {c : Code} {m : Nat} (h : ∀ i < m, newStart s c i + c.n ≤ frameTotal s) :
    (List.range m).map (fun i => (newPos s c + i * c.n, min c.n (frameTotal s - (newPos s c + i * c.n)))) =
      (List.range m).map fun i => (newPos s c + i * c.n, c.n) :=
  List.map_congr_left fun i hi => by
    have := h i (List.mem_range.1 hi)
    rw [newStart] at this
    rw [Nat.min_eq_left (by omega)]

/-- The new codewords of a frame, after the results of its leading codeword (R213, R214). -/
theorem newCodewords_eq {s : State} {c : Code} (hn : 1 ≤ c.n) (hb : 1 ≤ s.rxh.mod.toNat) (out : Bits)
    (reps : List Report) (part : Option Partial) :
    newCodewords s.params s.failFlag c s.rxh (frameSamples s s.rxh.mod.toNat)
        (codewordStarts c.n s.rxh.mod.toNat (frameTotal s) (frameTotal s) (newPos s c)) (firstNewId s)
        (resultOf out reps part) =
      resultOf (out ++ (newResults s c).flatMap (·.1)) (reps ++ (newResults s c).map (·.2))
        (if CutsLast s c then framePartial s c else part) := by
  have hstarts := codewordStarts_eq (pos := newPos s c) hn hb (frameTotal s) (Nat.sub_le ..)
  by_cases hcut : CutsLast s c
  · obtain ⟨m, hm⟩ := Nat.exists_eq_add_one_of_ne_zero hcut.1
    have hlt := hcut.2
    rw [hm, Nat.add_sub_cancel] at hlt
    have hlast := newStart_add_le hb (s := s) (c := c) (i := m) (by omega)
    have hwhole : ∀ i < m, newStart s c i + c.n ≤ frameTotal s := fun i hi =>
      newStart_add_n_le hb (by omega) (.inl (by omega))
    rw [← newCount, hm, List.range_succ, List.map_append, map_start_of_whole hwhole, List.map_singleton,
      ← newStart, Nat.min_eq_right (by omega)] at hstarts
    have hresults : newResults s c = (List.range m).map
        (wholeResult s c (newPos s c) (firstNewId s) fun i =>
          if i + 1 = m ∧ [(newStart s c m, frameTotal s - newStart s c m)] = [] then s.rxh.short.toNat else 0) := by
      rw [newResults, wholeNumbers_of_cut hb hcut hm]
      refine List.map_congr_left fun i hi => ?_
      have := List.mem_range.1 hi
      rw [wholeResult, newShort, if_neg (by omega), if_neg (by simp), newId, newStart]
    rw [hstarts, newCodewords_whole_append s c _ m hwhole, ← hresults, if_pos hcut, framePartial_of_cut hcut hm,
      newCodewords, if_neg (by omega), newCodewords, take_drop_frameSamples s (by omega)]
    rfl
  · have hwhole : ∀ i < newCount s c, newStart s c i + c.n ≤ frameTotal s := fun i hi =>
      newStart_add_n_le hb hi (.inr hcut)
    rw [← newCount, map_start_of_whole hwhole] at hstarts
    have hresults : newResults s c = (List.range (newCount s c)).map
        (wholeResult s c (newPos s c) (firstNewId s) fun i =>
          if i + 1 = newCount s c ∧ ([] : List (Nat × Nat)) = [] then s.rxh.short.toNat else 0) := by
      rw [newResults, wholeNumbers_of_uncut hb hcut]
      simp only [and_true]
      rfl
    rw [hstarts, ← List.append_nil (List.map _ _), newCodewords_whole_append s c _ _ hwhole, ← hresults, if_neg hcut]
    rfl

/-- A deframing in closed form (R212 to R216). -/
theorem deframe_eq {s : State} {c : Code} (hn : 1 ≤ c.n) (hb : 1 ≤ s.rxh.mod.toNat) :
    deframe s s.rxh.mod.toNat c = resultOf (frameBits s c) (frameReports s c) (framePartial s c) := by
  have hpart : (if CutsLast s c then framePartial s c else (leadingResult s c (frameTotal s)).2.2) =
      framePartial s c := by
    rw [framePartial]
    split <;> rfl
  have hnew := newCodewords_eq hn hb (leadingResult s c (frameTotal s)).1 (leadingResult s c (frameTotal s)).2.1
    (leadingResult s c (frameTotal s)).2.2
  rw [hpart] at hnew
  by_cases hoff : s.rxh.off = 0
  · rw [← dropPartial_eq_leadingResult hoff, newPos, if_pos hoff, firstNewId, if_pos hoff] at hnew
    exact Eq.trans (by simp [deframe, hoff, resultOf]) hnew
  · have hpos : 0 < s.rxh.off.toNat := Nat.pos_of_ne_zero fun h => hoff (BitVec.eq_of_toNat_eq h)
    rw [← continueCodeword_eq_leadingResult hoff, newPos, if_neg hoff, firstNewId, if_neg hoff] at hnew
    exact Eq.trans (by simp [deframe, hpos, resultOf]) hnew

/-! ## Committing (R217, R277) -/

/-- Recording causes changes ERR and CAUSE alone (R272). -/
theorem raiseAll_eq (cs : List Cause) (s : State) :
    raiseAll cs s = { s with err := (raiseAll cs s).err, cause := (raiseAll cs s).cause } := by
  induction cs generalizing s with
  | nil => rfl
  | cons c cs ih => exact ih (raise c s)

theorem raiseAll_append (cs ds : List Cause) (s : State) : raiseAll (cs ++ ds) s = raiseAll ds (raiseAll cs s) :=
  List.foldl_append ..

/-- The causes of the reports set the ERR bits that the statements name (R215, R216). -/
theorem raiseAll_reportCause_err (s : State) (reps : List Report) :
    (raiseAll (reps.filterMap reportCause) s).err = (withReports s reps).err := by
  induction reps using List.reverseRecOn with
  | nil => simp [withReports]
  | append_singleton reps e ih =>
    rw [List.filterMap_append, raiseAll_append]
    simp only [withReports, List.any_append] at ih ⊢
    cases hstatus : e.status <;> simp [reportCause, hstatus, ih, causeCode]
    all_goals split_ifs <;> simp [BitVec.or_assoc]

/-- The last of the reports' causes stays in CAUSE (R277). -/
theorem raiseAll_reportCause_cause (s : State) (reps : List Report) :
    (raiseAll (reps.filterMap reportCause) s).cause = (withReports s reps).cause := by
  induction reps using List.reverseRecOn with
  | nil => rfl
  | append_singleton reps e ih =>
    rw [List.filterMap_append, raiseAll_append]
    simp only [withReports, List.filter_append] at ih ⊢
    cases hstatus : e.status <;> simp [reportCause, hstatus, ih, causeCode]

/-- Results that fit both queues are committed with the causes of their reports (R217, R277). -/
theorem commitFrame_of_room {s : State} {out : Bits} {reps : List Report} (part : Option Partial)
    (hrxq : s.rxq.length + out.length ≤ s.params.rxqCap) (hrep : s.rep.length + reps.length ≤ s.params.cwrepCap) :
    commitFrame s (resultOf out reps part) =
      { withReports s reps with rxq := s.rxq ++ out, part := part, hdrValid := false } := by
  rcases commitFrame_cases s (resultOf out reps part) with ⟨hfull, _⟩ | ⟨_, e⟩
  · simp only [resultOf_out, resultOf_reps] at hfull; omega
  · rw [e, raiseAll_eq, resultOf_causes, raiseAll_reportCause_err, raiseAll_reportCause_cause]
    rfl

/-- Results that fit one of the queues not are dropped (R217). -/
theorem commitFrame_of_full {s : State} {out : Bits} {reps : List Report} (part : Option Partial)
    (h : s.params.rxqCap < s.rxq.length + out.length ∨ s.params.cwrepCap < s.rep.length + reps.length) :
    commitFrame s (resultOf out reps part) = recorded 6 s := by
  rcases commitFrame_cases s (resultOf out reps part) with ⟨_, e⟩ | ⟨hroom, _⟩
  · exact e.trans (raise_eq_recorded s .rxqOvf)
  · simp only [resultOf_out, resultOf_reps] at hroom; omega

/-- RX_FRAME on a header that passes the checks commits what it deframes (R211, R218). -/
theorem exec_rxFrame {s : State} (hf : s.params.fecEn = true) (hvalid : s.hdrValid = true) {c : Code}
    (hrange : RangeOk s.params s.rxh c) :
    exec .rxFrame s = .next (commitFrame s (deframe s s.rxh.mod.toNat c)) := by
  simp [exec, execRxFrame, hf, hvalid, rangeCheck_some.2 ⟨rfl, hrange⟩]

/-- RX_FRAME on a header that passes the checks, in closed form (R211 to R218). -/
theorem exec_rxFrame_eq {s : State} (hf : s.params.fecEn = true) (hvalid : s.hdrValid = true) {c : Code}
    (hrange : RangeOk s.params s.rxh c) :
    exec .rxFrame s =
      .next (commitFrame s (resultOf (frameBits s c) (frameReports s c) (framePartial s c))) := by
  obtain ⟨⟨hb, _⟩, _, _, _, _, hoff, _⟩ := id hrange
  rw [exec_rxFrame hf hvalid hrange, deframe_eq (by omega) hb]

/-- The id counter counts modulo `2^W_CWID` (R51). -/
theorem toNat_iterate_incMod {w : Nat} (hw : w ≤ 16) {x : BitVec 16} (hx : x.toNat < 2 ^ w) (i : Nat) :
    ((incMod w)^[i] x).toNat = (x.toNat + i) % 2 ^ w := by
  induction i with
  | zero => exact (Nat.mod_eq_of_lt hx).symm
  | succ i ih => rw [Function.iterate_succ_apply', toNat_incMod _ hw, ih, Nat.mod_add_mod, Nat.add_assoc]

/-- The received CWID has `W_CWID` bits (R55). -/
theorem rxh_cwid_lt {s : State} (hi : Inv s) (hf : s.params.fecEn = true) :
    s.rxh.cwid.toNat < 2 ^ s.params.wCwid := by
  simpa [Header.get, fieldWidth, hf] using headerInLayout_iff.1 hi.rxh .cwid

/-- The ids of the new codewords as numbers (R212, R213). -/
theorem newId_eq {s : State} (hi : Inv s) (hf : s.params.fecEn = true) (i : Nat) :
    newId s i =
      BitVec.ofNat 16 (((if s.rxh.off = 0 then s.rxh.cwid.toNat else s.rxh.cwid.toNat + 1) + i) %
        2 ^ s.params.wCwid) := by
  have hw := (paramsWf_good hi.params).wCwid.2
  have hcwid := rxh_cwid_lt hi hf
  have hnat : (newId s i).toNat = ((if s.rxh.off = 0 then s.rxh.cwid.toNat else s.rxh.cwid.toNat + 1) + i) %
      2 ^ s.params.wCwid := by
    unfold newId firstNewId
    split
    · exact toNat_iterate_incMod hw hcwid i
    · rw [toNat_iterate_incMod hw (incMod_lt _ hw), toNat_incMod _ hw, Nat.mod_add_mod]
  rw [← hnat, BitVec.ofNat_toNat, BitVec.setWidth_eq]

/-- Settles O54: RX_FRAME in closed form, with the ids as numbers. -/
theorem severalCodewordsAreDecodedInOrder : Obligations.SeveralCodewordsAreDecodedInOrder := by
  intro s c hi hf hvalid hrange h b total lead pos first count start id short whole results last out reps part'
  have hid (i : Nat) : newId s i = id i := newId_eq hi hf i
  have hresults : newResults s c = results := List.map_congr_left fun i _ => by rw [hid]; rfl
  have hout : frameBits s c = out := by rw [frameBits, hresults]; rfl
  have hreps : frameReports s c = reps := by rw [frameReports, hresults]; rfl
  have hpart : framePartial s c = part' := by rw [framePartial, hid]; rfl
  have e := exec_rxFrame_eq hf hvalid hrange
  rw [hout, hreps, hpart] at e
  exact ⟨fun hrxq hrep => e.trans (congrArg _ (commitFrame_of_room _ hrxq hrep)),
    fun hfull => e.trans (congrArg _ (commitFrame_of_full _ hfull))⟩

end Sys2Proof.Machine
end

section
/-!
# What RX_FRAME answers (R211 to R217, R277)

The statements about one frame, read off from its closed form.
-/

namespace Sys2Proof.Machine

/-! ## The header range checks (R211) -/

/-- Recording causes other than one leaves that one's ERR bit (R272). -/
theorem getLsbD_raiseAll_err {n : Nat} {cs : List Cause} (h : ∀ c ∈ cs, n ≠ causeCode c) (s : State) :
    (raiseAll cs s).err.getLsbD n = s.err.getLsbD n := by
  induction cs generalizing s with
  | nil => rfl
  | cons c cs ih =>
    obtain ⟨hc, hcs⟩ := List.forall_mem_cons.1 h
    rw [raiseAll_cons, ih hcs, getLsbD_raise_err hc]

/-- RX_FRAME keeps the ERR bit of HDR_BADFIELD on a header that passes the checks (R211, R217). -/
theorem getLsbD_commitFrame_err_badfield (s : State) {a : RxAcc} (h : ∀ c ∈ a.causes, c = .cwFail ∨ c = .cwLost) :
    (commitFrame s a).err.getLsbD 9 = s.err.getLsbD 9 := by
  rcases commitFrame_cases s a with ⟨_, e⟩ | ⟨_, e⟩ <;> rw [e]
  · exact getLsbD_raise_err (by decide) s
  · exact getLsbD_raiseAll_err (fun c hc => by rcases h c hc with rfl | rfl <;> decide) _

/-- A report's cause is CW_FAIL or CW_LOST (R215, R216). -/
theorem reportCause_cases {e : Report} {c : Cause} (h : reportCause e = some c) : c = .cwFail ∨ c = .cwLost := by
  unfold reportCause at h
  cases hstatus : e.status <;> simp [hstatus] at h <;> simp [← h]

/-- Settles O32: the checks of R211 decide between the dropped frame and a commit, which raises no HDR_BADFIELD. -/
theorem badHeaderFieldDropsTheFrame : Obligations.BadHeaderFieldDropsTheFrame := by
  refine fun s hf hvalid => ⟨fun hbad => ?_, fun ⟨c, hrange⟩ => ⟨_, exec_rxFrame_eq hf hvalid hrange, ?_⟩⟩
  · have hnone : rangeCheck s.params s.rxh = none :=
      Option.eq_none_iff_forall_ne_some.2 fun ⟨b, c⟩ hc => hbad c (rangeCheck_some.1 hc).2
    rw [exec]
    rcases execRxFrame_cases s with ⟨hno, _⟩ | ⟨_, hv, _⟩ | ⟨_, _, _, e⟩ | ⟨_, _, _, _, hsome, _⟩
    · exact absurd hf (by simp [hno])
    · exact absurd hvalid (by simp [hv])
    · rw [e, raise_eq_recorded, causeCode]
    · cases hnone.symm.trans hsome
  · refine getLsbD_commitFrame_err_badfield s fun cause hcause => ?_
    obtain ⟨e, _, he⟩ := List.mem_filterMap.1 hcause
    exact reportCause_cases he

/-! ## All or nothing (R217, R309) -/

/-- The same state with other queue capacities. -/
def withCaps (s : State) (capQ capR : Nat) : State :=
  { s with params := { s.params with rxqCap := capQ, cwrepCap := capR } }

/-- The results of a frame that is done fit the queues (R217). -/
theorem room_of_done {s : State} (hvalid : s.hdrValid = true) {out : Bits} {reps : List Report} {part : Option Partial}
    (hdone : (commitFrame s (resultOf out reps part)).hdrValid = false) :
    s.rxq.length + out.length ≤ s.params.rxqCap ∧ s.rep.length + reps.length ≤ s.params.cwrepCap := by
  by_contra hfull
  rw [commitFrame_of_full part (by omega), recorded_hdrValid, hvalid] at hdone
  exact absurd hdone (by decide)

/-- Settles O34: the results do not depend on the capacities, and a frame that commits has `hdrValid` cleared. -/
theorem rxFrameIsAllOrNothing : Obligations.RxFrameIsAllOrNothing := by
  intro s t c capQ capR hf hvalid hrange hexec hdone
  have hlarge : t = commitFrame (withCaps s capQ capR)
      (resultOf (frameBits s c) (frameReports s c) (framePartial s c)) :=
    Host.Outcome.next.inj (hexec.symm.trans (exec_rxFrame_eq (s := withCaps s capQ capR) hf hvalid hrange))
  obtain ⟨hq, hr⟩ := room_of_done (s := withCaps s capQ capR) hvalid (hlarge ▸ hdone)
  rw [commitFrame_of_room _ hq hr] at hlarge
  have hrxq : t.rxq = s.rxq ++ frameBits s c := congrArg State.rxq hlarge
  have hrep : t.rep = s.rep ++ frameReports s c := congrArg State.rep hlarge
  rw [exec_rxFrame_eq hf hvalid hrange, hrxq, hrep, List.length_append, List.length_append]
  refine ⟨fun ⟨hq, hr⟩ => ?_, fun hfull => congrArg _ (commitFrame_of_full _ hfull)⟩
  rw [commitFrame_of_room _ hq hr, hlarge]
  rfl

/-! ## One codeword by its verdict (R215) -/

theorem codewordResult_of_ok {s : State} {c : Code} {y : List Sample} (h : (decodeWord c y).1 = true)
    (id : BitVec 16) (short : Nat) :
    codewordResult s c id y short =
      ((decodeWord c y).2.take (c.k - short), ⟨id, .ok, field 16 (c.k - short)⟩) := by
  simp [codewordResult, h]

theorem codewordResult_of_dropped {s : State} {c : Code} {y : List Sample} (h : (decodeWord c y).1 = false)
    (hff : s.failFlag = false) (id : BitVec 16) (short : Nat) :
    codewordResult s c id y short = ([], ⟨id, .failDropped, 0⟩) := by
  simp [codewordResult, h, hff]

theorem codewordResult_of_flagged {s : State} {c : Code} {y : List Sample} (h : (decodeWord c y).1 = false)
    (hff : s.failFlag = true) (id : BitVec 16) (short : Nat) :
    codewordResult s c id y short =
      ((decodeWord c y).2.take (c.k - short), ⟨id, .failFlagged, field 16 (c.k - short)⟩) := by
  simp [codewordResult, h, hff]

/-- A codeword gives at most `k` bits (R215). -/
theorem length_codewordResult_le (s : State) (c : Code) (id : BitVec 16) (y : List Sample) (short : Nat) :
    (codewordResult s c id y short).1.length ≤ c.k - short := by
  unfold codewordResult
  simp only
  split_ifs <;> simp

/-- The reports are appended and their causes recorded in order (R277). -/
theorem withReports_eq_raiseAll (s : State) (reps : List Report) :
    withReports s reps = raiseAll (reps.filterMap reportCause) { s with rep := s.rep ++ reps } := by
  rw [raiseAll_eq, raiseAll_reportCause_err, raiseAll_reportCause_cause]
  rfl

theorem withReports_nil (s : State) : withReports s [] = s := by
  simp [withReports]

/-- One report OK: it is appended, and no cause is recorded. -/
theorem withReports_ok (s : State) (id nb : BitVec 16) :
    withReports s [⟨id, .ok, nb⟩] = { s with rep := s.rep ++ [⟨id, .ok, nb⟩] } := by
  simp [withReports]

/-- One report of a failed codeword: CW_FAIL is recorded (R215). -/
theorem withReports_dropped (s : State) (id : BitVec 16) :
    withReports s [⟨id, .failDropped, 0⟩] = recorded 10 { s with rep := s.rep ++ [⟨id, .failDropped, 0⟩] } := by
  simp [withReports, recorded, BitVec.twoPow]

theorem withReports_flagged (s : State) (id nb : BitVec 16) :
    withReports s [⟨id, .failFlagged, nb⟩] = recorded 10 { s with rep := s.rep ++ [⟨id, .failFlagged, nb⟩] } := by
  simp [withReports, recorded, BitVec.twoPow]

/-- Reports of lost codewords alone: CW_LOST is recorded (R216). -/
theorem withReports_lost (s : State) {ids : List (BitVec 16)} (h : ids ≠ []) :
    withReports s (ids.map fun id => ⟨id, .lost, 0⟩) =
      recorded 11 { s with rep := s.rep ++ ids.map fun id => ⟨id, .lost, 0⟩ } := by
  obtain ⟨init, id, rfl⟩ := (List.eq_nil_or_concat ids).resolve_left h
  simp [withReports, recorded, BitVec.twoPow]

/-- A frame whose one result is that of one codeword answers by the decoder's verdict and the policy (R215). -/
theorem exec_rxFrame_by_policy {s : State} {c : Code} {id : BitVec 16} {y : List Sample} {short : Nat}
    {part : Option Partial}
    (frame : ∀ out e, out.length ≤ c.k → codewordResult s c id y short = (out, e) →
      exec .rxFrame s = .next { withReports s [e] with rxq := s.rxq ++ out, part := part, hdrValid := false }) :
    ∃ nb : BitVec 16, (c.k - short < 65536 → nb.toNat = c.k - short) ∧
      ((decodeWord c y).1 = true →
        exec .rxFrame s = .next { s with
          rxq := s.rxq ++ (decodeWord c y).2.take (c.k - short)
          rep := s.rep ++ [⟨id, .ok, nb⟩]
          part := part
          hdrValid := false }) ∧
      ((decodeWord c y).1 = false → s.failFlag = false →
        exec .rxFrame s = .next (recorded 10 { s with
          rep := s.rep ++ [⟨id, .failDropped, 0⟩]
          part := part
          hdrValid := false })) ∧
      ((decodeWord c y).1 = false → s.failFlag = true →
        exec .rxFrame s = .next (recorded 10 { s with
          rxq := s.rxq ++ (decodeWord c y).2.take (c.k - short)
          rep := s.rep ++ [⟨id, .failFlagged, nb⟩]
          part := part
          hdrValid := false })) := by
  have hdata : ((decodeWord c y).2.take (c.k - short)).length ≤ c.k := (List.length_take_le ..).trans (Nat.sub_le ..)
  refine ⟨field 16 (c.k - short), toNat_field (w := 16), fun hok => ?_, fun hfail hff => ?_, fun hfail hff => ?_⟩
  · rw [frame _ _ hdata (codewordResult_of_ok hok ..), withReports_ok]
  · rw [frame _ _ (Nat.zero_le _) (codewordResult_of_dropped hfail hff ..), withReports_dropped, List.append_nil]
    rfl
  · rw [frame _ _ hdata (codewordResult_of_flagged hfail hff ..), withReports_flagged]
    rfl

/-- A lost codeword's report before others: they are recorded after it (R277). -/
theorem withReports_lost_cons (s : State) (id : BitVec 16) (reps : List Report) :
    withReports s (⟨id, .lost, 0⟩ :: reps) =
      withReports (recorded 11 { s with rep := s.rep ++ [⟨id, .lost, 0⟩] }) reps := by
  have hcauses : (⟨id, .lost, 0⟩ :: reps).filterMap reportCause = .cwLost :: reps.filterMap reportCause :=
    List.filterMap_cons_some rfl
  rw [withReports_eq_raiseAll, withReports_eq_raiseAll, hcauses, raiseAll_cons, raise_eq_recorded,
    ← List.singleton_append, ← List.append_assoc]
  rfl

/-! ## A frame without new codewords -/

/-- Where less than a symbol is left after the leading codeword no codeword begins, and the frame gives what the
leading codeword gives (R212, R213). -/
theorem exec_rxFrame_of_lead {s : State} (hf : s.params.fecEn = true) (hvalid : s.hdrValid = true) {c : Code}
    (hrange : RangeOk s.params s.rxh c) (hfew : frameTotal s - newPos s c < s.rxh.mod.toNat) {out : Bits}
    {reps : List Report} {part : Option Partial} (hlead : leadingResult s c (frameTotal s) = (out, reps, part))
    (hrxq : s.rxq.length + out.length ≤ s.params.rxqCap) (hrep : s.rep.length + reps.length ≤ s.params.cwrepCap) :
    exec .rxFrame s = .next { withReports s reps with rxq := s.rxq ++ out, part := part, hdrValid := false } := by
  have hcount : newCount s c = 0 := if_pos hfew
  have hresults : newResults s c = [] := by rw [newResults, wholeNumbers, hcount]; rfl
  have hbits : frameBits s c = out := by rw [frameBits, hresults, hlead]; simp
  have hreports : frameReports s c = reps := by rw [frameReports, hresults, hlead]; simp
  have hpart : framePartial s c = part := by
    rw [framePartial, if_neg fun h => h.1 hcount, hlead]
  rw [exec_rxFrame_eq hf hvalid hrange, hbits, hreports, hpart, commitFrame_of_room _ hrxq hrep]

/-- A frame with `OFF > 0` that ends with its leading codeword, or inside it, begins no other (R212). -/
theorem no_new_of_le_need {s : State} {c : Code} (hoff : s.rxh.off ≠ 0)
    (hb : 1 ≤ s.rxh.mod.toNat) (h : frameTotal s ≤ c.n - s.rxh.off.toNat) :
    frameTotal s - newPos s c < s.rxh.mod.toNat := by
  rw [newPos, if_neg hoff]
  omega

/-! ## A frame of one whole codeword (R213 to R215) -/

/-- A frame of exactly one codeword's samples that begins on a codeword boundary, with no partial pending. -/
theorem frame_of_whole {s : State} {c : Code} (hb : 1 ≤ s.rxh.mod.toNat) (hn : 1 ≤ c.n) (hoff : s.rxh.off = 0)
    (hpart : s.part = none) (htotal : frameTotal s = c.n) {out : Bits} {e : Report}
    (hresult : codewordResult s c s.rxh.cwid (rxSamples s 0 c.n) s.rxh.short.toNat = (out, e)) :
    frameBits s c = out ∧ frameReports s c = [e] ∧ framePartial s c = none := by
  have hpos : newPos s c = 0 := if_pos hoff
  have hsymbols : s.rxh.mod.toNat ≤ c.n := by
    rw [← htotal, frameTotal]
    refine Nat.le_mul_of_pos_left _ (Nat.pos_of_ne_zero fun h => ?_)
    rw [frameTotal, h] at htotal
    omega
  have hcount : newCount s c = 1 := by
    rw [newCount, hpos, htotal, startCount, if_neg (by omega), Nat.div_eq_of_lt (by omega)]
  have huncut : ¬CutsLast s c := by
    rw [CutsLast, hcount, newStart, hpos, htotal]
    omega
  have hlead : leadingResult s c (frameTotal s) = ([], [], none) := by simp [leadingResult, hpart, hoff]
  have hresults : newResults s c = [(out, e)] := by
    rw [newResults, wholeNumbers_of_uncut hb huncut, hcount, ← hresult]
    simp [newStart, hpos, newId, firstNewId, hoff, newShort, hcount]
  rw [frameBits, frameReports, framePartial, hresults, hlead, if_neg huncut]
  simp

/-- Settles O35: the one codeword by the decoder's verdict and the policy. -/
theorem wholeCodewordIsDecodedByThePolicy : Obligations.WholeCodewordIsDecodedByThePolicy := by
  intro s c hf hvalid hrange hoff hpart hk hkn htotal hrxq hrep y kept data
  obtain ⟨⟨hb, _⟩, _⟩ := id hrange
  have hy : rxSamples s 0 c.n = y := by simp [rxSamples, y]
  refine exec_rxFrame_by_policy fun out e hout h => ?_
  obtain ⟨hbits, hreps, hpartial⟩ := frame_of_whole hb (by omega) hoff hpart htotal (hy ▸ h)
  rw [exec_rxFrame_eq hf hvalid hrange, hbits, hreps, hpartial, commitFrame_of_room _ (by omega) hrep, hpart]

/-! ## A frame that continues the partial (R212, R214) -/

/-- The frame extends a matching partial of which it holds no last sample (R212). -/
theorem leadingResult_of_extend {s : State} {c : Code} {q : Partial} (hpart : s.part = some q) (hoff : s.rxh.off ≠ 0)
    (hmatch : q.id = s.rxh.cwid ∧ q.fec = s.rxh.fec ∧ q.y.length = s.rxh.off.toNat) {total : Nat}
    (h : total < c.n - s.rxh.off.toNat) :
    leadingResult s c total = ([], [], some { q with y := q.y ++ rxSamples s 0 total }) := by
  simp only [leadingResult, hpart, hoff, if_false, if_pos hmatch, if_neg (not_le.2 h)]

/-- The frame completes a matching partial (R212, R214). -/
theorem leadingResult_of_complete {s : State} {c : Code} {q : Partial} (hpart : s.part = some q)
    (hoff : s.rxh.off ≠ 0) (hmatch : q.id = s.rxh.cwid ∧ q.fec = s.rxh.fec ∧ q.y.length = s.rxh.off.toNat)
    {total : Nat} (h : c.n - s.rxh.off.toNat ≤ total) {out : Bits} {e : Report}
    (hresult : codewordResult s c q.id (q.y ++ rxSamples s 0 (c.n - s.rxh.off.toNat)) q.short = (out, e)) :
    leadingResult s c total = (out, [e], none) := by
  simp only [leadingResult, hpart, hoff, if_false, if_pos hmatch, if_pos h, hresult]

/-- Settles O36: no new codeword begins, and the leading one extends the partial or completes it. -/
theorem continuationExtendsOrCompletesThePartial : Obligations.ContinuationExtendsOrCompletesThePartial := by
  intro s c q hi hf hvalid hrange hpart hid hfec hlen hrxq hrep total y kept data
  obtain ⟨⟨hb, _⟩, _⟩ := id hrange
  have hmatch : q.id = s.rxh.cwid ∧ q.fec = s.rxh.fec ∧ q.y.length = s.rxh.off.toNat := ⟨hid, hfec, hlen⟩
  have hoff : s.rxh.off ≠ 0 := by
    have hok : partialOk s.params q = true := by simpa [hpart] using hi.part
    obtain ⟨_, _, hpos, _⟩ := partialOk_iff.1 hok
    intro h
    simp only [hlen, h] at hpos
    exact absurd hpos (by decide)
  have hy : q.y ++ rxSamples s 0 total = y := by simp [rxSamples, y]
  refine ⟨fun hshort => ?_, fun hend => exec_rxFrame_by_policy fun out e hout h => ?_⟩
  · rw [exec_rxFrame_of_lead hf hvalid hrange (no_new_of_le_need hoff hb hshort.le)
      (leadingResult_of_extend hpart hoff hmatch hshort) (by simp; omega) (by simp; omega),
      show frameTotal s = total from rfl, hy, withReports_nil,
      List.append_nil]
  · rw [← hy, hend] at h
    exact exec_rxFrame_of_lead hf hvalid hrange (no_new_of_le_need hoff hb hend.le)
      (leadingResult_of_complete hpart hoff hmatch hend.ge h) (by omega) hrep

/-! ## Lost codewords (R212, R216) -/

/-- A frame on a codeword boundary loses a pending partial (R212). -/
theorem leadingResult_of_boundary {s : State} {q : Partial} (hpart : s.part = some q) (hoff : s.rxh.off = 0) (c : Code)
    (total : Nat) : leadingResult s c total = ([], [⟨q.id, .lost, 0⟩], none) := by
  simp only [leadingResult, hpart, hoff, if_true]

/-- A continued codeword without its beginning is lost where its end is here (R212). -/
theorem leadingResult_of_missing {s : State} (hpart : s.part = none) (hoff : s.rxh.off ≠ 0) (c : Code) (total : Nat) :
    leadingResult s c total =
      ([], (if c.n - s.rxh.off.toNat ≤ total then [s.rxh.cwid] else []).map fun id => ⟨id, .lost, 0⟩, none) := by
  simp only [leadingResult, hpart, hoff, if_false]
  split_ifs <;> rfl

/-- A partial that does not match is lost or dropped, and the continued codeword is lost where its end is here (R212). -/
theorem leadingResult_of_mismatch {s : State} {q : Partial} (hpart : s.part = some q) (hoff : s.rxh.off ≠ 0)
    (hno : ¬(q.id = s.rxh.cwid ∧ q.fec = s.rxh.fec ∧ q.y.length = s.rxh.off.toNat)) (c : Code) (total : Nat) :
    leadingResult s c total =
      ([], ((if q.id = s.rxh.cwid then [] else [q.id]) ++
        if c.n - s.rxh.off.toNat ≤ total then [s.rxh.cwid] else []).map fun id => ⟨id, .lost, 0⟩, none) := by
  simp only [leadingResult, hpart, hoff, if_false, if_neg hno]
  split_ifs <;> rfl

/-- A frame on a codeword boundary after a partial was lost: it loses nothing else (R212). -/
theorem frame_of_boundary {s s' : State} {c : Code} {q : Partial} (hpart : s.part = some q) (hoff : s.rxh.off = 0)
    (hs' : s' = recorded 11 { s with part := none, rep := s.rep ++ [⟨q.id, .lost, 0⟩] }) :
    frameBits s c = frameBits s' c ∧ frameReports s c = ⟨q.id, .lost, 0⟩ :: frameReports s' c ∧
      framePartial s c = framePartial s' c := by
  have hlead := leadingResult_of_boundary hpart hoff c (frameTotal s)
  have hlead' : leadingResult s' c (frameTotal s') = ([], [], none) := by simp [leadingResult, hs', hoff]
  have hresults : newResults s' c = newResults s c := by rw [hs']; rfl
  refine ⟨?_, ?_, ?_⟩
  · rw [frameBits, frameBits, hresults, hlead, hlead']
  · rw [frameReports, frameReports, hresults, hlead, hlead']
    rfl
  · rw [framePartial, framePartial, hlead, hlead']
    subst hs'
    rfl

/-- A frame that loses codewords and begins none reports them in order (R216). -/
theorem exec_rxFrame_of_lost {s : State} (hf : s.params.fecEn = true) (hvalid : s.hdrValid = true) {c : Code}
    (hrange : RangeOk s.params s.rxh c) (hfew : frameTotal s - newPos s c < s.rxh.mod.toNat)
    {ids : List (BitVec 16)} (hids : ids ≠ [])
    (hlead : leadingResult s c (frameTotal s) = ([], ids.map fun id => ⟨id, .lost, 0⟩, none))
    (hrxq : s.rxq.length ≤ s.params.rxqCap) (hrep : s.rep.length + ids.length ≤ s.params.cwrepCap) :
    exec .rxFrame s = .next (recorded 11 { s with
      part := none, hdrValid := false, rep := s.rep ++ ids.map fun id => ⟨id, .lost, 0⟩ }) := by
  rw [exec_rxFrame_of_lead hf hvalid hrange hfew hlead (by simpa using hrxq) (by simpa using hrep), List.append_nil,
    withReports_lost s hids]
  rfl

/-- A frame that reports nothing and begins no codeword leaves no trace but the dropped partial (R212). -/
theorem exec_rxFrame_of_dropped {s : State} (hf : s.params.fecEn = true) (hvalid : s.hdrValid = true) {c : Code}
    (hrange : RangeOk s.params s.rxh c) (hfew : frameTotal s - newPos s c < s.rxh.mod.toNat)
    (hlead : leadingResult s c (frameTotal s) = ([], [], none)) (hrxq : s.rxq.length ≤ s.params.rxqCap)
    (hrep : s.rep.length ≤ s.params.cwrepCap) :
    exec .rxFrame s = .next { s with part := none, hdrValid := false } := by
  rw [exec_rxFrame_of_lead hf hvalid hrange hfew hlead hrxq hrep, List.append_nil, withReports_nil]

/-- Settles O37: the leading codeword in each of its cases, in a frame that begins no other where it says so. -/
theorem lostCodewordsAreReported : Obligations.LostCodewordsAreReported := by
  intro s c hf hvalid hrange hrxq total need room dropped lost
  obtain ⟨⟨hb, _⟩, _⟩ := id hrange
  have nonzero (h : 0 < s.rxh.off.toNat) : s.rxh.off ≠ 0 := fun h0 => by simp [h0] at h
  refine ⟨fun q hpart hoff => ⟨fun hplen hroom => ?_, fun t ht hdone => ?_⟩, fun hpart hpos => ?_,
    fun q hpart hpos hno => ?_⟩
  · have htotal : frameTotal s = 0 := by simp [frameTotal, hplen]
    exact exec_rxFrame_of_lost (ids := [q.id]) hf hvalid hrange (by omega) (List.cons_ne_nil _ _)
      (leadingResult_of_boundary hpart hoff c _) hrxq hroom
  · obtain ⟨hbits, hreps, hpartial⟩ := frame_of_boundary (c := c) hpart hoff rfl
    set s' := recorded 11 { s with part := none, rep := s.rep ++ [⟨q.id, .lost, 0⟩] } with hs'
    have htdone := Host.Outcome.next.inj (ht.symm.trans (exec_rxFrame_eq (s := s') hf hvalid hrange))
    obtain ⟨hq, hr⟩ := room_of_done (s := s') hvalid (htdone ▸ hdone)
    have hr' : s.rep.length + (⟨q.id, .lost, 0⟩ :: frameReports s' c).length ≤ s.params.cwrepCap := by
      have hlen : s'.rep.length = s.rep.length + 1 := by simp [hs']
      rw [hlen, show s'.params = s.params from rfl] at hr
      rw [List.length_cons]
      omega
    rw [exec_rxFrame_eq hf hvalid hrange, hbits, hreps, hpartial, commitFrame_of_room (s := s) _ hq hr', htdone,
      commitFrame_of_room _ hq hr, withReports_lost_cons]
    rfl
  · have hlead := leadingResult_of_missing hpart (nonzero hpos) c (frameTotal s)
    refine ⟨fun hend hroom => ?_, fun hshort hroom => ?_⟩
    · rw [if_pos (show c.n - s.rxh.off.toNat ≤ frameTotal s from hend.ge)] at hlead
      exact exec_rxFrame_of_lost hf hvalid hrange (no_new_of_le_need (nonzero hpos) hb hend.le) (List.cons_ne_nil _ _)
        hlead hrxq hroom
    · rw [if_neg (show ¬c.n - s.rxh.off.toNat ≤ frameTotal s from not_le.2 hshort)] at hlead
      exact exec_rxFrame_of_dropped hf hvalid hrange (no_new_of_le_need (nonzero hpos) hb hshort.le) hlead hrxq hroom
  · have hlead := leadingResult_of_mismatch hpart (nonzero hpos) hno c (frameTotal s)
    refine ⟨fun hid hshort hroom => ?_, fun hid hend hroom => ?_, fun hid hshort hroom => ?_, fun hid hend hroom => ?_⟩
    · rw [if_neg hid, if_neg (show ¬c.n - s.rxh.off.toNat ≤ frameTotal s from not_le.2 hshort)] at hlead
      exact exec_rxFrame_of_lost hf hvalid hrange (no_new_of_le_need (nonzero hpos) hb hshort.le)
        (List.cons_ne_nil _ _) hlead hrxq hroom
    · rw [if_neg hid, if_pos (show c.n - s.rxh.off.toNat ≤ frameTotal s from hend.ge)] at hlead
      exact exec_rxFrame_of_lost hf hvalid hrange (no_new_of_le_need (nonzero hpos) hb hend.le)
        (List.cons_ne_nil _ _) hlead hrxq hroom
    · rw [if_pos hid, if_neg (show ¬c.n - s.rxh.off.toNat ≤ frameTotal s from not_le.2 hshort)] at hlead
      exact exec_rxFrame_of_dropped hf hvalid hrange (no_new_of_le_need (nonzero hpos) hb hshort.le) hlead hrxq hroom
    · rw [if_pos hid, if_pos (show c.n - s.rxh.off.toNat ≤ frameTotal s from hend.ge)] at hlead
      exact exec_rxFrame_of_lost hf hvalid hrange (no_new_of_le_need (nonzero hpos) hb hend.le)
        (List.cons_ne_nil _ _) hlead hrxq hroom

/-! ## Bits, reports and counts (R58, R215, R216) -/

/-- The bits are those the reports count, and a report of no appended bit counts none (R58; log 5). -/
structure ReportsCount (c : Code) (out : Bits) (reps : List Report) : Prop where
  bits : c.k < 65536 → out.length = (reps.map fun r => r.nbits.toNat).sum
  empty : ∀ r ∈ reps, r.status = .failDropped ∨ r.status = .lost → r.nbits = 0

theorem reportsCount_nil (c : Code) : ReportsCount c [] [] := ⟨fun _ => rfl, by simp⟩

theorem ReportsCount.append {c : Code} {out out' : Bits} {reps reps' : List Report} (h : ReportsCount c out reps)
    (h' : ReportsCount c out' reps') : ReportsCount c (out ++ out') (reps ++ reps') where
  bits hk := by rw [List.length_append, List.map_append, List.sum_append, h.bits hk, h'.bits hk]
  empty := List.forall_mem_append.2 ⟨h.empty, h'.empty⟩

/-- A lost codeword gives no bit (R216). -/
theorem reportsCount_lost (c : Code) (id : BitVec 16) : ReportsCount c [] [⟨id, .lost, 0⟩] :=
  ⟨fun _ => rfl, by simp⟩

/-- One codeword's bits are those its report counts (R215). -/
theorem reportsCount_codewordResult (s : State) (c : Code) (id : BitVec 16) (y : List Sample) (short : Nat) :
    ReportsCount c (codewordResult s c id y short).1 [(codewordResult s c id y short).2] := by
  have hfield (hk : c.k < 65536) : (field 16 (c.k - short)).toNat = c.k - short :=
    toNat_field (by have : (2 : Nat) ^ 16 = 65536 := rfl; omega)
  cases hok : (decodeWord c y).1 with
  | true =>
    rw [codewordResult_of_ok hok]
    exact ⟨fun hk => by simp [hfield hk], by simp⟩
  | false =>
    cases hff : s.failFlag with
    | true =>
      rw [codewordResult_of_flagged hok hff]
      exact ⟨fun hk => by simp [hfield hk], by simp⟩
    | false =>
      rw [codewordResult_of_dropped hok hff]
      exact ⟨fun _ => rfl, by simp⟩

/-- What the leading codeword of a frame can give (R212): nothing, up to two reports of lost codewords, or its result. -/
theorem leadingResult_cases (s : State) (c : Code) (total : Nat) :
    (∃ ids : List (BitVec 16), ids.length ≤ 2 ∧ (leadingResult s c total).1 = [] ∧
        (leadingResult s c total).2.1 = ids.map fun id => ⟨id, .lost, 0⟩) ∨
      ∃ id y short, (leadingResult s c total).1 = (codewordResult s c id y short).1 ∧
        (leadingResult s c total).2.1 = [(codewordResult s c id y short).2] := by
  by_cases hoff : s.rxh.off = 0
  · cases hpart : s.part with
    | none => exact .inl ⟨[], by simp [leadingResult, hpart, hoff]⟩
    | some q => exact .inl ⟨[q.id], by simp [leadingResult_of_boundary hpart hoff]⟩
  · cases hpart : s.part with
    | none =>
      rw [leadingResult_of_missing hpart hoff]
      exact .inl ⟨_, by split <;> simp, rfl, rfl⟩
    | some q =>
      by_cases hmatch : q.id = s.rxh.cwid ∧ q.fec = s.rxh.fec ∧ q.y.length = s.rxh.off.toNat
      · rcases Nat.lt_or_ge total (c.n - s.rxh.off.toNat) with h | h
        · rw [leadingResult_of_extend hpart hoff hmatch h]
          exact .inl ⟨[], by simp⟩
        · rw [leadingResult_of_complete hpart hoff hmatch h rfl]
          exact .inr ⟨_, _, _, rfl, rfl⟩
      · rw [leadingResult_of_mismatch hpart hoff hmatch]
        exact .inl ⟨_, by split <;> split <;> simp, rfl, rfl⟩

/-- The leading codeword's bits are those its reports count (R212). -/
theorem reportsCount_leadingResult (s : State) (c : Code) (total : Nat) :
    ReportsCount c (leadingResult s c total).1 (leadingResult s c total).2.1 := by
  rcases leadingResult_cases s c total with ⟨ids, -, hbits, hreps⟩ | ⟨id, y, short, hbits, hreps⟩ <;>
    rw [hbits, hreps]
  · clear hreps
    induction ids with
    | nil => exact reportsCount_nil c
    | cons id ids ih => exact (reportsCount_lost c id).append ih
  · exact reportsCount_codewordResult s c id y short

/-- A frame's bits are those its reports count (R212 to R216). -/
theorem reportsCount_frame (s : State) (c : Code) : ReportsCount c (frameBits s c) (frameReports s c) := by
  refine (reportsCount_leadingResult s c _).append ?_
  unfold newResults
  induction wholeNumbers s c with
  | nil => exact reportsCount_nil c
  | cons i is ih => exact (reportsCount_codewordResult ..).append ih

/-- The whole new codewords lie one after the other inside the frame (R213). -/
theorem length_wholeNumbers_mul_le {s : State} (c : Code) (hb : 1 ≤ s.rxh.mod.toNat) :
    (wholeNumbers s c).length * c.n ≤ frameTotal s := by
  have run (m : Nat) (h : ∀ i < m, newStart s c i + c.n ≤ frameTotal s) :
      (List.range m).length * c.n ≤ frameTotal s := by
    cases m with
    | zero => simp
    | succ m =>
      have := h m (Nat.lt_succ_self m)
      rw [← newStart_succ, newStart] at this
      rw [List.length_range]
      omega
  by_cases hcut : CutsLast s c
  · obtain ⟨m, hm⟩ := Nat.exists_eq_add_one_of_ne_zero hcut.1
    rw [wholeNumbers_of_cut hb hcut hm]
    exact run m fun i hi => newStart_add_n_le hb (by omega) (.inl (by omega))
  · rw [wholeNumbers_of_uncut hb hcut]
    exact run _ fun i hi => newStart_add_n_le hb hi (.inr hcut)

/-- The leading codeword gives at most `k` bits and two reports (R212). -/
theorem length_leadingResult_le (s : State) (c : Code) (total : Nat) :
    (leadingResult s c total).1.length ≤ c.k ∧ (leadingResult s c total).2.1.length ≤ 2 := by
  rcases leadingResult_cases s c total with ⟨ids, hids, hbits, hreps⟩ | ⟨id, y, short, hbits, hreps⟩ <;>
    rw [hbits, hreps]
  · simpa using hids
  · exact ⟨(length_codewordResult_le ..).trans (Nat.sub_le ..), by simp⟩

/-- A frame gives no more bits and reports than its samples can carry, with a codeword begun before it (R9, R213). -/
theorem length_frame_le {s : State} {c : Code} (hb : 1 ≤ s.rxh.mod.toNat) (hk : 1 ≤ c.k) (hkn : c.k ≤ c.n) :
    (frameBits s c).length ≤ frameTotal s + c.n ∧ (frameReports s c).length ≤ frameTotal s + 2 := by
  have hwhole := length_wholeNumbers_mul_le c hb
  obtain ⟨hleadBits, hleadReps⟩ := length_leadingResult_le s c (frameTotal s)
  have hbits : ((newResults s c).flatMap (·.1)).length ≤ (wholeNumbers s c).length * c.n := by
    unfold newResults
    induction wholeNumbers s c with
    | nil => simp
    | cons i is ih =>
      have := length_codewordResult_le s c (newId s i) (rxSamples s (newStart s c i) c.n) (newShort s c i)
      rw [List.map_cons, List.flatMap_cons, List.length_append, List.length_cons, Nat.succ_mul]
      omega
  have hreps : ((newResults s c).map (·.2)).length ≤ (wholeNumbers s c).length * c.n := by
    rw [List.length_map, newResults, List.length_map]
    exact Nat.le_mul_of_pos_right _ (by omega)
  rw [frameBits, frameReports, List.length_append, List.length_append]
  omega

/-- Settles O33: there is room for what the frame's samples can give, and the reports fix counts and causes. -/
theorem rxFrameCompletesWithRoom : Obligations.RxFrameCompletesWithRoom := by
  intro s c hi hf hvalid hrange hrxq hrep
  obtain ⟨⟨hb, _⟩, hc, _⟩ := id hrange
  obtain ⟨hk, hkn, _⟩ := code?_legal hi.params hf hc
  obtain ⟨hbits, hreps⟩ := length_frame_le (c := c) hb hk hkn
  have hcount := reportsCount_frame s c
  unfold frameTotal at hbits hreps
  refine ⟨frameBits s c, frameReports s c, framePartial s c, (withReports s (frameReports s c)).err,
    (withReports s (frameReports s c)).cause, ?_, hcount.bits, hcount.empty, rfl, rfl⟩
  rw [exec_rxFrame_eq hf hvalid hrange, commitFrame_of_room _ (by omega) (by omega)]
  rfl

end Sys2Proof.Machine
end

section
/-!
# A noiseless link returns the bits pushed (R221)

The transmitter's frame carries a part of the codeword stream, the receiver takes the stream apart at the same places.
Between two frames what the transmitter has still to send of a codeword is what the receiver's partial misses of it.
-/

namespace Sys2Proof.Machine

/-! ## Where a frame build cuts the stream (R185 to R187) -/

/-- The ids of the new codewords of a build, and where it cuts the last of them, when it has encoded `infos`. -/
structure Cuts (s : State) (b : Nat) (c : Code) (infos : List Bits) (a : BuildAcc) : Prop where
  /-- one id after the other (R51) -/
  ids : a.nextCwId = (incMod s.params.wCwid)^[infos.length] s.nextCwId
  /-- before the first new codeword only the remnant is placed (R185) -/
  lead : infos = [] → a = placeRemnant (frameCapacity s b) (startBuild s)
  /-- new codewords begin behind the whole remnant (R185) -/
  sent : infos ≠ [] → (remnantBits s).length ≤ a.out.length
  /-- a codeword that is cut begins a symbol before the end of the frame at least (R187) -/
  cut : infos ≠ [] → ∀ r, a.rem = some r →
    r.fec = c.id ∧ b ≤ r.off ∧ r.id = (incMod s.params.wCwid)^[infos.length - 1] s.nextCwId

theorem cuts_placeRemnant (s : State) (b : Nat) (c : Code) :
    Cuts s b c [] (placeRemnant (frameCapacity s b) (startBuild s)) where
  ids := (placeRemnant_frame _ _).2.1
  lead _ := rfl
  sent h := absurd rfl h
  cut h := absurd rfl h

/-- Where a new codeword may begin no remnant is left: it would have filled the frame (R185). -/
theorem Carries.rem_eq_none {s : State} {b : Nat} {c : Code} {infos : List Bits} {a : BuildAcc}
    (h : Carries s b c infos a) (hroom : a.out.length < frameCapacity s b) : a.rem = none := by
  by_contra hne
  exact absurd (h.full hne) (not_le.2 hroom)

/-- A new codeword takes the next id, and is cut only where the frame ends (R186, R187). -/
theorem cuts_placeCodeword {s : State} {b : Nat} (hb : 1 ≤ b) {c : Code} {infos : List Bits} {a : BuildAcc}
    (h : Carries s b c infos a) (hcuts : Cuts s b c infos a) (hroom : b ≤ frameCapacity s b - a.out.length)
    (x : Bits) : Cuts s b c (infos ++ [x]) (placeCodeword s.params c (frameCapacity s b) a) := by
  have hrem := h.rem_eq_none (by omega)
  have hstream := congrArg List.length h.stream
  rw [hrem, pendingBits_none, List.append_nil, List.length_append] at hstream
  obtain ⟨cw, _, _, _, hnext, _, hplace⟩ := placeCodeword_cases s.params c (frameCapacity s b) a
  refine { ids := ?_, lead := by simp, sent := fun _ => ?_, cut := fun _ r hr => ?_ }
  · rw [hnext, hcuts.ids, List.length_append, List.length_singleton, Function.iterate_succ_apply']
  · rcases hplace with ⟨_, ho, _⟩ | ⟨_, ho, _⟩ <;> rw [ho, List.length_append] <;> omega
  · rcases hplace with ⟨_, _, hr'⟩ | ⟨_, _, hr'⟩ <;> rw [hr'] at hr
    · exact absurd (hrem.symm.trans hr) (by simp)
    · obtain rfl := Option.some.inj hr
      exact ⟨rfl, hroom, by simpa using hcuts.ids⟩

/-- The payload of a build: the part of the stream it carries, and where it is cut. -/
theorem exists_carries_cuts {s : State} (hi : Inv s) {b : Nat} (hb : 1 ≤ b) {c : Code} (hk : 1 ≤ c.k) :
    ∃ infos, Carries s b c infos (buildPayload s b c) ∧ Cuts s b c infos (buildPayload s b c) := by
  have h0 := carries_placeRemnant hi.nextCwId b hk
  have hcuts0 := cuts_placeRemnant s b c
  rcases buildPayload_cases s b c with ⟨_, e⟩ | ⟨_, e⟩ <;> rw [e]
  · refine placeCodewords_induct (P := fun a => ∃ infos, Carries s b c infos a ∧ Cuts s b c infos a) ?_ _ _
      ⟨[], h0, hcuts0⟩
    rintro a ⟨infos, h, hcuts⟩ hroom hq
    exact ⟨_, carries_placeCodeword (paramsWf_good hi.params).wCwid.2 h (by omega) hq,
      cuts_placeCodeword hb h hcuts hroom _⟩
  · exact ⟨[], h0, hcuts0⟩

/-! ## The info words of a frame (R186, R214) -/

/-- The bits that codeword `i` of the encoded ones carries of the queue: its info word without the filled-up zeros. -/
def infoData (c : Code) (infos : List Bits) (short i : Nat) : Bits :=
  (infos.getD i []).take (c.k - if i + 1 = infos.length then short else 0)

/-- Words one after the other. -/
theorem flatMap_range_getD (l : List Bits) : (List.range l.length).flatMap (fun i => l.getD i []) = l.flatten := by
  induction l with
  | nil => rfl
  | cons x l ih =>
    rw [List.length_cons, List.range_succ_eq_map, List.flatMap_cons, List.flatMap_map, List.flatten_cons, ← ih]
    rfl

/-- The queue's bits are those its codewords carry, and the bits left (R186). -/
theorem Carries.txq_eq {s : State} {b : Nat} {c : Code} {infos : List Bits} {a : BuildAcc}
    (h : Carries s b c infos a) :
    s.txq = (List.range infos.length).flatMap (infoData c infos a.short) ++ a.txq := by
  have hqueue := h.queue
  rcases List.eq_nil_or_concat infos with rfl | ⟨init, x, hinfos⟩
  · simpa [h.short_of_nil rfl, zeros] using hqueue
  · rw [List.concat_eq_append] at hinfos
    have hx : x.length = c.k := h.lengths x (by simp [hinfos])
    have hinit : (List.range init.length).flatMap (infoData c infos a.short) = init.flatten := by
      rw [← flatMap_range_getD]
      refine List.flatMap_congr fun i hi => ?_
      have hlt := List.mem_range.1 hi
      have hlen : (init.getD i []).length = c.k := by
        rw [List.getD_eq_getElem _ _ hlt]
        exact h.lengths _ (by simp [hinfos])
      rw [infoData, hinfos, List.getD_append _ _ _ _ hlt, if_neg (by simp; omega), Nat.sub_zero,
        List.take_of_length_le hlen.le]
    have hlast : infoData c infos a.short init.length = x.take (c.k - a.short) := by simp [infoData, hinfos]
    have hcount : infos.length = init.length + 1 := by simp [hinfos]
    rw [hcount, List.range_succ, List.flatMap_append, hinit, List.flatMap_singleton, hlast]
    rw [hinfos, List.flatten_append, List.flatten_singleton] at hqueue
    by_cases hshort : a.short = 0
    · simpa [hshort, zeros, ← hx] using hqueue
    · have hsum := congrArg List.length hqueue
      have hlt := h.short_lt
      simp only [h.shortened (Nat.pos_of_ne_zero hshort), List.append_nil, List.length_append, length_zeros]
        at hqueue hsum ⊢
      calc s.txq = (s.txq ++ zeros a.short).take s.txq.length := (List.take_left ..).symm
        _ = (init.flatten ++ x).take s.txq.length := by rw [hqueue]
        _ = init.flatten ++ x.take (c.k - a.short) := by
          rw [List.take_append, List.take_of_length_le (by omega), show s.txq.length - init.flatten.length =
            c.k - a.short by omega]

/-- A codeword's data are never empty (R9, R186). -/
theorem Carries.infoData_length {s : State} {b : Nat} {c : Code} {infos : List Bits} {a : BuildAcc}
    (h : Carries s b c infos a) {i : Nat} (hi : i < infos.length) : 1 ≤ (infoData c infos a.short i).length := by
  have hlen : (infos.getD i []).length = c.k := by
    rw [List.getD_eq_getElem _ _ hi]
    exact h.lengths _ (List.getElem_mem _)
  have := h.short_lt
  rw [infoData, List.length_take, hlen]
  split <;> omega

/-! ## The stream at a codeword's first bit (R180) -/

/-- Strings of one length, one after the other, from the `i`-th on. -/
theorem drop_flatMap_of_length {α : Type} {f : α → Bits} {n : Nat} (hf : ∀ x, (f x).length = n) (l : List α) (i : Nat) :
    (l.flatMap f).drop (i * n) = (l.drop i).flatMap f := by
  induction i generalizing l with
  | zero => simp
  | succ i ih =>
    cases l with
    | nil => simp
    | cons x l =>
      rw [List.flatMap_cons, Nat.succ_mul, Nat.add_comm, ← List.drop_drop, List.drop_left' (hf x), ih,
        List.drop_succ_cons]

/-- New codeword `i` of a build, where the remnant is sent whole before it: its bits, and those of the codewords behind
it, are in the frame or pending. -/
theorem Carries.drop_out {s : State} {b : Nat} {c : Code} {infos : List Bits} {a : BuildAcc}
    (h : Carries s b c infos a) {i : Nat} (hi : i < infos.length)
    (hin : (remnantBits s).length + i * c.n ≤ a.out.length) :
    a.out.drop ((remnantBits s).length + i * c.n) ++ pendingBits a.rem =
      encodeWord c (infos.getD i []) ++ (infos.drop (i + 1)).flatMap (encodeWord c) := by
  rw [← List.drop_append_of_le_length hin, ← h.stream, ← List.drop_drop, List.drop_left' rfl,
    drop_flatMap_of_length (length_encodeWord c), List.drop_eq_getElem_cons hi, List.flatMap_cons,
    List.getD_eq_getElem _ _ hi]

/-- A new codeword that the frame holds whole (R186). -/
theorem Carries.take_drop_out {s : State} {b : Nat} {c : Code} {infos : List Bits} {a : BuildAcc}
    (h : Carries s b c infos a) {i : Nat} (hi : i < infos.length)
    (hin : (remnantBits s).length + i * c.n + c.n ≤ a.out.length) :
    (a.out.drop ((remnantBits s).length + i * c.n)).take c.n = encodeWord c (infos.getD i []) := by
  have hdrop := congrArg (List.take c.n) (h.drop_out hi (by omega))
  rwa [List.take_append_of_le_length (by rw [List.length_drop]; omega), List.take_left' (length_encodeWord ..)] at hdrop

/-! ## The delivery of a frame (R210) -/

/-- The receiver with the frame's header parsed and its samples in RX_SOFT. -/
def delivered (T R : State) : State :=
  withRxSoft { withHdrIn R (lineHeader T) with rxh := T.txh, hdrValid := true } (linePayload T)

/-- A noiseless header that fits is parsed back (R150 to R153). -/
theorem exec_hdrParse_of_line {R : State} (hp : paramsWf R.params = true) {f : Header}
    (hfits : headerFits R.params f = true) {x : List Sample}
    (hx : x = (headerBits R.params (headerSeed R) f).map softIdeal) :
    exec .hdrParse (withHdrIn R x) =
      .next { withHdrIn R x with rxh := restrictToLayout R.params f, hdrValid := true } := by
  have hlen : x.length = headerLen R.params := by rw [hx, List.length_map, length_headerBits hp]
  have parsed : headerParse (withHdrIn R x).params (headerSeed (withHdrIn R x)) (hdrInSamples (withHdrIn R x)) =
      some (restrictToLayout R.params f) := by
    rw [hdrInSamples_withHdrIn hlen (paramsWf_good hp).hbMax, hx]
    exact headerRoundTrip R.params f (headerSeed R) hp hfits
  rw [exec, execHdrParse, parsed]

/-- The samples a noiseless line carries of a build's header (R150, R182). -/
theorem lineHeader_buildFrame {s : State} (hp : paramsWf s.params = true) (b : Nat) (c : Code) :
    lineHeader (buildFrame s b c) =
      (headerBits s.params (headerSeed s) (buildFrame s b c).txh).map softIdeal := by
  have hlen := length_headerBits hp (headerSeed s) (buildFrame s b c).txh
  have hmax := (paramsWf_good hp).hbMax
  refine List.ext_getElem? fun j => ?_
  rw [lineHeader, List.getElem?_map, List.getElem?_map, show (buildFrame s b c).params = s.params from rfl]
  by_cases hj : j < headerLen s.params
  · rw [List.getElem?_range hj, Option.map_some, readBit_hdrOut_buildFrame s b c (by omega),
      List.getD_eq_getElem _ _ (by omega), List.getElem?_eq_getElem (by omega), Option.map_some]
  · rw [List.getElem?_eq_none (by simpa using hj), List.getElem?_eq_none (by omega)]
    rfl

/-- A build's frame is delivered, and the receiver's RX_FRAME answers (R210). -/
theorem deliverFrame_buildFrame {T R : State} (hi : Inv T) (hf : T.params.fecEn = true)
    (hparams : R.params = T.params) (hscr : R.scrEn = T.scrEn) {b : Nat} (hb : 1 ≤ b) {c : Code}
    (hc : code? T.params (frameCode T) = some c) {infos : List Bits} (h : Carries T b c infos (buildPayload T b c)) :
    deliverFrame (buildFrame T b c) R = nextState (exec .rxFrame (delivered (buildFrame T b c) R)) := by
  have hfits := headerFits_buildFrame hi hf hb hc h
  have hseed : headerSeed R = headerSeed T := by simp [headerSeed, hparams, hscr]
  have hline := lineHeader_buildFrame hi.params b c
  rw [← hparams, ← hseed] at hline
  have hlayout : restrictToLayout R.params (buildFrame T b c).txh = (buildFrame T b c).txh := by
    rw [restrictToLayout, hparams, if_pos hf]
  rw [deliverFrame, exec_hdrParse_of_line (hparams ▸ hi.params) (hparams ▸ hfits) hline, hlayout]
  rfl

/-- The received samples are those of the payload bits (R87, R189). -/
theorem rxSamples_delivered {T : State} (hi : Inv T) (R : State) {b : Nat} (hb : 1 ≤ b ∧ b ≤ 4) (c : Code)
    {pos len : Nat} (h : pos + len ≤ (buildPayload T b c).out.length) :
    rxSamples (delivered (buildFrame T b c) R) pos len =
      (((buildPayload T b c).out.drop pos).take len).map softIdeal := by
  have hbits := toNat_buildFrame_txPbits hi hb c
  have hfill := (ceilDiv_spec (buildPayload T b c).out.length hb.1).1
  have hmax := ceilDiv_buildPayload_le hi.flen hb c
  refine List.ext_getElem? fun j => ?_
  rw [rxSamples, List.getElem?_map]
  by_cases hj : j < len
  · have hlt : pos + j < (linePayload (buildFrame T b c)).length := by
      rw [linePayload, List.length_map, List.length_range, hbits]; omega
    have hsample : readByte (delivered (buildFrame T b c) R).mem (0x8000 + (pos + j)) =
        softIdeal ((buildPayload T b c).out.getD (pos + j) false) := by
      refine (readSample_replaceWindow _ rxSoftBase 0x8000 _ (j := pos + j) (by omega)).trans ?_
      rw [List.getD_eq_getElem _ _ hlt, ← readBit_payloadOut_buildFrame T hb.1 c (by omega)]
      simp [linePayload]
    rw [List.getElem?_range hj, Option.map_some, hsample, List.getElem?_map, List.getElem?_take_of_lt hj,
      List.getElem?_drop, List.getD_eq_getElem _ _ (by omega), List.getElem?_eq_getElem (by omega), Option.map_some]
  · rw [List.getElem?_eq_none (by simpa using hj), List.getElem?_eq_none (by simp; omega)]
    rfl

/-- A build's header passes the receiver's range checks (R211). -/
theorem rangeOk_buildFrame {T : State} (hi : Inv T) (hf : T.params.fecEn = true) {c : Code}
    (hc : code? T.params (frameCode T) = some c) {infos : List Bits}
    (h : Carries T T.mcsMod.toNat c infos (buildPayload T T.mcsMod.toNat c)) :
    RangeOk T.params (buildFrame T T.mcsMod.toNat c).txh c := by
  have hb := mcsMod_range hi
  obtain ⟨hk, hkn, _⟩ := code?_legal hi.params hf hc
  obtain ⟨hplen, hsymbols⟩ := toNat_buildFrame_plen hi hb.1 c
  have hmax := ceilDiv_buildPayload_le hi.flen hb c
  have hshort := (toNat_buildFrame_short hi hf hc h).1
  refine ⟨hb, hc, (legalFlen_iff.1 hi.flen).1, hsymbols, ?_, ?_, hshort ▸ h.short_lt⟩
  · rw [hplen]; exact hmax
  · cases hr : T.rem with
    | none =>
      rw [(buildFrame_leading_of_none T.mcsMod.toNat c hr).2.1]
      simp; omega
    | some r =>
      obtain ⟨c', hc', hbits, _, hn, _⟩ := remnantOk_iff.1 (remnantOk_of_rem hi hr)
      have hcode : frameCode T = r.fec := by simp [frameCode, hr]
      obtain rfl : c = c' := Option.some.inj (by rw [← hc, ← hc', hcode])
      rw [(buildFrame_leading_of_some hi hf T.mcsMod.toNat c hr).2.1]
      omega

/-! ## A frame on its way from `T` to `R` -/

/-- The payload of the transmitter's next frame. -/
def payload (T : State) (c : Code) : BuildAcc := buildPayload T T.mcsMod.toNat c

/-- The receiver with the transmitter's next frame delivered. -/
def received (T R : State) (c : Code) : State := delivered (buildFrame T T.mcsMod.toNat c) R

/-- The codewords of the next frame are no shorter than a symbol (log 14). -/
theorem le_of_frameFillsSymbols {T : State} {c : Code} (hc : code? T.params (frameCode T) = some c)
    (h : frameFillsSymbols T = true) : T.mcsMod.toNat ≤ c.n := by
  cases hr : T.rem <;> rw [frameCode, hr] at hc <;> simpa [frameFillsSymbols, hr, hc] using h

/-- The next frame of `T` is of code `c`, whose codewords are no shorter than a symbol, and encodes `infos`. -/
structure Sends (T : State) (c : Code) (infos : List Bits) : Prop where
  inv : Inv T
  fecEn : T.params.fecEn = true
  code : code? T.params (frameCode T) = some c
  fills : T.mcsMod.toNat ≤ c.n
  carries : Carries T T.mcsMod.toNat c infos (payload T c)
  cuts : Cuts T T.mcsMod.toNat c infos (payload T c)

/-- The frame has the samples of the payload's symbols (R189, R210). -/
theorem Sends.frameTotal_received {T : State} {c : Code} {infos : List Bits} (h : Sends T c infos) (R : State) :
    (payload T c).out.length ≤ frameTotal (received T R c) ∧
      frameTotal (received T R c) < (payload T c).out.length + T.mcsMod.toNat := by
  have hb := mcsMod_range h.inv
  have htotal : frameTotal (received T R c) =
      ceilDiv (payload T c).out.length T.mcsMod.toNat * T.mcsMod.toNat :=
    congrArg (· * T.mcsMod.toNat) (toNat_buildFrame_plen h.inv hb.1 c).1
  rw [htotal]
  exact ceilDiv_spec _ hb.1

/-- The receiver's samples are those of the payload (R189, R210). -/
theorem Sends.rxSamples_received {T : State} {c : Code} {infos : List Bits} (h : Sends T c infos) (R : State)
    {pos len : Nat} (hin : pos + len ≤ (payload T c).out.length) :
    rxSamples (received T R c) pos len = (((payload T c).out.drop pos).take len).map softIdeal :=
  rxSamples_delivered h.inv R (mcsMod_range h.inv) c hin

/-- The header's SHORT is that of the build (R184). -/
theorem Sends.short_received {T : State} {c : Code} {infos : List Bits} (h : Sends T c infos) (R : State) :
    (received T R c).rxh.short.toNat = (payload T c).short :=
  (toNat_buildFrame_short h.inv h.fecEn h.code h.carries).1

/-- A frame behind which bits stay pending is full, and has no fill (R185, R186). -/
theorem Sends.frameTotal_of_pending {T : State} {c : Code} {infos : List Bits} (h : Sends T c infos) (R : State)
    (hrem : (payload T c).rem ≠ none) :
    frameTotal (received T R c) = (payload T c).out.length ∧
      (payload T c).out.length = frameCapacity T T.mcsMod.toNat := by
  have hb := mcsMod_range h.inv
  have hcap : (payload T c).out.length = frameCapacity T T.mcsMod.toNat :=
    le_antisymm (length_buildPayload_le T _ c) (h.carries.full hrem)
  refine ⟨?_, hcap⟩
  have hplen := (toNat_buildFrame_plen h.inv hb.1 c).1
  have hceil : ceilDiv (payload T c).out.length T.mcsMod.toNat = T.flen.toNat * T.params.nc :=
    ceilDiv_eq hb.1 hcap.le (by rw [hcap, frameCapacity]; omega)
  calc frameTotal (received T R c)
      = ceilDiv (payload T c).out.length T.mcsMod.toNat * T.mcsMod.toNat := congrArg (· * T.mcsMod.toNat) hplen
    _ = (payload T c).out.length := by rw [hceil, hcap, frameCapacity]

/-- The remnant and the encoded codewords are what the frame holds and what stays pending (R180). -/
theorem Sends.length_stream {T : State} {c : Code} {infos : List Bits} (h : Sends T c infos) :
    (remnantBits T).length + infos.length * c.n = (payload T c).out.length + (pendingBits (payload T c).rem).length := by
  have hlen := congrArg List.length h.carries.stream
  have hconst : ((infos.flatMap (encodeWord c))).length = infos.length * c.n := by
    rw [List.length_flatMap]
    simp
  rwa [List.length_append, List.length_append, hconst] at hlen

/-- A codeword that the build cuts (R186, R187). -/
theorem Sends.cut_spec {T : State} {c : Code} {infos : List Bits} (h : Sends T c infos) (hne : infos ≠ [])
    {r : Remnant} (hr : (payload T c).rem = some r) :
    r.fec = c.id ∧ T.mcsMod.toNat ≤ r.off ∧ r.off + r.bits.length = c.n ∧ 1 ≤ r.bits.length ∧
      r.id = (incMod T.params.wCwid)^[infos.length - 1] T.nextCwId := by
  obtain ⟨hfec, hoff, hid⟩ := h.cuts.cut hne r hr
  have hok := (buildOk_buildPayload h.inv (mcsMod_range h.inv).1 h.code).rem r hr
  obtain ⟨c', hc', hbits, _, hn, _⟩ := remnantOk_iff.1 hok
  have hcode : code? T.params r.fec = some c := by
    rw [hfec, (code?_some h.code).2]; exact h.code
  obtain rfl : c = c' := Option.some.inj (hcode.symm.trans hc')
  exact ⟨hfec, hoff, hn, hbits, hid⟩

/-- The number of starts from the places of the last start and of the one behind it (R213). -/
theorem startCount_eq {n b total pos m : Nat} (hb : 1 ≤ b) (hlast : m ≠ 0 → pos + (m - 1) * n + b ≤ total)
    (hend : total < pos + m * n + b) : startCount n b total pos = m := by
  unfold startCount
  cases m with
  | zero => rw [if_pos (by omega)]
  | succ m =>
    have hroom := hlast (Nat.succ_ne_zero m)
    rw [Nat.add_sub_cancel] at hroom
    rw [Nat.succ_mul] at hend
    rw [if_neg (by omega), Nat.div_eq_of_lt_le (k := m) (by omega) (by rw [Nat.succ_mul]; omega)]

/-- Where the remnant is sent whole the receiver begins as many codewords as the transmitter encoded (R187, R213). -/
theorem Sends.newCount_received {T : State} {c : Code} {infos : List Bits} (h : Sends T c infos) (R : State)
    (hpos : newPos (received T R c) c = (remnantBits T).length) :
    newCount (received T R c) c = infos.length := by
  obtain ⟨hle, hlt⟩ := h.frameTotal_received R
  have hstream := h.length_stream
  have hfills := h.fills
  rw [newCount, hpos]
  refine startCount_eq (b := T.mcsMod.toNat) (mcsMod_range h.inv).1 (fun hne => ?_) (by omega)
  have hlast : (infos.length - 1) * c.n + c.n = infos.length * c.n := by
    rw [← Nat.succ_mul, show (infos.length - 1).succ = infos.length by omega]
  cases hrem : (payload T c).rem with
  | none =>
    rw [hrem, pendingBits_none, List.length_nil] at hstream
    omega
  | some r =>
    obtain ⟨_, hoff, hn, _⟩ := h.cut_spec (List.ne_nil_of_length_pos (Nat.pos_of_ne_zero hne)) hrem
    have htotal := (h.frameTotal_of_pending R (by simp [hrem])).1
    rw [hrem, pendingBits_some] at hstream
    omega

/-- The receiver's partial begins exactly where the transmitter cuts a new codeword (R186, R213). -/
theorem Sends.cutsLast_received_iff {T : State} {c : Code} {infos : List Bits} (h : Sends T c infos) (R : State)
    (hpos : newPos (received T R c) c = (remnantBits T).length) :
    CutsLast (received T R c) c ↔ infos ≠ [] ∧ (payload T c).rem ≠ none := by
  obtain ⟨hle, hlt⟩ := h.frameTotal_received R
  have hstream := h.length_stream
  rw [CutsLast, h.newCount_received R hpos, ne_eq, List.length_eq_zero_iff]
  refine and_congr_right fun hne => ?_
  have hlast : (infos.length - 1) * c.n + c.n = infos.length * c.n := by
    have := List.length_pos_of_ne_nil hne
    rw [← Nat.succ_mul, show (infos.length - 1).succ = infos.length by omega]
  rw [newStart, hpos]
  cases hrem : (payload T c).rem with
  | none =>
    rw [hrem, pendingBits_none, List.length_nil] at hstream
    simp only [ne_eq, not_true_eq_false, iff_false]
    omega
  | some r =>
    obtain ⟨_, _, _, hbits, _⟩ := h.cut_spec hne hrem
    have htotal := (h.frameTotal_of_pending R (by simp [hrem])).1
    rw [hrem, pendingBits_some] at hstream
    simp only [ne_eq, reduceCtorEq, not_false_eq_true, iff_true]
    omega

/-! ## Decoding over a noiseless line (R9, R215) -/

/-- A codeword received without noise is decoded to its info word, less its shortening (R9, R215). -/
theorem codewordResult_noiseless {c : Code} (hcontract : codecContract c = true) {x : Bits} (hx : x.length = c.k)
    (s : State) (id : BitVec 16) (short : Nat) :
    codewordResult s c id ((encodeWord c x).map softIdeal) short =
      (x.take (c.k - short), ⟨id, .ok, field 16 (c.k - short)⟩) := by
  have hdecode := decode_encode hcontract x hx
  rw [codewordResult_of_ok (by rw [hdecode]), hdecode]

/-- The whole codewords of the frame give their data (R186, R214). -/
theorem Sends.newResults_received {T : State} {c : Code} {infos : List Bits} (h : Sends T c infos) (R : State)
    (hpos : newPos (received T R c) c = (remnantBits T).length) {m : Nat} (hm : m ≤ infos.length)
    (hin : ∀ i < m, (remnantBits T).length + i * c.n + c.n ≤ (payload T c).out.length)
    (hwhole : wholeNumbers (received T R c) c = List.range m) :
    newResults (received T R c) c = (List.range m).map fun i =>
      (infoData c infos (payload T c).short i, ⟨newId (received T R c) i, .ok,
        field 16 (c.k - newShort (received T R c) c i)⟩) := by
  rw [newResults, hwhole]
  refine List.map_congr_left fun i hi => ?_
  have hlt := List.mem_range.1 hi
  have hb := mcsMod_range h.inv
  obtain ⟨_, _, _, _, hcontract⟩ := code?_legal h.inv.params h.fecEn h.code
  have hshort : newShort (received T R c) c i = if i + 1 = infos.length then (payload T c).short else 0 := by
    rw [newShort, h.newCount_received R hpos]
    exact congrArg (fun n => if i + 1 = infos.length then n else 0) (h.short_received R)
  have hx : (infos.getD i []).length = c.k := by
    rw [List.getD_eq_getElem _ _ (by omega)]
    exact h.carries.lengths _ (List.getElem_mem _)
  have hsamples : rxSamples (received T R c) (newStart (received T R c) c i) c.n =
      (encodeWord c (infos.getD i [])).map softIdeal := by
    rw [newStart, hpos, h.rxSamples_received R (hin i hlt), h.carries.take_drop_out (by omega) (hin i hlt)]
  rw [hsamples, codewordResult_noiseless hcontract hx, hshort]
  rfl

/-! ## What stands between two frames (R50, R56, R212) -/

/-- What the transmitter has still to send of a codeword (its remnant) is what the receiver's partial misses of it;
`data` are the bits of the transmitter's queue that the codeword carries. -/
inductive InFlight (p : Params) (rem : Option Remnant) (next : BitVec 16) (part : Option Partial) : Bits → Prop
  | idle (hrem : rem = none) (hpart : part = none) : InFlight p rem next part []
  | split (r : Remnant) (q : Partial) (c : Code) (x : Bits) (hrem : rem = some r) (hpart : part = some q)
      (hid : q.id = r.id) (hfec : q.fec = r.fec) (hlen : q.y.length = r.off) (hcode : code? p r.fec = some c)
      (hx : x.length = c.k) (hword : q.y ++ r.bits.map softIdeal = (encodeWord c x).map softIdeal)
      (hshort : q.short < c.k) (hnext : next = incMod p.wCwid r.id) :
      InFlight p rem next part (x.take (c.k - q.short))

/-- Without a codeword cut, the partial is what the leading codeword leaves (R212). -/
theorem framePartial_of_uncut {s : State} {c : Code} (h : ¬CutsLast s c) :
    framePartial s c = (leadingResult s c (frameTotal s)).2.2 := if_neg h

/-- What the receiver's next frame leaves of the stream: with `data` in flight before it, its bits and the data in
flight behind it are `data` and the transmitter's next data, and every report is OK, with a bit to it at least. -/
def FrameGives (T R : State) (c : Code) (data : Bits) : Prop :=
  (∃ data', InFlight T.params (payload T c).rem (payload T c).nextCwId (framePartial (received T R c) c) data' ∧
    data ++ T.txq = frameBits (received T R c) c ++ data' ++ (payload T c).txq) ∧
  (∀ e ∈ frameReports (received T R c) c, e.status = .ok) ∧
  (frameReports (received T R c) c).length ≤ (frameBits (received T R c) c).length

/-- The header's OFF is that of the remnant, and its CWID the remnant's id or the next one (R184). -/
theorem received_rxh_of_none {T : State} (R : State) (c : Code) (hrem : T.rem = none) :
    (received T R c).rxh.off = 0 ∧ (received T R c).rxh.cwid = T.nextCwId := by
  obtain ⟨hcwid, hoff, _⟩ := buildFrame_leading_of_none T.mcsMod.toNat c hrem
  exact ⟨hoff, hcwid⟩

theorem Sends.rxh_of_some {T : State} {c : Code} {infos : List Bits} (h : Sends T c infos) (R : State) {r : Remnant}
    (hrem : T.rem = some r) :
    (received T R c).rxh.off ≠ 0 ∧ (received T R c).rxh.off.toNat = r.off ∧ (received T R c).rxh.cwid = r.id ∧
      (received T R c).rxh.fec = r.fec ∧ r.off + r.bits.length = c.n := by
  obtain ⟨hcwid, hoff, hfec, _⟩ := buildFrame_leading_of_some h.inv h.fecEn T.mcsMod.toNat c hrem
  obtain ⟨c', hc', _, hpos, hn, _⟩ := remnantOk_iff.1 (remnantOk_of_rem h.inv hrem)
  have hcode : frameCode T = r.fec := by simp [frameCode, hrem]
  obtain rfl : c = c' := Option.some.inj (by rw [← h.code, ← hc', hcode])
  refine ⟨fun h0 => ?_, hoff, hcwid, hfec, hn⟩
  have h0 : (buildFrame T T.mcsMod.toNat c).txh.off = 0 := h0
  rw [h0] at hoff
  exact absurd hoff (by simp; omega)

/-- Where the frame holds all of the remnant, the receiver completes the codeword in flight, if there is one, and the new
codewords begin behind it with the transmitter's next id (R184, R212). -/
theorem Sends.lead_received {T R : State} {c : Code} {infos : List Bits} (h : Sends T c infos)
    (hparams : R.params = T.params) {data : Bits} (hfly : InFlight T.params T.rem T.nextCwId R.part data)
    (hsent : (remnantBits T).length ≤ (payload T c).out.length) :
    (∃ reps, leadingResult (received T R c) c (frameTotal (received T R c)) = (data, reps, none) ∧
      (∀ e ∈ reps, e.status = .ok) ∧ reps.length ≤ data.length) ∧
    newPos (received T R c) c = (remnantBits T).length ∧ firstNewId (received T R c) = T.nextCwId := by
  obtain ⟨hle, _⟩ := h.frameTotal_received R
  cases hfly with
  | idle hrem hpart =>
    obtain ⟨hoff, hcwid⟩ := received_rxh_of_none R c hrem
    have hpart : (received T R c).part = none := hpart
    refine ⟨⟨[], by simp [leadingResult, hpart, hoff], by simp, by simp⟩, ?_, ?_⟩
    · rw [newPos, if_pos hoff, remnantBits_eq, hrem]; rfl
    · rw [firstNewId, if_pos hoff, hcwid]
  | split r q c' x hrem hpart hid hfec hlen hcode hx hword hshort hnext =>
    obtain ⟨hoff, hoffNat, hcwid, hrfec, hn⟩ := h.rxh_of_some R hrem
    have hcode' : frameCode T = r.fec := by simp [frameCode, hrem]
    obtain rfl : c = c' := Option.some.inj (by rw [← h.code, ← hcode, hcode'])
    have hpart : (received T R c).part = some q := hpart
    have hbits : remnantBits T = r.bits := by rw [remnantBits_eq, hrem, pendingBits_some]
    have hneed : c.n - (received T R c).rxh.off.toNat = r.bits.length := by omega
    rw [hbits] at hsent ⊢
    obtain ⟨_, _, _, _, hcontract⟩ := code?_legal h.inv.params h.fecEn h.code
    have htake : (payload T c).out.take r.bits.length = r.bits := by
      have hstream := congrArg (List.take r.bits.length) h.carries.stream
      rwa [hbits, List.take_left' rfl, List.take_append_of_le_length hsent, eq_comm] at hstream
    have hsamples : rxSamples (received T R c) 0 r.bits.length = r.bits.map softIdeal := by
      rw [h.rxSamples_received R (by omega), List.drop_zero, htake]
    refine ⟨⟨_, leadingResult_of_complete hpart hoff ⟨by rw [hid, hcwid], by rw [hfec, hrfec], by omega⟩ (by omega)
      (by rw [hneed, hsamples, hword, codewordResult_noiseless hcontract hx]), by simp, ?_⟩, ?_, ?_⟩
    · simp; omega
    · rw [newPos, if_neg hoff]; omega
    · rw [firstNewId, if_neg hoff, hcwid, hnext, show (received T R c).params = T.params from hparams]

/-- A frame that ends inside the remnant extends the partial (R185, R212). -/
theorem Sends.gives_of_unsent {T R : State} {c : Code} {infos : List Bits} (h : Sends T c infos) {data : Bits}
    (hfly : InFlight T.params T.rem T.nextCwId R.part data)
    (hunsent : (payload T c).out.length < (remnantBits T).length) : FrameGives T R c data := by
  have hinfos : infos = [] := by
    by_contra hne
    exact absurd (h.cuts.sent hne) (not_le.2 hunsent)
  have hplaced : payload T c = placeRemnant (frameCapacity T T.mcsMod.toNat) (startBuild T) := h.cuts.lead hinfos
  cases hfly with
  | idle hrem => rw [remnantBits_eq, hrem] at hunsent; exact absurd hunsent (Nat.not_lt_zero _)
  | split r q c' x hrem hpart hid hfec hlen hcode hx hword hshort hnext =>
    obtain ⟨hoff, hoffNat, hcwid, hrfec, hn⟩ := h.rxh_of_some R hrem
    have hpart : (received T R c).part = some q := hpart
    rw [remnantBits_eq, hrem, pendingBits_some] at hunsent
    set cap := frameCapacity T T.mcsMod.toNat with hcap
    obtain ⟨hout, hrem', hnext', htxq⟩ : (payload T c).out = r.bits.take cap ∧
        (payload T c).rem = some { r with bits := r.bits.drop cap, off := r.off + cap } ∧
        (payload T c).nextCwId = T.nextCwId ∧ (payload T c).txq = T.txq := by
      rcases placeRemnant_cases cap (startBuild T) with ⟨hnone, _⟩ | ⟨r', hr', ⟨_, e⟩ | ⟨_, e⟩⟩
      · cases hnone.symm.trans hrem
      · obtain rfl := Option.some.inj (hr'.symm.trans hrem)
        rw [hplaced, e] at hunsent
        exact absurd hunsent (lt_irrefl _)
      · obtain rfl := Option.some.inj (hr'.symm.trans hrem)
        rw [hplaced, e]
        exact ⟨rfl, rfl, rfl, rfl⟩
    obtain ⟨htotal, hfull⟩ := h.frameTotal_of_pending R (by simp [hrem'])
    have hshortFrame : frameTotal (received T R c) < c.n - (received T R c).rxh.off.toNat := by omega
    have hlead := leadingResult_of_extend hpart hoff ⟨by rw [hid, hcwid], by rw [hfec, hrfec], by omega⟩ hshortFrame
    have hsamples : rxSamples (received T R c) 0 (frameTotal (received T R c)) = (r.bits.take cap).map softIdeal := by
      rw [htotal, h.rxSamples_received R (by omega), List.drop_zero, List.take_length, hout]
    have hcount : newCount (received T R c) c = 0 :=
      if_pos (no_new_of_le_need hoff (mcsMod_range h.inv).1 hshortFrame.le)
    have hresults : newResults (received T R c) c = [] := by rw [newResults, wholeNumbers, hcount]; rfl
    have hpartial := framePartial_of_uncut (not_and_of_not_left _ (not_not.2 hcount)) (c := c) (s := received T R c)
    rw [hlead, hsamples] at hpartial
    have hsplit := InFlight.split { r with bits := r.bits.drop cap, off := r.off + cap }
      { q with y := q.y ++ (r.bits.take cap).map softIdeal } c' x hrem' hpartial hid hfec
      (by rw [List.length_append, List.length_map, ← hout, hfull, hlen]) hcode hx
      (by rw [List.append_assoc, ← List.map_append, List.take_append_drop, hword]) hshort (hnext' ▸ hnext)
    refine ⟨⟨_, hsplit, ?_⟩, ?_, ?_⟩ <;> simp [frameBits, frameReports, hlead, hresults, htxq]

/-- The first bit of the codeword that the build cuts: the frame ends `off` bits behind it (R186). -/
theorem Sends.cut_start {T : State} {c : Code} {infos : List Bits} (h : Sends T c infos) {m : Nat}
    (hm : infos.length = m + 1) {r : Remnant} (hr : (payload T c).rem = some r) :
    (remnantBits T).length + m * c.n + r.off = (payload T c).out.length := by
  have hstream := h.length_stream
  obtain ⟨_, _, hn, _⟩ := h.cut_spec (List.ne_nil_of_length_pos (by omega)) hr
  rw [hm, hr, pendingBits_some, Nat.succ_mul] at hstream
  omega

/-- The receiver's ids are those of the transmitter (R186, R213). -/
theorem newId_of_first {T R : State} {c : Code} (hparams : R.params = T.params)
    (hfirst : firstNewId (received T R c) = T.nextCwId) (i : Nat) :
    newId (received T R c) i = (incMod T.params.wCwid)^[i] T.nextCwId := by
  rw [newId, hfirst, show (received T R c).params = T.params from hparams]

/-- What is in flight behind a frame that cuts a new codeword: the samples at its end are the codeword's first ones,
and the transmitter keeps the others (R186, R213). -/
theorem Sends.inFlight_of_cut {T R : State} {c : Code} {infos : List Bits} (h : Sends T c infos)
    (hparams : R.params = T.params) (hpos : newPos (received T R c) c = (remnantBits T).length)
    (hfirst : firstNewId (received T R c) = T.nextCwId) {m : Nat} (hm : infos.length = m + 1) {r : Remnant}
    (hr : (payload T c).rem = some r) :
    InFlight T.params (payload T c).rem (payload T c).nextCwId (framePartial (received T R c) c)
      (infoData c infos (payload T c).short m) := by
  have hne : infos ≠ [] := List.ne_nil_of_length_pos (by omega)
  obtain ⟨hfec, _, hn, _, hid⟩ := h.cut_spec hne hr
  obtain ⟨hcode, hcid⟩ := code?_some h.code
  rw [hm, Nat.add_sub_cancel] at hid
  have hcut : CutsLast (received T R c) c := (h.cutsLast_received_iff R hpos).2 ⟨hne, by simp [hr]⟩
  have htotal := (h.frameTotal_of_pending R (by simp [hr])).1
  have hstart := h.cut_start hm hr
  have hword := h.carries.drop_out (i := m) (by omega) (by omega)
  rw [show infos.drop (m + 1) = [] from List.drop_of_length_le hm.le, List.flatMap_nil, List.append_nil, hr,
    pendingBits_some] at hword
  have hy : rxSamples (received T R c) (newStart (received T R c) c m)
      (frameTotal (received T R c) - newStart (received T R c) c m) =
        ((payload T c).out.drop ((remnantBits T).length + m * c.n)).map softIdeal := by
    rw [newStart, hpos, htotal, h.rxSamples_received R (by omega), List.take_of_length_le (List.length_drop ..).le]
  have hpartial := framePartial_of_cut hcut ((h.newCount_received R hpos).trans hm)
  rw [hy, h.short_received R] at hpartial
  rw [infoData, if_pos hm.symm]
  exact .split r _ c (infos.getD m []) hr hpartial ((newId_of_first hparams hfirst m).trans hid.symm)
    (hcid.symm.trans hfec.symm) (by rw [List.length_map, List.length_drop]; omega)
    (by rw [hfec, hcid]; exact h.code)
    (by rw [List.getD_eq_getElem _ _ (by omega)]; exact h.carries.lengths _ (List.getElem_mem _))
    (by rw [← hword, List.map_append]) h.carries.short_lt
    (by rw [h.cuts.ids, hm, Function.iterate_succ_apply', hid])

/-- What a frame gives that holds all of the remnant, where `m` new codewords are whole (R212 to R215). -/
theorem Sends.whole_received {T R : State} {c : Code} {infos : List Bits} (h : Sends T c infos)
    {data : Bits} {reps : List Report} {part : Option Partial}
    (hlead : leadingResult (received T R c) c (frameTotal (received T R c)) = (data, reps, part))
    (hpos : newPos (received T R c) c = (remnantBits T).length)
    (hok : ∀ e ∈ reps, e.status = .ok) (hlen : reps.length ≤ data.length) {m : Nat} (hm : m ≤ infos.length)
    (hin : (remnantBits T).length + m * c.n ≤ (payload T c).out.length)
    (hwhole : wholeNumbers (received T R c) c = List.range m) :
    frameBits (received T R c) c = data ++ (List.range m).flatMap (infoData c infos (payload T c).short) ∧
      (∀ e ∈ frameReports (received T R c) c, e.status = .ok) ∧
      (frameReports (received T R c) c).length ≤ (frameBits (received T R c) c).length := by
  have hresults := h.newResults_received R hpos hm (fun i hi => by
    have := Nat.mul_le_mul_right c.n (Nat.succ_le_of_lt hi)
    rw [Nat.succ_mul] at this
    omega) hwhole
  have hbits : frameBits (received T R c) c =
      data ++ (List.range m).flatMap (infoData c infos (payload T c).short) := by
    rw [frameBits, hlead, hresults, List.flatMap_map]
  refine ⟨hbits, fun e he => ?_, ?_⟩
  · rw [frameReports, hlead, hresults, List.mem_append] at he
    rcases he with he | he
    · exact hok e he
    · simp only [List.map_map, List.mem_map] at he
      obtain ⟨i, _, rfl⟩ := he
      rfl
  · have hdata : m ≤ ((List.range m).flatMap (infoData c infos (payload T c).short)).length := by
      have hone := List.length_le_sum_of_one_le
        ((List.range m).map fun i => (infoData c infos (payload T c).short i).length) fun n hn => by
          obtain ⟨i, hi, rfl⟩ := List.mem_map.1 hn
          exact h.carries.infoData_length ((List.mem_range.1 hi).trans_le hm)
      rwa [List.length_map, List.length_range, ← List.length_flatMap] at hone
    rw [hbits, frameReports, hlead, hresults]
    simp only [List.length_append, List.length_map, List.length_range]
    omega

/-- A frame that holds all of the remnant completes the codeword in flight and gives the new ones, the last of which may
be split (R185, R186, R212, R213). -/
theorem Sends.gives_of_sent {T R : State} {c : Code} {infos : List Bits} (h : Sends T c infos)
    (hparams : R.params = T.params) {data : Bits} (hfly : InFlight T.params T.rem T.nextCwId R.part data)
    (hsent : (remnantBits T).length ≤ (payload T c).out.length) : FrameGives T R c data := by
  obtain ⟨⟨reps, hlead, hok, hlen⟩, hpos, hfirst⟩ := h.lead_received hparams hfly hsent
  have hb := (mcsMod_range h.inv).1
  have hcutIff := h.cutsLast_received_iff R hpos
  have hcount := h.newCount_received R hpos
  have htxq := h.carries.txq_eq
  by_cases hcut : CutsLast (received T R c) c
  · obtain ⟨hne, hrem⟩ := hcutIff.1 hcut
    obtain ⟨r, hr⟩ := Option.ne_none_iff_exists'.1 hrem
    obtain ⟨m, hm⟩ := Nat.exists_eq_succ_of_ne_zero (mt List.length_eq_zero_iff.1 hne)
    have hstart := h.cut_start hm hr
    obtain ⟨hbits, hreps⟩ := h.whole_received hlead hpos hok hlen (m := m) (by omega) (by omega)
      (wholeNumbers_of_cut hb hcut (hcount.trans hm))
    refine ⟨⟨_, h.inFlight_of_cut hparams hpos hfirst hm hr, ?_⟩, hreps⟩
    rw [htxq, hbits, hm, List.range_succ]
    simp [List.flatMap_append]
  · have hrem : (payload T c).rem = none := by
      by_contra hne
      have hinfos : infos = [] := not_not.1 fun h0 => hcut (hcutIff.2 ⟨h0, hne⟩)
      have hstream := h.length_stream
      obtain ⟨r, hr⟩ := Option.ne_none_iff_exists'.1 hne
      obtain ⟨_, _, hbits, _⟩ := remnantOk_iff.1 ((buildOk_buildPayload h.inv hb h.code).rem r hr)
      rw [hinfos, hr, pendingBits_some, List.length_nil, Nat.zero_mul] at hstream
      omega
    have hstream := h.length_stream
    rw [hrem, pendingBits_none, List.length_nil] at hstream
    obtain ⟨hbits, hreps⟩ := h.whole_received hlead hpos hok hlen le_rfl hstream.le
      ((wholeNumbers_of_uncut hb hcut).trans (congrArg _ hcount))
    have hpartial := (framePartial_of_uncut hcut).trans (congrArg (fun a => a.2.2) hlead)
    refine ⟨⟨[], .idle hrem hpartial, ?_⟩, hreps⟩
    rw [htxq, hbits, List.append_nil, List.append_assoc]

/-- The receiver's next frame gives what the transmitter's next frame carries (R221). -/
theorem Sends.frameGives {T R : State} {c : Code} {infos : List Bits} (h : Sends T c infos)
    (hparams : R.params = T.params) {data : Bits} (hfly : InFlight T.params T.rem T.nextCwId R.part data) :
    FrameGives T R c data := by
  by_cases hsent : (remnantBits T).length ≤ (payload T c).out.length
  · exact h.gives_of_sent hparams hfly hsent
  · exact h.gives_of_unsent hfly (not_le.1 hsent)

/-! ## What a link keeps (R221) -/

/-- Reports that are all OK record no cause (R215). -/
theorem withReports_of_ok (s : State) {reps : List Report} (h : ∀ e ∈ reps, e.status = .ok) :
    withReports s reps = { s with rep := s.rep ++ reps } := by
  have hcauses : reps.filterMap reportCause = [] :=
    List.filterMap_eq_nil_iff.2 fun e he => by rw [reportCause, h e he]
  rw [withReports_eq_raiseAll, hcauses]
  rfl

/-- A link of parameters `p` through which `pushed` has been sent: the receiver's queue, the data in flight and the
transmitter's queue are these bits, every report is OK, with a bit to it at least, and the receiver recorded no cause. -/
structure LinkInv (p : Params) (pushed : Bits) (T R : State) : Prop where
  inv : Inv T
  txParams : T.params = p
  rxParams : R.params = p
  scrEn : R.scrEn = T.scrEn
  stream : ∃ data, InFlight p T.rem T.nextCwId R.part data ∧ R.rxq ++ data ++ T.txq = pushed
  reports : ∀ e ∈ R.rep, e.status = .ok
  room : R.rep.length ≤ R.rxq.length
  err : R.err = 0

/-- A link before its first event. -/
theorem linkInv_resetWith {p : Params} (hp : paramsWf p = true) (scr : Bool) :
    LinkInv p [] { State.resetWith p with scrEn := scr } { State.resetWith p with scrEn := scr } where
  inv := { inv_resetWith hp with noFec := (inv_resetWith hp).noFec }
  txParams := rfl
  rxParams := rfl
  scrEn := rfl
  stream := ⟨[], .idle rfl rfl, rfl⟩
  reports := by simp
  room := le_rfl
  err := rfl

/-- An instruction of the transmitter that appends to its queue. -/
theorem LinkInv.of_exec {p : Params} {pushed : Bits} {T R : State} (h : LinkInv p pushed T R) {i : Instr} {T' : State}
    (ht : exec i T = .next T') {x : Bits} (hscr : T'.scrEn = T.scrEn) (hrem : T'.rem = T.rem)
    (hnext : T'.nextCwId = T.nextCwId) (htxq : T'.txq = T.txq ++ x) : LinkInv p (pushed ++ x) T' R := by
  obtain ⟨data, hfly, hstream⟩ := h.stream
  exact { h with
    inv := exec_inv i h.inv T' ht
    txParams := (exec_params i T T' ht).trans h.txParams
    scrEn := h.scrEn.trans hscr.symm
    stream := ⟨data, by rw [hrem, hnext]; exact hfly, by rw [htxq, ← List.append_assoc, hstream]⟩ }

/-- A frame is built and delivered: nothing is lost, and all that was pushed has room at the receiver (R217, R221). -/
theorem LinkInv.build {p : Params} {pushed : Bits} {T R : State} (h : LinkInv p pushed T R) (hf : p.fecEn = true)
    (hfills : frameFillsSymbols T = true) (hrxq : pushed.length ≤ p.rxqCap) (hrep : pushed.length ≤ p.cwrepCap)
    {T' R' : State} (ht : exec .txBuild T = .next T') (hr : deliverFrame T' R = some R') : LinkInv p pushed T' R' := by
  obtain rfl := h.txParams
  obtain ⟨data, hfly, hstream⟩ := h.stream
  obtain ⟨c, hc⟩ := exists_code?_frameCode h.inv hf
  have hb := mcsMod_range h.inv
  rw [exec_txBuild h.inv hf hc, Host.Outcome.next.injEq] at ht
  subst ht
  obtain ⟨infos, hcarries, hcuts⟩ := exists_carries_cuts h.inv hb.1 (code?_legal h.inv.params hf hc).1
  have hsends : Sends T c infos := ⟨h.inv, hf, hc, le_of_frameFillsSymbols hc hfills, hcarries, hcuts⟩
  obtain ⟨⟨data', hfly', hdata⟩, hok, hlen⟩ := hsends.frameGives h.rxParams hfly
  rw [List.append_assoc, hdata, List.append_assoc, ← List.append_assoc] at hstream
  have hlength := congrArg List.length hstream
  simp only [List.length_append] at hlength
  have hroom := h.room
  have hrxParams : (received T R c).params = T.params := h.rxParams
  rw [deliverFrame_buildFrame h.inv hf h.rxParams h.scrEn hb.1 hc hcarries] at hr
  change nextState (exec .rxFrame (received T R c)) = some R' at hr
  rw [exec_rxFrame_eq (hrxParams ▸ hf) rfl (hrxParams ▸ rangeOk_buildFrame h.inv hf hc hcarries),
    commitFrame_of_room _ (hrxParams ▸ (show R.rxq.length + _ ≤ _ by omega))
      (hrxParams ▸ (show R.rep.length + _ ≤ _ by omega)), withReports_of_ok _ hok] at hr
  obtain rfl := Option.some.inj hr
  exact {
    inv := inv_buildFrame h.inv hf hb hc
    txParams := rfl
    rxParams := h.rxParams
    scrEn := h.scrEn
    stream := ⟨data', hfly', (List.append_assoc ..).trans hstream⟩
    reports := fun e he => (List.mem_append.1 he).elim (h.reports e) (hok e)
    room := by simp only [List.length_append]; exact Nat.add_le_add hroom hlen
    err := h.err }

/-! ## The events of a link (R221) -/

/-- The transmitter's instruction of an event. -/
def eventInstr : LinkEvent → Instr
  | .push data cnt => .txPush data cnt
  | .setMcs v => .wr 0x00C v 4
  | .setFlen v => .wr 0x010 v 4
  | .build => .txBuild

/-- An event is the transmitter's instruction, and for a build the delivery of the frame. -/
theorem linkStep_eq_some_iff {e : LinkEvent} {T R T' R' : State} :
    linkStep e (T, R) = some (T', R') ↔
      exec (eventInstr e) T = .next T' ∧ if e = .build then deliverFrame T' R = some R' else R' = R := by
  have hnext (o : Host.Outcome State Fault Refusal) (t : State) : nextState o = some t ↔ o = .next t := by
    cases o <;> simp [nextState]
  cases e <;> simp [linkStep, eventInstr, hnext, Option.bind_eq_some_iff, eq_comm (a := R)]

theorem exec_setMcs (v : Word) (s : State) :
    exec (.wr 0x00C v 4) s = .next (recorded 4 s) ∨
      ∃ m f, exec (.wr 0x00C v 4) s = .next { s with mcsMod := m, mcsFec := f } := by
  rw [exec_wr_reg (a := 0x00C) (r := .mcs) (by decide) (by decide), writeReg_mcs]
  split
  · exact .inr ⟨_, _, rfl⟩
  · exact .inl rfl

theorem exec_setFlen (v : Word) (s : State) :
    exec (.wr 0x010 v 4) s = .next (recorded 4 s) ∨ ∃ l, exec (.wr 0x010 v 4) s = .next { s with flen := l } := by
  rw [exec_wr_reg (a := 0x010) (r := .flen) (by decide) (by decide), writeReg_flen]
  split
  · exact .inr ⟨_, rfl⟩
  · exact .inl rfl

/-- Recording a cause lowers no bit of ERR (R277). -/
theorem getLsbD_err_of_recorded {n j : Nat} {s : State} (h : (recorded n s).err.getLsbD j = false) :
    s.err.getLsbD j = false := by
  rw [recorded_err, BitVec.getLsbD_or, Bool.or_eq_false_iff] at h
  exact h.1

/-- No event of a link lowers a bit of the transmitter's ERR (R255). -/
theorem getLsbD_err_of_exec_eventInstr (e : LinkEvent) (s : State) (j : Nat) :
    Answers (fun t => t.err.getLsbD j = false → s.err.getLsbD j = false) (exec (eventInstr e) s) := by
  cases e with
  | push data cnt =>
    rw [eventInstr, exec]
    rcases execTxPush_cases data cnt s with ⟨_, e⟩ | ⟨_, _, e⟩ | ⟨_, _, _, e⟩ | ⟨_, _, _, e⟩ <;>
      rw [e, answers_next]
    · exact raise_eq_recorded s .cmdUnsupported ▸ getLsbD_err_of_recorded
    · exact raise_eq_recorded s .cmdArg ▸ getLsbD_err_of_recorded
    · exact raise_eq_recorded s .txqOvf ▸ getLsbD_err_of_recorded
    · exact id
  | setMcs v =>
    rcases exec_setMcs v s with e | ⟨m, f, e⟩ <;> rw [eventInstr, e, answers_next]
    · exact getLsbD_err_of_recorded
    · exact id
  | setFlen v =>
    rcases exec_setFlen v s with e | ⟨l, e⟩ <;> rw [eventInstr, e, answers_next]
    · exact getLsbD_err_of_recorded
    · exact id
  | build =>
    rw [eventInstr, exec, execTxBuild]
    split
    · rw [answers_next, raise_eq_recorded]
      exact getLsbD_err_of_recorded
    · split
      · exact answers_next.2 id
      · exact answers_fault _ _

/-- A run of the link keeps the bits of the transmitter's ERR (R255). -/
theorem getLsbD_err_of_linkRun {es : List LinkEvent} {l : State × State} {T R : State} (h : linkRun es l = some (T, R))
    {j : Nat} (hj : T.err.getLsbD j = false) : l.1.err.getLsbD j = false := by
  induction es generalizing l with
  | nil => cases h; exact hj
  | cons e es ih =>
    obtain ⟨l', hstep, hrun⟩ := Option.bind_eq_some_iff.1 h
    exact getLsbD_err_of_exec_eventInstr e l.1 j _ (linkStep_eq_some_iff.1 hstep).1 (ih hrun)

/-- A push that is not refused sends its bits through the link (R181). -/
theorem LinkInv.push {p : Params} {pushed : Bits} {T R : State} (h : LinkInv p pushed T R) (hf : p.fecEn = true)
    {data : BitVec 8} {cnt : BitVec 4} {T' : State} (ht : exec (.txPush data cnt) T = .next T')
    (harg : T'.err.getLsbD 3 = false) (hovf : T'.err.getLsbD 5 = false) :
    LinkInv p (pushed ++ pushedBits [.push data cnt]) T' R := by
  have hexec := ht
  rw [exec] at hexec
  rcases execTxPush_cases data cnt T with ⟨hno, e⟩ | ⟨_, _, e⟩ | ⟨_, _, _, e⟩ | ⟨_, hcnt, _, e⟩ <;>
    rw [e, Host.Outcome.next.injEq] at hexec <;> subst hexec
  · exact absurd (hno.symm.trans (h.txParams ▸ hf)) (by simp)
  · simp [raise_eq_recorded, causeCode] at harg
  · simp [raise_eq_recorded, causeCode] at hovf
  · have hle : cnt.toNat ≤ 8 := by
      simp only [cntLegal, Bool.and_eq_true, decide_eq_true_eq] at hcnt
      exact hcnt.2
    refine h.of_exec ht rfl rfl rfl ?_
    rw [pushBits_eq data hle, pushedBits, List.flatMap_singleton]

/-- A write to MCS, accepted or not, sends nothing (R38). -/
theorem LinkInv.setMcs {p : Params} {pushed : Bits} {T R : State} (h : LinkInv p pushed T R) {v : Word} {T' : State}
    (ht : exec (.wr 0x00C v 4) T = .next T') : LinkInv p (pushed ++ []) T' R := by
  rcases exec_setMcs v T with e | ⟨m, f, e⟩ <;> obtain rfl := Host.Outcome.next.inj (e.symm.trans ht) <;>
    exact h.of_exec ht rfl rfl rfl (List.append_nil _).symm

/-- A write to FLEN, accepted or not, sends nothing (R39). -/
theorem LinkInv.setFlen {p : Params} {pushed : Bits} {T R : State} (h : LinkInv p pushed T R) {v : Word} {T' : State}
    (ht : exec (.wr 0x010 v 4) T = .next T') : LinkInv p (pushed ++ []) T' R := by
  rcases exec_setFlen v T with e | ⟨l, e⟩ <;> obtain rfl := Host.Outcome.next.inj (e.symm.trans ht) <;>
    exact h.of_exec ht rfl rfl rfl (List.append_nil _).symm

/-- Every event keeps the link (R221). -/
theorem LinkInv.step {p : Params} {pushed : Bits} {T R : State} (h : LinkInv p pushed T R) (hf : p.fecEn = true)
    {e : LinkEvent} (hfills : (e != .build || frameFillsSymbols T) = true) (hrxq : pushed.length ≤ p.rxqCap)
    (hrep : pushed.length ≤ p.cwrepCap) {T' R' : State} (hstep : linkStep e (T, R) = some (T', R'))
    (harg : T'.err.getLsbD 3 = false) (hovf : T'.err.getLsbD 5 = false) :
    LinkInv p (pushed ++ pushedBits [e]) T' R' := by
  obtain ⟨ht, hr⟩ := linkStep_eq_some_iff.1 hstep
  cases e with
  | push data cnt => cases hr; exact h.push hf ht harg hovf
  | setMcs v => cases hr; exact h.setMcs ht
  | setFlen v => cases hr; exact h.setFlen ht
  | build =>
    have hbuilt := h.build hf (by simpa using hfills) hrxq hrep ht hr
    rwa [← List.append_nil pushed] at hbuilt

/-- Every run keeps the link, by induction on the events (R221). -/
theorem LinkInv.run {p : Params} (hf : p.fecEn = true) {es : List LinkEvent} {pushed : Bits} {T₀ R₀ T R : State}
    (h : LinkInv p pushed T₀ R₀) (hfills : linkFillsSymbols es (T₀, R₀) = true)
    (hrxq : (pushed ++ pushedBits es).length ≤ p.rxqCap) (hrep : (pushed ++ pushedBits es).length ≤ p.cwrepCap)
    (hrun : linkRun es (T₀, R₀) = some (T, R)) (harg : T.err.getLsbD 3 = false) (hovf : T.err.getLsbD 5 = false) :
    LinkInv p (pushed ++ pushedBits es) T R := by
  induction es generalizing pushed T₀ R₀ with
  | nil => cases hrun; simpa [pushedBits] using h
  | cons e es ih =>
    obtain ⟨⟨T₁, R₁⟩, hstep, hrest⟩ := Option.bind_eq_some_iff.1 hrun
    have hpushed : pushed ++ pushedBits (e :: es) = pushed ++ pushedBits [e] ++ pushedBits es := by
      simp [pushedBits]
    rw [hpushed] at hrxq hrep ⊢
    rw [linkFillsSymbols, hstep, Bool.and_eq_true] at hfills
    have hstart : pushed.length ≤ (pushed ++ pushedBits [e] ++ pushedBits es).length := by
      simp only [List.length_append]; omega
    have h₁ := h.step hf hfills.1 (hstart.trans hrxq) (hstart.trans hrep) hstep (getLsbD_err_of_linkRun hrest harg)
      (getLsbD_err_of_linkRun hrest hovf)
    exact ih h₁ hfills.2 hrxq hrep hrest

/-- Settles O52, by `LinkInv` along the run: the receiver's queue is what was pushed, up to the data in flight and the
transmitter's queue. -/
theorem linkReturnsTheBitsPushed : Obligations.LinkReturnsTheBitsPushed := by
  intro p scr es T R hp hf hfills hrxq hrep hrun harg hovf
  have h := (linkInv_resetWith hp scr).run hf hfills (by simpa using hrxq) (by simpa using hrep) hrun harg hovf
  obtain ⟨data, hfly, hstream⟩ := h.stream
  rw [List.nil_append] at hstream
  refine ⟨⟨data ++ T.txq, by rw [← List.append_assoc, hstream]⟩, fun htxq hrem => ?_, h.reports, h.err⟩
  cases hfly with
  | idle => simpa [htxq] using hstream
  | split r _ _ _ hr => cases hr.symm.trans hrem

end Sys2Proof.Machine
end

section
/-!
# Reset, NOP and the error record (43_host_access.md)

The reset table of the constructed state and of SOFT_RESET with the registers computed from it, NOP, and that a bit of
ERR falls only by a host's write to ERR or by reset (R250, R251, R255, R300).
-/

namespace Sys2Proof.Machine

/-! ## NOP (R250) -/

/-- Settles O15: the word is the first row of the opcode map, and NOP answers its own state. -/
theorem nopChangesNothing : Obligations.NopChangesNothing :=
  ⟨by decide, fun _ => rfl⟩

/-! ## The reset table (R251, R300) -/

/-- The reset state has the values of the reset table, whatever the host has pending and read last (log 11). -/
theorem resetValues_resetWith (p : Params) (bus : List BusAccess) (rdata : Word) :
    ResetValues p { State.resetWith p with bus := bus, rdata := rdata } := by
  simp [ResetValues, readByte, unlisted]

/-- The reset table fixes every field of the state but the memory's listing and the host's side. -/
theorem ResetValues.eq {p : Params} {t : State} (h : ResetValues p t) :
    t = { State.resetWith p with mem := t.mem, bus := t.bus, rdata := t.rdata } := by
  cases t
  simp only [ResetValues] at h
  simp [State.resetWith, h]

/-- STATUS reads 0 in every state of the reset table: it depends on neither the memory nor the host's side (R44, R300). -/
theorem ResetValues.statusWord_eq {p : Params} {t : State} (h : ResetValues p t) : statusWord t = 0 := by
  rw [h.eq]
  exact statusWord_resetWith p

/-- Settles O8: both resets give the reset state, and the computed registers read what its fields spell. -/
theorem constructionAndSoftResetGiveTheResetTable : Obligations.ConstructionAndSoftResetGiveTheResetTable := by
  intro p hwf
  have hp : paramsWf p = true := paramsWf_iff_wellFormedParameters.2 hwf
  refine ⟨⟨_, construct_eq_ok_iff.2 ⟨hp, rfl⟩, resetValues_resetWith p [] 0⟩, ?_, fun t ht => ?_⟩
  · rintro s rfl
    exact ⟨_, rfl, resetValues_resetWith s.params s.bus s.rdata, rfl, rfl⟩
  · have hparams : t.params = p := by rw [ht.eq]; rfl
    have htxq : t.txq = [] := by rw [ht.eq]; rfl
    have hrxq : t.rxq = [] := by rw [ht.eq]; rfl
    have hrep : t.rep = [] := by rw [ht.eq]; rfl
    have hlevel {α : Type} {q : List α} (hq : q = []) : (field 32 q.length).toNat = 0 := by
      rw [hq]; exact toNat_field (Nat.two_pow_pos 32)
    exact ⟨
      exec_rd_reg (r := .id) (by decide) t,
      exec_rd_number (r := .caps) (by decide) (hparams ▸ toNat_capsWord (hparams ▸ hp)),
      exec_rd_number (r := .status) (by decide) (congrArg BitVec.toNat ht.statusWord_eq),
      exec_rd_number (r := .txqLevel) (by decide) (hlevel htxq),
      exec_rd_number (r := .rxqLevel) (by decide) (hlevel hrxq),
      exec_rd_number (r := .cwrepLevel) (by decide) (hlevel hrep)⟩

/-! ## What keeps the bits of ERR (R255, R272) -/

/-- No bit of ERR that is set in the first state is 0 in the second. -/
def KeepsErrBits (s t : State) : Prop := ∀ j, t.err.getLsbD j = false → s.err.getLsbD j = false

/-- A change that leaves ERR alone keeps its bits. -/
theorem keepsErrBits_of_eq {s t : State} (h : t.err = s.err) : KeepsErrBits s t := fun _ hj => h ▸ hj

/-- Recording a cause keeps the bits of ERR (R272). -/
theorem keepsErrBits_raise (c : Cause) (s : State) : KeepsErrBits s (raise c s) :=
  fun _ hj => getLsbD_err_of_recorded (raise_eq_recorded s c ▸ hj)

/-- Recording causes keeps the bits of ERR (R277). -/
theorem keepsErrBits_raiseAll (cs : List Cause) (s : State) : KeepsErrBits s (raiseAll cs s) := by
  induction cs generalizing s with
  | nil => exact keepsErrBits_of_eq rfl
  | cons c cs ih => exact fun j hj => keepsErrBits_raise c s j (ih (raise c s) j hj)

/-- Committing a deframing keeps the bits of ERR (R217). -/
theorem keepsErrBits_commitFrame (s : State) (a : RxAcc) : KeepsErrBits s (commitFrame s a) := by
  rcases commitFrame_cases s a with ⟨_, e⟩ | ⟨_, e⟩ <;> rw [e]
  · exact keepsErrBits_raise .rxqOvf s
  · exact keepsErrBits_raiseAll a.causes { s with rxq := _, rep := _, part := _, hdrValid := false }

/-- Every command but SOFT_RESET, and a read, keeps the bits of ERR. -/
theorem exec_keepsErrBits {i : Instr} (hreset : i ≠ .softReset) (hwr : ∀ a v z, i ≠ .wr a v z) (s : State) :
    Answers (KeepsErrBits s) (exec i s) := by
  cases i with
  | nop => exact answers_next.2 (keepsErrBits_of_eq rfl)
  | softReset => exact absurd rfl hreset
  | txPush data cnt =>
    rcases execTxPush_cases data cnt s with ⟨_, e⟩ | ⟨_, _, e⟩ | ⟨_, _, _, e⟩ | ⟨_, _, _, e⟩ <;>
      rw [exec, e, answers_next]
    · exact keepsErrBits_raise _ s
    · exact keepsErrBits_raise _ s
    · exact keepsErrBits_raise _ s
    · exact keepsErrBits_of_eq rfl
  | txBuild =>
    rcases execTxBuild_cases s with ⟨_, e⟩ | ⟨_, _, e⟩ | ⟨_, _, _, _, _, e⟩ <;> rw [exec, e]
    · exact answers_next.2 (keepsErrBits_raise _ s)
    · exact answers_fault _ _
    · exact answers_next.2 (keepsErrBits_of_eq rfl)
  | hdrBuild =>
    rcases execHdrBuild_cases s with ⟨_, e⟩ | ⟨_, e⟩ <;> rw [exec, e, answers_next]
    · exact keepsErrBits_of_eq rfl
    · exact keepsErrBits_raise _ s
  | hdrParse =>
    rcases execHdrParse_cases s with ⟨_, e⟩ | ⟨_, _, e⟩ <;> rw [exec, e, answers_next]
    · exact keepsErrBits_raise _ { s with hdrValid := false }
    · exact keepsErrBits_of_eq rfl
  | rxFrame =>
    rcases execRxFrame_cases s with ⟨_, e⟩ | ⟨_, _, e⟩ | ⟨_, _, _, e⟩ | ⟨_, _, _, _, _, e⟩ <;>
      rw [exec, e, answers_next]
    · exact keepsErrBits_raise _ s
    · exact keepsErrBits_raise _ s
    · exact keepsErrBits_raise _ { s with hdrValid := false }
    · exact keepsErrBits_commitFrame s _
  | rxPop cnt =>
    rcases execRxPop_cases cnt s with ⟨_, e⟩ | ⟨_, _, e⟩ | ⟨_, _, e⟩ <;> rw [exec, e, answers_next]
    · exact keepsErrBits_raise _ s
    · exact keepsErrBits_raise _ s
    · exact keepsErrBits_of_eq rfl
  | cwrepPop =>
    rcases execCwrepPop_cases s with ⟨_, e⟩ | ⟨_, _, e⟩ | ⟨_, _, _, _, e⟩ <;> rw [exec, e, answers_next]
    · exact keepsErrBits_raise _ s
    · exact keepsErrBits_of_eq rfl
    · exact keepsErrBits_of_eq rfl
  | rd a size =>
    rcases execRd_cases a size s with ⟨_, e⟩ | ⟨_, _, e⟩ <;> rw [exec, e, answers_next]
    · exact keepsErrBits_raise _ { s with rdata := 0 }
    · exact keepsErrBits_of_eq rfl
  | wr a v size => exact absurd rfl (hwr a v size)

/-! ## Writes to ERR (R45, R255) -/

/-- ERR is the register at 0x028 alone (R45, R81). -/
theorem regMap_err : ∀ row ∈ regMap, row.2 = .err → row.1 = 0x028 := by decide

/-- A write to ERR clears the bits written 1 among 1..12 (R255). -/
theorem exec_wr_err (v : Word) (s : State) : exec (.wr 0x028 v 4) s = .next (clearErr v s) :=
  exec_wr_reg (show target? 0x028 4 = some (.reg .err) by decide) (by decide) v s

/-- The bits of ERR after they are cleared (R255). -/
theorem getLsbD_clearErr_err (v : Word) (s : State) (j : Nat) :
    (clearErr v s).err.getLsbD j = (s.err.getLsbD j && !(decide (1 ≤ j ∧ j ≤ 12) && v.getLsbD j)) := by
  rw [clearErr_err, BitVec.getLsbD_and, BitVec.getLsbD_not, BitVec.getLsbD_and, getLsbD_errMask,
    Bool.and_comm (v.getLsbD j)]
  by_cases hj : j < 32
  · rw [decide_eq_true hj, Bool.true_and]
  · rw [BitVec.getLsbD_of_ge s.err j (not_lt.1 hj), Bool.false_and, Bool.false_and]

/-- A write to a register other than CMD and ERR keeps the bits of ERR (R254). -/
theorem writeReg_keepsErrBits {r : Reg} (hcmd : r ≠ .cmd) (herr : r ≠ .err) (v : Word) (s : State) :
    Answers (KeepsErrBits s) (writeReg r v s) := by
  cases r
  case cmd => exact absurd rfl hcmd
  case err => exact absurd rfl herr
  case mcs | flen =>
    rw [writeReg]
    split
    · exact answers_next.2 (keepsErrBits_of_eq rfl)
    · exact answers_next.2 (keepsErrBits_raise .cfgReject s)
  case ctrl | echo | maxEmpty | floor | ie | txhLen | txhSeq | txhScheme | txhCw | txhOffsh =>
    exact answers_next.2 (keepsErrBits_of_eq rfl)
  all_goals exact answers_next.2 (keepsErrBits_raise .bus s)

/-- A well-formed bus write keeps the bits of ERR, or is a write to ERR: none of them is a command (R118). -/
theorem execWr_keepsErrBits {a : BitVec 16} {v : Word} {size : Nat} (hi : (Instr.wr a v size).wellFormed = true)
    (s : State) : (a = 0x028 ∧ size = 4) ∨ Answers (KeepsErrBits s) (execWr a v size s) := by
  rcases execWr_cases a v size s with ⟨_, e⟩ | ⟨pl, hpl, hacc, e⟩ <;> rw [e]
  · exact .inr (answers_next.2 (keepsErrBits_raise .bus s))
  · obtain ⟨⟨rfl, _⟩, hplace⟩ := target?_eq_some_iff.1 hpl
    rcases place?_cases hplace with ⟨r, rfl, hr⟩ | ⟨rfl, _⟩ | ⟨rfl, _⟩ | ⟨rfl, _⟩ | ⟨rfl, _⟩
    · by_cases herr : r = .err
      · exact .inl ⟨BitVec.eq_of_toNat_eq (regMap_err _ hr herr), rfl⟩
      · right
        by_cases hcmd : r = .cmd
        · subst hcmd
          obtain rfl : a = cmdAddr := BitVec.eq_of_toNat_eq (regMap_cmd _ hr rfl)
          obtain ⟨_, hillegal⟩ := decodeCommand_of_wellFormed_wr hi
          rw [writePlace, writeReg, dispatchCommand_error hillegal]
          exact answers_next.2 (keepsErrBits_raise _ s)
        · exact writeReg_keepsErrBits hcmd herr v s
    · exact absurd rfl hacc
    · exact .inr (answers_next.2 (keepsErrBits_of_eq rfl))
    · exact absurd rfl hacc
    · exact .inr (answers_next.2 (keepsErrBits_of_eq rfl))

/-- Every well-formed instruction but SOFT_RESET and a write to ERR keeps the bits of ERR (R255). -/
theorem exec_keepsErrBits_or {i : Instr} (hi : i.wellFormed = true) (s : State) :
    i = .softReset ∨ (∃ v, i = .wr 0x028 v 4) ∨ Answers (KeepsErrBits s) (exec i s) := by
  by_cases hreset : i = .softReset
  · exact .inl hreset
  right
  by_cases hwr : ∃ a v z, i = .wr a v z
  · obtain ⟨a, v, size, rfl⟩ := hwr
    exact (execWr_keepsErrBits hi s).imp_left fun ⟨ha, hsize⟩ => ⟨v, by rw [ha, hsize]⟩
  · exact .inr (exec_keepsErrBits hreset (fun a v z h => hwr ⟨a, v, z, h⟩) s)

/-- Settles O48: the bits after a write to ERR, and the instructions that keep them all. -/
theorem errBitsAreClearedOnlyByTheHost : Obligations.ErrBitsAreClearedOnlyByTheHost := by
  refine ⟨fun s v => ⟨_, exec_wr_err v s, fun j _ => getLsbD_clearErr_err v s j⟩, fun i s t c hi ht hset hclear => ?_⟩
  rcases exec_keepsErrBits_or hi s with hreset | ⟨v, rfl⟩ | hkeeps
  · exact .inl hreset
  · obtain rfl : clearErr v s = t := Host.Outcome.next.inj ((exec_wr_err v s).symm.trans ht)
    rw [getLsbD_clearErr_err, hset, Bool.true_and, Bool.not_eq_false', Bool.and_eq_true] at hclear
    exact .inr ⟨v, rfl, hclear.2⟩
  · cases (hkeeps t ht c hclear).symm.trans hset

end Sys2Proof.Machine
end

section
/-!
# No error stops the block, and the two sides are independent (60_exceptions.md)

From a good state every access and every command completes (R270). A command of the Tx or of the Rx side leaves the other
side as it is, and two states that agree in the configuration and in its own side give the same own side after it (R284).
-/

namespace Sys2Proof.Machine

/-! ## No error stops the block (R270) -/

/-- The outcome is a next state, neither a fault nor a refusal. -/
def Completes (o : Host.Outcome State Fault Refusal) : Prop := ∃ t, o = .next t

@[simp] theorem completes_next (t : State) : Completes (.next t) := ⟨t, rfl⟩

/-- Every instruction but a bus write completes; the fault of TX_BUILD needs a scheme that no good state names (log 6). -/
theorem exec_completes_of_not_wr {i : Instr} (hwr : ∀ a v z, i ≠ .wr a v z) {s : State} (hi : Inv s) :
    Completes (exec i s) := by
  cases i with
  | nop => exact completes_next s
  | softReset => exact completes_next _
  | txPush data cnt =>
    rcases execTxPush_cases data cnt s with ⟨_, e⟩ | ⟨_, _, e⟩ | ⟨_, _, _, e⟩ | ⟨_, _, _, e⟩ <;> exact ⟨_, e⟩
  | txBuild =>
    rcases execTxBuild_cases s with ⟨_, e⟩ | ⟨hf, _, _⟩ | ⟨_, _, _, _, _, e⟩
    · exact ⟨_, e⟩
    · obtain ⟨c, hc⟩ := exists_code?_frameCode hi hf
      exact ⟨_, exec_txBuild hi hf hc⟩
    · exact ⟨_, e⟩
  | hdrBuild => rcases execHdrBuild_cases s with ⟨_, e⟩ | ⟨_, e⟩ <;> exact ⟨_, e⟩
  | hdrParse => rcases execHdrParse_cases s with ⟨_, e⟩ | ⟨_, _, e⟩ <;> exact ⟨_, e⟩
  | rxFrame =>
    rcases execRxFrame_cases s with ⟨_, e⟩ | ⟨_, _, e⟩ | ⟨_, _, _, e⟩ | ⟨_, _, _, _, _, e⟩ <;> exact ⟨_, e⟩
  | rxPop cnt => rcases execRxPop_cases cnt s with ⟨_, e⟩ | ⟨_, _, e⟩ | ⟨_, _, e⟩ <;> exact ⟨_, e⟩
  | cwrepPop => rcases execCwrepPop_cases s with ⟨_, e⟩ | ⟨_, _, e⟩ | ⟨_, _, _, _, e⟩ <;> exact ⟨_, e⟩
  | rd a size => rcases execRd_cases a size s with ⟨_, e⟩ | ⟨_, _, e⟩ <;> exact ⟨_, e⟩
  | wr a v size => exact absurd rfl (hwr a v size)

/-- A word written to CMD completes: an illegal one is recorded, a command is none of the bus writes (R256). -/
theorem dispatchCommand_completes (w : Word) {s : State} (hi : Inv s) : Completes (dispatchCommand w s) := by
  cases h : decodeCommand w with
  | ok i => rw [dispatchCommand_ok h]; exact exec_completes_of_not_wr (decodeCommand_ne_bus h).2 hi
  | error e => rw [dispatchCommand_error h]; exact completes_next _

/-- A register write completes (R254). -/
theorem RegEffect.completes {v : Word} {s : State} {o : Host.Outcome State Fault Refusal} (h : RegEffect v s o)
    (hi : Inv s) : Completes o := by
  cases h
  case command => exact dispatchCommand_completes v hi
  all_goals exact completes_next _

/-- Every instruction completes from a good state (R270). -/
theorem exec_completes (i : Instr) {s : State} (hi : Inv s) : Completes (exec i s) := by
  by_cases hwr : ∃ a v z, i = .wr a v z
  · obtain ⟨a, v, size, rfl⟩ := hwr
    rcases execWr_effects a v size s with ⟨_, e⟩ | ⟨_, e⟩ | ⟨r, e⟩ <;> rw [exec, e]
    · exact completes_next _
    · exact completes_next _
    · exact (writeReg_effect r v s).completes hi
  · exact exec_completes_of_not_wr (fun a v z h => hwr ⟨a, v, z, h⟩) hi

/-- Settles O12: a step idles or runs an instruction, and each of them completes. -/
theorem goodStatesNeverStop : Obligations.GoodStatesNeverStop := by
  intro s hi
  refine ⟨fun i => exec_completes i hi, ?_⟩
  rcases step_cases s with ⟨_, e⟩ | ⟨a, rest, _, e⟩ <;> rw [e]
  · exact completes_next s
  · exact exec_completes (decodeAccess a) (inv_host hi rest s.rdata)

/-! ## The commands and the state of each side (R284)

Two states of one configuration and one Tx side are `s` and `withOutsideTx s o`, those of one Rx side `s` and
`withOutsideRx s o`: what is computed from that side alone is the same function of both by definition, and only the memory,
of which the two have the side's windows in common, is left to argue. -/

/-- The commands of the Tx side. -/
theorem isTxCommand_cases {i : Instr} (h : isTxCommand i = true) :
    (∃ data cnt, i = .txPush data cnt) ∨ i = .txBuild ∨ i = .hdrBuild := by
  cases i <;> simp_all [isTxCommand]

/-- The commands of the Rx side. -/
theorem isRxCommand_cases {i : Instr} (h : isRxCommand i = true) :
    i = .hdrParse ∨ i = .rxFrame ∨ (∃ cnt, i = .rxPop cnt) ∨ i = .cwrepPop := by
  cases i <;> simp_all [isRxCommand]

/-- `s` with all that is neither configuration nor a field of the Tx side taken from `o`. -/
def withOutsideTx (s o : State) : State :=
  { s with
    err := o.err, cause := o.cause, rxh := o.rxh, hdrValid := o.hdrValid, part := o.part, rxq := o.rxq, rep := o.rep
    rxout := o.rxout, cwrep := o.cwrep, cwrepNb := o.cwrepNb, mem := o.mem, bus := o.bus, rdata := o.rdata }

@[simp] theorem withOutsideTx_params (s o : State) : (withOutsideTx s o).params = s.params := rfl
@[simp] theorem withOutsideTx_mcsMod (s o : State) : (withOutsideTx s o).mcsMod = s.mcsMod := rfl
@[simp] theorem frameCode_withOutsideTx (s o : State) : frameCode (withOutsideTx s o) = frameCode s := rfl

/-- A state of the same configuration and Tx side differs outside them alone. -/
theorem eq_withOutsideTx {s s' : State} (hcfg : SameConfig s s') (hside : SameTxSide s s') :
    s' = withOutsideTx s s' := by
  cases s; cases s'
  simp_all [SameConfig, SameTxSide, withOutsideTx]

/-- `s` with all that is neither configuration nor a field of the Rx side taken from `o`. -/
def withOutsideRx (s o : State) : State :=
  { s with
    err := o.err, cause := o.cause, txq := o.txq, rem := o.rem, frameNo := o.frameNo, nextCwId := o.nextCwId
    emptyCount := o.emptyCount, txh := o.txh, txPbits := o.txPbits, mem := o.mem, bus := o.bus, rdata := o.rdata }

@[simp] theorem withOutsideRx_params (s o : State) : (withOutsideRx s o).params = s.params := rfl
@[simp] theorem withOutsideRx_rxh (s o : State) : (withOutsideRx s o).rxh = s.rxh := rfl
@[simp] theorem withOutsideRx_hdrValid (s o : State) : (withOutsideRx s o).hdrValid = s.hdrValid := rfl
@[simp] theorem withOutsideRx_rep (s o : State) : (withOutsideRx s o).rep = s.rep := rfl
@[simp] theorem headerSeed_withOutsideRx (s o : State) : headerSeed (withOutsideRx s o) = headerSeed s := rfl

/-- A state of the same configuration and Rx side differs outside them alone. -/
theorem eq_withOutsideRx {s s' : State} (hcfg : SameConfig s s') (hside : SameRxSide s s') :
    s' = withOutsideRx s s' := by
  cases s; cases s'
  simp_all [SameConfig, SameRxSide, withOutsideRx]

/-- The output windows of two memories are the same. -/
def SameOutput (m n : Memory) : Prop := SameBytes InHdrOut m n ∧ SameBytes InPayloadOut m n

/-- The input windows of two memories are the same. -/
def SameInput (m n : Memory) : Prop := SameBytes InHdrIn m n ∧ SameBytes InRxSoft m n

/-- The output windows lie apart from the input windows (R81). -/
theorem sameInput_of_outside {m n : Memory} (h : SameBytes (fun a => ¬InHdrOut a ∧ ¬InPayloadOut a) m n) :
    SameInput m n := by
  refine ⟨fun a ha => h a ?_, fun a ha => h a ?_⟩
  · unfold InHdrIn at ha; unfold InHdrOut InPayloadOut; omega
  · unfold InRxSoft at ha; unfold InHdrOut InPayloadOut; omega

/-- States of one configuration and Tx side, but for the memory outside the output windows, have one Tx side. -/
theorem sameTxSide_withOutsideTx {s o : State} (h : SameOutput s.mem o.mem) : SameTxSide s (withOutsideTx s o) :=
  ⟨rfl, rfl, rfl, rfl, rfl, rfl, rfl, h.1, h.2⟩

/-- States of one configuration and Rx side, but for the memory outside the input windows, have one Rx side. -/
theorem sameRxSide_withOutsideRx {s o : State} (h : SameInput s.mem o.mem) : SameRxSide s (withOutsideRx s o) :=
  ⟨rfl, rfl, rfl, rfl, rfl, rfl, rfl, rfl, h.1, h.2⟩

/-! ## A command leaves the other side as it is (R284) -/

/-- A state has its own Rx side, whatever its other fields become. -/
theorem SameRxSide.refl (s : State) : SameRxSide s s :=
  ⟨rfl, rfl, rfl, rfl, rfl, rfl, rfl, rfl, fun _ _ => rfl, fun _ _ => rfl⟩

/-- A state has its own Tx side, whatever its other fields become. -/
theorem SameTxSide.refl (s : State) : SameTxSide s s :=
  ⟨rfl, rfl, rfl, rfl, rfl, rfl, rfl, fun _ _ => rfl, fun _ _ => rfl⟩

/-- A command of the Tx side keeps the Rx side: it writes Tx fields and the output windows alone. -/
theorem exec_sameRxSide {i : Instr} (hi : isTxCommand i = true) (s : State) : Answers (SameRxSide s) (exec i s) := by
  have same : SameRxSide s s := SameRxSide.refl s
  rcases isTxCommand_cases hi with ⟨data, cnt, rfl⟩ | rfl | rfl
  · rcases execTxPush_cases data cnt s with ⟨_, e⟩ | ⟨_, _, e⟩ | ⟨_, _, _, e⟩ | ⟨_, _, _, e⟩ <;> rw [exec, e] <;>
      exact answers_next.2 same
  · rcases execTxBuild_cases s with ⟨_, e⟩ | ⟨_, _, e⟩ | ⟨b, c, _, _, _, e⟩ <;> rw [exec, e]
    · exact answers_next.2 same
    · exact answers_fault _ _
    · exact answers_next.2 (sameRxSide_withOutsideRx (o := buildFrame s b c)
        (sameInput_of_outside (sameBytes_buildFrame s b c)))
  · rcases execHdrBuild_cases s with ⟨_, e⟩ | ⟨_, e⟩ <;> rw [exec, e]
    · exact answers_next.2 (sameRxSide_withOutsideRx (o := { s with mem := writeHdrOut s.mem _ })
        (sameInput_of_outside fun _ ha => readByte_writeHdrOut ha.1 s.mem _))
    · exact answers_next.2 same

/-- Committing a deframing keeps the Tx side (R217). -/
theorem sameTxSide_commitFrame (s : State) (a : RxAcc) : SameTxSide s (commitFrame s a) := by
  rcases commitFrame_cases s a with ⟨_, e⟩ | ⟨_, e⟩ <;> rw [e]
  · exact SameTxSide.refl s
  · rw [raiseAll_eq]
    exact SameTxSide.refl s

/-- A command of the Rx side keeps the Tx side: it writes no memory and no Tx field. -/
theorem exec_sameTxSide {i : Instr} (hi : isRxCommand i = true) (s : State) : Answers (SameTxSide s) (exec i s) := by
  have same : SameTxSide s s := SameTxSide.refl s
  rcases isRxCommand_cases hi with rfl | rfl | ⟨cnt, rfl⟩ | rfl
  · rcases execHdrParse_cases s with ⟨_, e⟩ | ⟨_, _, e⟩ <;> rw [exec, e] <;> exact answers_next.2 same
  · rcases execRxFrame_cases s with ⟨_, e⟩ | ⟨_, _, e⟩ | ⟨_, _, _, e⟩ | ⟨b, c, _, _, _, e⟩ <;>
      rw [exec, e, answers_next]
    · exact same
    · exact same
    · exact same
    · exact sameTxSide_commitFrame s _
  · rcases execRxPop_cases cnt s with ⟨_, e⟩ | ⟨_, _, e⟩ | ⟨_, _, e⟩ <;> rw [exec, e] <;> exact answers_next.2 same
  · rcases execCwrepPop_cases s with ⟨_, e⟩ | ⟨_, _, e⟩ | ⟨_, _, _, _, e⟩ <;> rw [exec, e] <;>
      exact answers_next.2 same

/-! ## Outcomes that agree -/

/-- Where the first outcome is a next state, the second is one that is related to it. -/
def AnswersAlike (R : State → State → Prop) (o o' : Host.Outcome State Fault Refusal) : Prop :=
  ∀ t, o = .next t → ∃ t', o' = .next t' ∧ R t t'

section
variable {R : State → State → Prop} {o o' u u' : Host.Outcome State Fault Refusal}

/-- Next states agree when they are related. -/
theorem AnswersAlike.next {t t' : State} (h : R t t') : AnswersAlike R (.next t) (.next t') :=
  fun _ ht => ⟨t', rfl, Host.Outcome.next.inj ht ▸ h⟩

/-- A stop has no next state to agree with. -/
theorem AnswersAlike.fault (f : Fault) : AnswersAlike R (.fault f) o' := fun _ ht => nomatch ht

/-- Two outcomes that are chosen by one condition agree when the chosen ones do. -/
theorem AnswersAlike.ite {c : Prop} [Decidable c] (hpos : AnswersAlike R o o') (hneg : AnswersAlike R u u') :
    AnswersAlike R (if c then o else u) (if c then o' else u') := by
  split
  · exact hpos
  · exact hneg

end

/-! ## The Tx side is determined by itself (R284) -/

/-- One string written to one window of two memories leaves their bytes as alike as they were (R151, R182). -/
theorem SameBytes.writeBits {P : Nat → Prop} {m n : Memory} (h : SameBytes P m n) (base size : Nat) (x : Bits) :
    SameBytes P (writeBits m base size x) (writeBits n base size x) := by
  intro a ha
  simp only [Machine.writeBits, readByte_replaceWindow, h a ha]

/-- One header written to both memories (R151). -/
theorem SameOutput.writeHdrOut {m n : Memory} (h : SameOutput m n) (x : Bits) :
    SameOutput (writeHdrOut m x) (writeHdrOut n x) := ⟨h.1.writeBits _ _ x, h.2.writeBits _ _ x⟩

/-- One payload written to both memories (R182). -/
theorem SameOutput.writePayloadOut {m n : Memory} (h : SameOutput m n) (x : Bits) :
    SameOutput (writeBits m payloadOutBase Config.pmaxBits x) (writeBits n payloadOutBase Config.pmaxBits x) :=
  ⟨h.1.writeBits _ _ x, h.2.writeBits _ _ x⟩

/-- A build is made of the configuration and the Tx side (R182 to R190). -/
theorem sameTxSide_buildFrame {s o : State} (h : SameOutput s.mem o.mem) (b : Nat) (c : Code) :
    SameTxSide (buildFrame s b c) (buildFrame (withOutsideTx s o) b c) :=
  have hmem := (h.writeHdrOut (headerBits s.params (headerSeed s) (buildFrame s b c).txh)).writePayloadOut
    (payloadBits b (buildPayload s b c).out)
  ⟨rfl, rfl, rfl, rfl, rfl, rfl, rfl, hmem.1, hmem.2⟩

/-- TX_PUSH decides and appends by the configuration and the Tx side (R181). -/
theorem execTxPush_alike {s o : State} (h : SameOutput s.mem o.mem) (data : BitVec 8) (cnt : BitVec 4) :
    AnswersAlike SameTxSide (execTxPush data cnt s) (execTxPush data cnt (withOutsideTx s o)) :=
  have same := sameTxSide_withOutsideTx h
  .ite (.next same) (.ite (.next same) (.ite (.next same) (.next (sameTxSide_withOutsideTx (o := o) h))))

/-- TX_BUILD chooses its scheme and builds its frame by the configuration and the Tx side (R182). -/
theorem execTxBuild_alike {s o : State} (h : SameOutput s.mem o.mem) :
    AnswersAlike SameTxSide (execTxBuild s) (execTxBuild (withOutsideTx s o)) := by
  unfold execTxBuild
  simp only [withOutsideTx_params, withOutsideTx_mcsMod, frameCode_withOutsideTx]
  refine .ite (.next (sameTxSide_withOutsideTx h)) ?_
  cases bps? s.mcsMod with
  | none => exact .fault _
  | some b =>
    cases code? s.params (frameCode s) with
    | none => exact .fault _
    | some c => exact .next (sameTxSide_buildFrame h b c)

/-- HDR_BUILD writes a header of the configuration and TXH (R151). -/
theorem execHdrBuild_alike {s o : State} (h : SameOutput s.mem o.mem) :
    AnswersAlike SameTxSide (execHdrBuild s) (execHdrBuild (withOutsideTx s o)) :=
  have hmem := h.writeHdrOut (headerBits s.params (headerSeed s) s.txh)
  .ite (.next ⟨rfl, rfl, rfl, rfl, rfl, rfl, rfl, hmem.1, hmem.2⟩) (.next (sameTxSide_withOutsideTx h))

/-- A command of the Tx side does the same to the same Tx side. -/
theorem exec_txAlike {i : Instr} (hi : isTxCommand i = true) {s s' : State} (hcfg : SameConfig s s')
    (hside : SameTxSide s s') : AnswersAlike SameTxSide (exec i s) (exec i s') := by
  obtain ⟨_, _, _, _, _, _, _, hhdr, hpayload⟩ := id hside
  have hout : SameOutput s.mem s'.mem := ⟨hhdr, hpayload⟩
  rw [eq_withOutsideTx hcfg hside]
  rcases isTxCommand_cases hi with ⟨data, cnt, rfl⟩ | rfl | rfl
  · exact execTxPush_alike hout data cnt
  · exact execTxBuild_alike hout
  · exact execHdrBuild_alike hout

/-! ## The Rx side is determined by itself (R284) -/

/-- Samples of a part of a window that two memories have in common (R87). -/
theorem SameBytes.readSamples_eq {P : Nat → Prop} {m n : Memory} (h : SameBytes P m n) {base count : Nat}
    (hP : ∀ j < count, P (base + j)) : readSamples n base count = readSamples m base count :=
  List.map_congr_left fun j hj => h (base + j) (hP j (List.mem_range.1 hj))

/-- The header samples lie in HDR_IN: the header of a well-formed parameter set is no longer than the window (R8, R152). -/
theorem hdrInSamples_withOutsideRx {s o : State} (hi : Inv s) (h : SameInput s.mem o.mem) :
    hdrInSamples (withOutsideRx s o) = hdrInSamples s := by
  have hlen := (paramsWf_good hi.params).hbMax
  refine h.1.readSamples_eq fun j hj => ?_
  change j < headerLen s.params at hj
  unfold InHdrIn hdrInBase
  omega

/-- The samples of a frame that passes the checks lie in RX_SOFT (R210, R211). -/
theorem frameSamples_withOutsideRx {s o : State} (h : SameInput s.mem o.mem) {b : Nat} {c : Code}
    (hrange : rangeCheck s.params s.rxh = some (b, c)) : frameSamples (withOutsideRx s o) b = frameSamples s b := by
  obtain ⟨rfl, _, _, _, _, hfits, _⟩ := rangeCheck_some.1 hrange
  refine h.2.readSamples_eq fun j hj => ?_
  change j < s.rxh.plen.toNat * s.rxh.mod.toNat at hj
  unfold InRxSoft rxSoftBase
  omega

/-- A deframing reads the configuration, the Rx side and the samples of the frame (R212 to R216). -/
theorem deframe_withOutsideRx {s o : State} (h : SameInput s.mem o.mem) {b : Nat} {c : Code}
    (hrange : rangeCheck s.params s.rxh = some (b, c)) : deframe (withOutsideRx s o) b c = deframe s b c := by
  unfold deframe
  rw [frameSamples_withOutsideRx h hrange]
  rfl

/-- One result is committed alike to the same Rx side (R217). -/
theorem sameRxSide_commitFrame {s o : State} (h : SameInput s.mem o.mem) (a : RxAcc) :
    SameRxSide (commitFrame s a) (commitFrame (withOutsideRx s o) a) := by
  rcases commitFrame_cases s a with ⟨hfull, e⟩ | ⟨⟨hrxq, hrep⟩, e⟩
  · have e' : commitFrame (withOutsideRx s o) a = raise .rxqOvf (withOutsideRx s o) := if_pos hfull
    rw [e, e']
    exact sameRxSide_withOutsideRx h
  · have e' : commitFrame (withOutsideRx s o) a = raiseAll a.causes { withOutsideRx s o with
        rxq := s.rxq ++ a.out, rep := s.rep ++ a.reps, part := a.part, hdrValid := false } :=
      if_neg (show ¬(s.params.rxqCap < s.rxq.length + a.out.length ∨
        s.params.cwrepCap < s.rep.length + a.reps.length) by omega)
    rw [e, e', raiseAll_eq,
      raiseAll_eq a.causes { withOutsideRx s o with rxq := _, rep := _, part := _, hdrValid := false }]
    exact ⟨rfl, rfl, rfl, rfl, rfl, rfl, rfl, rfl, h.1, h.2⟩

/-- HDR_PARSE reads the configuration and HDR_IN (R152). -/
theorem execHdrParse_alike {s o : State} (hi : Inv s) (h : SameInput s.mem o.mem) :
    AnswersAlike SameRxSide (execHdrParse s) (execHdrParse (withOutsideRx s o)) := by
  unfold execHdrParse
  simp only [withOutsideRx_params, headerSeed_withOutsideRx, hdrInSamples_withOutsideRx hi h]
  cases headerParse s.params (headerSeed s) (hdrInSamples s) with
  | none => exact .next (sameRxSide_withOutsideRx (o := o) h)
  | some f => exact .next (sameRxSide_withOutsideRx (o := o) h)

/-- RX_FRAME refuses, drops or commits by the configuration and the Rx side (R218). -/
theorem execRxFrame_alike {s o : State} (h : SameInput s.mem o.mem) :
    AnswersAlike SameRxSide (execRxFrame s) (execRxFrame (withOutsideRx s o)) := by
  have same := sameRxSide_withOutsideRx h
  unfold execRxFrame
  simp only [withOutsideRx_params, withOutsideRx_rxh, withOutsideRx_hdrValid]
  refine .ite (.next same) (.ite (.next same) ?_)
  cases hrange : rangeCheck s.params s.rxh with
  | none => exact .next (sameRxSide_withOutsideRx (o := o) h)
  | some bc =>
    refine .next ?_
    rw [deframe_withOutsideRx h hrange]
    exact sameRxSide_commitFrame h _

/-- RX_POP takes bits of the Rx side's own queue (R219). -/
theorem execRxPop_alike {s o : State} (h : SameInput s.mem o.mem) (cnt : BitVec 4) :
    AnswersAlike SameRxSide (execRxPop cnt s) (execRxPop cnt (withOutsideRx s o)) :=
  have same := sameRxSide_withOutsideRx h
  .ite (.next same) (.ite (.next same) (.next (sameRxSide_withOutsideRx (o := o) h)))

/-- CWREP_POP takes a report of the Rx side's own queue (R220). -/
theorem execCwrepPop_alike {s o : State} (h : SameInput s.mem o.mem) :
    AnswersAlike SameRxSide (execCwrepPop s) (execCwrepPop (withOutsideRx s o)) := by
  unfold execCwrepPop
  simp only [withOutsideRx_params, withOutsideRx_rep]
  refine .ite (.next (sameRxSide_withOutsideRx h)) ?_
  cases s.rep with
  | nil => exact .next (sameRxSide_withOutsideRx (o := o) h)
  | cons e rest => exact .next (sameRxSide_withOutsideRx (o := o) h)

/-- A command of the Rx side does the same to the same Rx side. -/
theorem exec_rxAlike {i : Instr} (hi : isRxCommand i = true) {s s' : State} (hinv : Inv s) (hcfg : SameConfig s s')
    (hside : SameRxSide s s') : AnswersAlike SameRxSide (exec i s) (exec i s') := by
  obtain ⟨_, _, _, _, _, _, _, _, hhdr, hsoft⟩ := id hside
  have hin : SameInput s.mem s'.mem := ⟨hhdr, hsoft⟩
  rw [eq_withOutsideRx hcfg hside]
  rcases isRxCommand_cases hi with rfl | rfl | ⟨cnt, rfl⟩ | rfl
  · exact execHdrParse_alike hinv hin
  · exact execRxFrame_alike hin
  · exact execRxPop_alike hin cnt
  · exact execCwrepPop_alike hin

/-- Settles O51: for either side, what its commands leave of the other side, and what determines its own. -/
theorem txAndRxSidesAreIndependent : Obligations.TxAndRxSidesAreIndependent :=
  ⟨fun _ s t hi ht => exec_sameRxSide hi s t ht, fun _ s t hi ht => exec_sameTxSide hi s t ht,
    fun _ _ _ t hi hcfg hside ht => exec_txAlike hi hcfg hside t ht,
    fun _ _ _ t hi hinv hcfg hside ht => exec_rxAlike hi hinv hcfg hside t ht⟩

end Sys2Proof.Machine
end

section
/-!
# The model's reset state (70_reset_and_hazards.md)

The invariant holds of the state the model starts in: the reset state of configuration F, whose parameters pass every
check of construction (R8, R300; log 3).
-/

namespace Sys2Proof.Machine

/-- Toy code 1 satisfies R9 in configuration F: its sizes, and the codec contract on its 16 information strings. -/
theorem legalCode_toyCode1 : legalCode Config.configF Config.toyCode1 = true := by decide +kernel

/-- Toy code 2 satisfies R9 in configuration F: its sizes, and the codec contract on its 64 information strings. -/
theorem legalCode_toyCode2 : legalCode Config.configF Config.toyCode2 = true := by decide +kernel

/-- Configuration F meets the conditions of R7, R8 and R9, its codes one by one. -/
theorem goodParams_configF : GoodParams Config.configF where
  nc := by decide
  hc := by decide
  hbMax := by decide
  layoutFits := by decide
  wPlen := by decide
  wSeq := by decide
  wFlen := by decide
  wCwid := by decide
  wOff := by decide
  wShort := by decide
  scrSeed := by decide
  txqCap := by decide
  rxqCap := by decide
  cwrepCap := by decide
  ids := by decide
  codes := fun _ => List.forall_mem_cons.2 ⟨legalCode_toyCode1, List.forall_mem_singleton.2 legalCode_toyCode2⟩
  initMcs := by decide
  initFlen := by decide

/-- Settles O10: the base case of the invariant, at the parameters of configuration F. -/
theorem resetStateIsGood : Obligations.ResetStateIsGood :=
  inv_resetWith (paramsWf_iff_good.2 goodParams_configF)

end Sys2Proof.Machine
end
